-- ==== Sys2Proof/Word.lean ====
section
/-! DEFINITION. The word types of the block (00_scope.md R7, R8): bytes of the UART and of RAM, 32-bit
registers and data words, 16-bit operation words. -/

namespace Sys2Proof

/-- An 8-bit byte: a UART byte (10_state.md R28) or a byte of RAM (20_memory.md R39). -/
abbrev Byte := BitVec 8

/-- A 32-bit register value, data word or address (00_scope.md R7: `REG_WIDTH`, `ADDR_WIDTH` are 32). -/
abbrev Word := BitVec 32

/-- A 16-bit operation word: an access descriptor or a CORE word (30_encoding.md R52, R53). -/
abbrev AdWord := BitVec 16

end Sys2Proof
end

