-- ==== Sys2Proof/Config.lean ====
section
/-! DEFINITION. The implementation parameters of 00_scope.md R7, as a plain record, and the free values
(`draw`, and the free interleaving of the agents) as constants with no body. The record stands in State as a
field that no step writes (log entry 4), so a statement about every state holds for every configuration. -/

namespace Sys2Proof

/-- The four register windows of the block (10_state.md R14, 20_memory.md R38). -/
inductive Window where
  | timer
  | intc
  | uart
  | clk
deriving DecidableEq, Repr

/-- `TIMER_DIR` (00_scope.md R7): which way the counter counts. -/
inductive TimerDir where
  | down
  | up
deriving DecidableEq, Repr

/-- `RX_OVERRUN` (00_scope.md R7, 40_uart.md R66): what a byte arriving at a full receive FIFO does. -/
inductive RxOverrun where
  | dropNew
  | hold
deriving DecidableEq, Repr

/-- `ISR_OUTPUT` (00_scope.md R7, 46_sync_wrapper.md R104): where the handler's payload goes. -/
inductive IsrOutput where
  | direct
  | ring
deriving DecidableEq, Repr

/-- The choices of who moves next (00_scope.md R3, 60_exceptions.md R130): the processor agent by a line of
its program or by taking the interrupt, the timer's tick, and the two UART line agents. -/
inductive Agent where
  | processor
  | delivery
  | tick
  | txDrain
  | rxArrival
deriving DecidableEq, Repr, Inhabited

/-- The parameters of 00_scope.md R7. `rbBase` is the address of the ring in RAM, which "the platform
chooses" (20_memory.md R39). `PERIOD_S` is the rational `periodNum / periodDen` (log entry 25). -/
structure Config where
  baseTimer : Word
  baseIntc : Word
  baseUart : Word
  baseClk : Word
  clockHz : Nat
  periodNum : Nat
  periodDen : Nat
  timerDir : TimerDir
  txDepth : Nat
  rxDepth : Nat
  rxOverrun : RxOverrun
  prioBits : Nat
  prioValue : Nat
  rbCap : Nat
  rbBase : Word
  diagLine : List Byte
  isrOutput : IsrOutput
  echoNl : List Byte
  timerIrq : Nat
deriving DecidableEq, Repr

/-- The defaults of 00_scope.md R7 and, for the OPEN parameters, the values of the test vectors
(95_test_vectors.md, Conventions). The window bases, the ring's address and `TIMER_IRQ` are the model's choice
(log entry 4). -/
def Config.vectors : Config where
  baseTimer := 0x40000000#32
  baseIntc := 0x40001000#32
  baseUart := 0x40002000#32
  baseClk := 0x40003000#32
  clockHz := 24000000
  periodNum := 2
  periodDen := 1
  timerDir := .down
  txDepth := 16
  rxDepth := 16
  rxOverrun := .dropNew
  prioBits := 8
  prioValue := 0
  rbCap := 64
  rbBase := 0x20000000#32
  diagLine := [0x54#8, 0x49#8, 0x43#8, 0x4B#8, 0x0A#8]
  isrOutput := .ring
  echoNl := [0x0A#8]
  timerIrq := 0

/-- The base address of a window (20_memory.md R38). -/
def Config.base (c : Config) : Window → Word
  | .timer => c.baseTimer
  | .intc => c.baseIntc
  | .uart => c.baseUart
  | .clk => c.baseClk

/-- `draw(UInt24)` of 40_uart.md R62: bits 31:8 of the n-th read of `UDATA`. No body: nothing fixes it. -/
opaque Config.drawUpper : Nat → BitVec 24

/-- `draw(Bool)` of 43_intc.md R92: whether an acknowledge that finds the line high latches the re-arm. No
body: nothing fixes it. -/
opaque Config.drawRearm : Nat → Bool

/-- The value of a name that its operation has not written (10_state.md R12 states none): of the `n`-th free
value taken, for each name. No body: nothing fixes it (log entry 13, DESIGN CHOICE). -/
opaque Config.freeWord : Nat → Nat → BitVec 32

/-- The same for a name of byte strings, of any length (log entry 13, DESIGN CHOICE). -/
opaque Config.freeString : Nat → Nat → List (BitVec 8)

/-- The first byte of an empty string (00_scope.md R8 states none): the `n`-th free value taken. No body (log
entry 28, DESIGN CHOICE). -/
opaque Config.freeByte : Nat → BitVec 8

/-- `a mod 0`, for each `a`: no rule states it. No body (log entry 28, DESIGN CHOICE). -/
opaque Config.freeMod : BitVec 32 → BitVec 32

/-- `a << n` for an amount `n` of 32 or more: no rule states it. No body (log entry 28, DESIGN CHOICE). -/
opaque Config.freeShl : BitVec 32 → BitVec 32 → BitVec 32

/-- `a >> n` for an amount `n` of 32 or more: no rule states it. No body (log entry 28, DESIGN CHOICE). -/
opaque Config.freeShr : BitVec 32 → BitVec 32 → BitVec 32

/-- The free interleaving of 00_scope.md R3 and 60_exceptions.md R130 (1): who moves at the n-th step that no
listed schedule entry decides. No body: nothing fixes it. -/
opaque Config.freeAgent : Nat → Agent

end Sys2Proof
end

