-- ==== Sys2Proof/Syntax.lean ====
section
/-! DEFINITION. The operations of the block: one constructor per row of spec/opcode_table.json, in the
table's order. A write carries its 32-bit data word (30_encoding.md R52); a read and a CORE operation carry
nothing (R52, R53). -/

namespace Sys2Proof

inductive Instr where
  | ldClkTimer
  | stClkTimer (wdata : Word)
  | ldTctrl
  | stTctrl (wdata : Word)
  | ldTcount
  | stTcount (wdata : Word)
  | ldTload
  | stTload (wdata : Word)
  | ldTisr
  | stTisr (wdata : Word)
  | ldTier
  | stTier (wdata : Word)
  | ldIcMaskClr
  | stIcMaskClr (wdata : Word)
  | ldIcPrio
  | stIcPrio (wdata : Word)
  | ldIcAck
  | stIcAck (wdata : Word)
  | ldUdata
  | stUdata (wdata : Word)
  | ldUstat
  | stUstat (wdata : Word)
  | ie
  | id
  | iret
deriving DecidableEq, Repr

end Sys2Proof
end

