-- ==== Sys2Proof/Decode.lean ====
section
/-! DEFINITION. The decoder of 16-bit operation words (30_encoding.md R52, R53, R55), total on every word and
rejecting by name, and after it the encoder. -/

namespace Sys2Proof

/-- The direction of a bus access: bit 15, `W`, of the access descriptor (30_encoding.md R52). -/
inductive Dir where
  | read
  | write
deriving DecidableEq, Repr

/-- The eleven registers of 10_state.md R14. -/
inductive Reg where
  | clkTimer
  | tctrl
  | tcount
  | tload
  | tisr
  | tier
  | icMaskClr
  | icPrio
  | icAck
  | udata
  | ustat
deriving DecidableEq, Repr

/-- What a word spells: an operation; an access to an offset that names no register (30_encoding.md R55, a
fault of the access); or no operation at all (R53, R55: refused). -/
inductive Decoded where
  | instr (i : Instr)
  | unmapped
  | reserved
deriving DecidableEq, Repr

/-- Field `W` (bit 15) of 30_encoding.md R52. -/
def adDir (ad : AdWord) : Dir := if ad.getLsbD 15 then .write else .read

/-- Field `RGN` (bits 14:12) of 30_encoding.md R52. -/
def adRegion (ad : AdWord) : BitVec 3 := ad.extractLsb' 12 3

/-- Field `OFF` (bits 11:0) of 30_encoding.md R52. -/
def adOffset (ad : AdWord) : BitVec 12 := ad.extractLsb' 0 12

/-- The windows' `RGN` values, 30_encoding.md R52. -/
def regionId : Window → BitVec 3
  | .timer => 0#3
  | .intc => 1#3
  | .uart => 2#3
  | .clk => 3#3

/-- The window a `RGN` value names; none for 100 to 111 (30_encoding.md R52). -/
def windowOf (rgn : BitVec 3) : Option Window :=
  if rgn = 0#3 then some .timer
  else if rgn = 1#3 then some .intc
  else if rgn = 2#3 then some .uart
  else if rgn = 3#3 then some .clk
  else none

/-- The access descriptor of a direction, a window and an offset (30_encoding.md R52). -/
def mkAd (d : Dir) (w : Window) (off : BitVec 12) : AdWord :=
  (match d with | .read => 0#1 | .write => 1#1) ++ regionId w ++ off

/-- The CORE word with operation select `off` (30_encoding.md R53). -/
def mkCore (off : BitVec 12) : AdWord := 1#1 ++ 7#3 ++ off

/-- Whether the low two bits of an offset or address are 0 (20_memory.md R42). -/
def aligned4 {n : Nat} (v : BitVec n) : Bool := v.toNat % 4 == 0

/-- The register at an offset of a window (10_state.md R14); none where no register is named
(20_memory.md R46). -/
def registerAt (w : Window) (off : BitVec 12) : Option Reg :=
  match w with
  | .clk => if off = 0x000#12 then some .clkTimer else none
  | .timer =>
    if off = 0x000#12 then some .tctrl
    else if off = 0x004#12 then some .tcount
    else if off = 0x008#12 then some .tload
    else if off = 0x00C#12 then some .tisr
    else if off = 0x010#12 then some .tier
    else none
  | .intc =>
    if off = 0x000#12 then some .icMaskClr
    else if off = 0x004#12 then some .icPrio
    else if off = 0x008#12 then some .icAck
    else none
  | .uart =>
    if off = 0x000#12 then some .udata
    else if off = 0x004#12 then some .ustat
    else none

/-- The access to a register in a direction, with its data word for a write (30_encoding.md R55). -/
def accessOf (d : Dir) (r : Reg) (wdata : Word) : Instr :=
  match d, r with
  | .read, .clkTimer => .ldClkTimer
  | .write, .clkTimer => .stClkTimer wdata
  | .read, .tctrl => .ldTctrl
  | .write, .tctrl => .stTctrl wdata
  | .read, .tcount => .ldTcount
  | .write, .tcount => .stTcount wdata
  | .read, .tload => .ldTload
  | .write, .tload => .stTload wdata
  | .read, .tisr => .ldTisr
  | .write, .tisr => .stTisr wdata
  | .read, .tier => .ldTier
  | .write, .tier => .stTier wdata
  | .read, .icMaskClr => .ldIcMaskClr
  | .write, .icMaskClr => .stIcMaskClr wdata
  | .read, .icPrio => .ldIcPrio
  | .write, .icPrio => .stIcPrio wdata
  | .read, .icAck => .ldIcAck
  | .write, .icAck => .stIcAck wdata
  | .read, .udata => .ldUdata
  | .write, .udata => .stUdata wdata
  | .read, .ustat => .ldUstat
  | .write, .ustat => .stUstat wdata

/-- The CORE operation an operation select names (30_encoding.md R53). -/
def coreOf (off : BitVec 12) : Decoded :=
  if off = 0x000#12 then .instr .ie
  else if off = 0x004#12 then .instr .id
  else if off = 0x008#12 then .instr .iret
  else .reserved

/-- `Decode(AD)` (30_encoding.md R55) with the data word that accompanies a write; a read and a CORE
operation carry none and do not look at it. -/
def decode (ad : AdWord) (wdata : Word) : Decoded :=
  match windowOf (adRegion ad) with
  | some w =>
    match registerAt w (adOffset ad) with
    | some r => .instr (accessOf (adDir ad) r wdata)
    | none => .unmapped
  | none =>
    if adRegion ad = 7#3 ∧ adDir ad = .write then coreOf (adOffset ad) else .reserved

/-- An operation as a program holds it (30_encoding.md R61): the 16-bit word and the 32-bit data word that
accompanies a write (0 where the operation carries none, log entry 17). -/
structure OpWord where
  ad : AdWord
  wdata : Word
deriving DecidableEq, Repr

/-- The encoder: `Decode⁻¹` of 30_encoding.md R59, written from the formats of R52 and R53 and the offsets of
10_state.md R14. -/
def encode : Instr → OpWord
  | .ldClkTimer => ⟨mkAd .read .clk 0x000#12, 0#32⟩
  | .stClkTimer v => ⟨mkAd .write .clk 0x000#12, v⟩
  | .ldTctrl => ⟨mkAd .read .timer 0x000#12, 0#32⟩
  | .stTctrl v => ⟨mkAd .write .timer 0x000#12, v⟩
  | .ldTcount => ⟨mkAd .read .timer 0x004#12, 0#32⟩
  | .stTcount v => ⟨mkAd .write .timer 0x004#12, v⟩
  | .ldTload => ⟨mkAd .read .timer 0x008#12, 0#32⟩
  | .stTload v => ⟨mkAd .write .timer 0x008#12, v⟩
  | .ldTisr => ⟨mkAd .read .timer 0x00C#12, 0#32⟩
  | .stTisr v => ⟨mkAd .write .timer 0x00C#12, v⟩
  | .ldTier => ⟨mkAd .read .timer 0x010#12, 0#32⟩
  | .stTier v => ⟨mkAd .write .timer 0x010#12, v⟩
  | .ldIcMaskClr => ⟨mkAd .read .intc 0x000#12, 0#32⟩
  | .stIcMaskClr v => ⟨mkAd .write .intc 0x000#12, v⟩
  | .ldIcPrio => ⟨mkAd .read .intc 0x004#12, 0#32⟩
  | .stIcPrio v => ⟨mkAd .write .intc 0x004#12, v⟩
  | .ldIcAck => ⟨mkAd .read .intc 0x008#12, 0#32⟩
  | .stIcAck v => ⟨mkAd .write .intc 0x008#12, v⟩
  | .ldUdata => ⟨mkAd .read .uart 0x000#12, 0#32⟩
  | .stUdata v => ⟨mkAd .write .uart 0x000#12, v⟩
  | .ldUstat => ⟨mkAd .read .uart 0x004#12, 0#32⟩
  | .stUstat v => ⟨mkAd .write .uart 0x004#12, v⟩
  | .ie => ⟨mkCore 0x000#12, 0#32⟩
  | .id => ⟨mkCore 0x004#12, 0#32⟩
  | .iret => ⟨mkCore 0x008#12, 0#32⟩

/-- The operation word whose bits are `w`, of which the table gives the low `nbits`: the 16-bit word in bits
15:0 and a write's data word in bits 47:16 (log entry 17); every bit above `nbits` is 0. -/
def tableWord (nbits w : Nat) : OpWord :=
  ⟨BitVec.ofNat 16 (w % 2 ^ nbits), BitVec.ofNat 32 (w % 2 ^ nbits / 2 ^ 16)⟩

/-- The operation the decoder reads from an opcode-table word; none where the word spells none. -/
def decodeTableWord (nbits w : Nat) : Option Instr :=
  match decode (tableWord nbits w).ad (tableWord nbits w).wdata with
  | .instr i => some i
  | .unmapped => none
  | .reserved => none

end Sys2Proof
end

