-- ==== Sys2Proof/Machine/Program.lean ====
section
/-! DEFINITION. The program notation of 30_encoding.md R59 and R60 as data: the expressions a processor
computes from bound names, the lines of a program, and the call frames of a continuation (10_state.md R12,
R13, R29). What a line does is Machine/Interp.lean; the driver operations' lines are Machine/Driver.lean. -/

namespace Sys2Proof.Machine

/-- A name of the notation (`v`, `t0`, … of 10_state.md R12), numbered within its frame. Words and byte
strings have separate names. -/
abbrev Name := Nat

/-- The ring's counts in RAM (10_state.md R30). -/
inductive Count where
  | head
  | tail
  | drops
deriving DecidableEq, Repr

/-- Byte strings: of a program (41_uart_driver.md R70), bound to a name, or a part of another. -/
inductive StrExpr where
  | lit (bytes : List Byte)
  | var (n : Name)
  | snoc (s : StrExpr) (c : Name)   -- `s ++ [c]`, `c` the low byte of a bound word
  | tail (s : StrExpr)              -- all but the first byte; of no bytes, none
deriving DecidableEq, Repr

/-- Processor expressions (30_encoding.md R59): immediates, bound names and `&`, `|`, `~`, `+₃₂`, `−₃₂`,
`<<`, `>>`; `mod` for the ring's index (46_sync_wrapper.md R107); and what the processor reads without a bus
access: the ring's counts (46_sync_wrapper.md R106) and its own acceptance flag (R110). -/
inductive Expr where
  | lit (v : Word)
  | var (n : Name)
  | band (a b : Expr)
  | bor (a b : Expr)
  | bnot (a : Expr)
  | add (a b : Expr)
  | sub (a b : Expr)
  | shl (a b : Expr)
  | shr (a b : Expr)
  | mod (a b : Expr)
  | count (c : Count)
  | cpuIe
  | len (s : StrExpr)
  | first (s : StrExpr)             -- `s[0]`, zero-extended
deriving DecidableEq, Repr

/-- The conditions of `if <cond> goto` (30_encoding.md R59). -/
inductive Cond where
  | eq (a b : Expr)
  | ne (a b : Expr)
  | ult (a b : Expr)
  | ule (a b : Expr)
  | lenIs (s : StrExpr) (n : Nat)
  | noRoom (s : StrExpr) (occ : Expr)   -- `len(s) > RB_CAP − occ` (46_sync_wrapper.md R107)
  | either (a b : Cond)
  | both (a b : Cond)
  | negate (a : Cond)
deriving DecidableEq, Repr

/-- The width of a processor access (20_memory.md R41). -/
inductive Width where
  | w8
  | w16
  | w32
  | w64
deriving DecidableEq, Repr

/-- The pseudo-instructions and driver operations a line may call (30_encoding.md R60), and `main_line` of
46_sync_wrapper.md R109. `max_len` is a natural (41_uart_driver.md R71). The operand of `put_byte` is the low byte
of a word (log entry 29, DESIGN CHOICE). -/
inductive Call where
  | pollClr (ad : AdWord) (m : Word)
  | pollSet (ad : AdWord) (m : Word)
  | putByte (b : Expr)
  | getByte (dst : Name)
  | putString (s : StrExpr)
  | readLine (maxLen : Nat) (dst : Name) (n : Option Name)
  | init
  | handleInterrupt
  | ringPush (line : StrExpr)
  | ringDrain
  | csEnter (dst : Name)
  | csExit (k : Expr)
  | mainLine (s : StrExpr)
deriving DecidableEq, Repr

/-- One line of a program (30_encoding.md R59). A label is the position it stands at. -/
inductive Line where
  /-- `LD`/`ST`/`IE`/`ID`/`IRET`: an operation word, its data expression, the name that takes a read's data. -/
  | op (ad : AdWord) (val : Expr) (dst : Option Name)
  /-- A read at an address (20_memory.md R43, or `MemRead` of RAM outside the windows). -/
  | readAt (width : Width) (addr : Expr) (dst : Option Name)
  /-- A write at an address (20_memory.md R43, or `MemWrite` of RAM outside the windows). -/
  | writeAt (width : Width) (addr val : Expr)
  /-- The platform fetches an instruction at an address (20_memory.md R50). -/
  | fetchAt (addr : Expr)
  /-- `goto <label>`. -/
  | goto (n : Nat)
  /-- `if <cond> goto <label>`. -/
  | ifGoto (c : Cond) (n : Nat)
  /-- `<name> <- <expr>`. -/
  | assign (n : Name) (e : Expr)
  /-- `<name> <- <byte string>`. -/
  | assignStr (n : Name) (s : StrExpr)
  /-- One atomic write of a ring count (20_memory.md R45). -/
  | setCount (c : Count) (e : Expr)
  /-- A call of a driver operation. -/
  | call (c : Call)
  /-- `return`, with the word and the byte string it gives back. -/
  | ret (w : Option Expr) (s : Option StrExpr)
  /-- `raise Fault(F_DRIVER_ARG)` (41_uart_driver.md R71). -/
  | driverArg
deriving DecidableEq, Repr

/-- One operation in progress: its lines, the position of the next one, the names it has bound, and the
caller's names that take what it returns. -/
structure Frame where
  code : List Line
  pos : Nat
  words : List (Name × Word)
  strs : List (Name × List Byte)
  retWord : Option Name
  retStr : Option Name
deriving DecidableEq, Repr

/-- A frame that starts at the first line of `code` with nothing bound and nothing to return. -/
def Frame.start (code : List Line) : Frame := ⟨code, 0, [], [], none, none⟩

/-- The lines the trap vector leads to: `handle_interrupt`, then `IRET` (70_reset_and_hazards.md R134 (1)). -/
def glueLines : List Line := [.call .handleInterrupt, .op 0xF008#16 (.lit 0#32) none]

end Sys2Proof.Machine
end

