-- ==== Sys2Proof/Machine/State.lean ====
section
/-! DEFINITION. The state of the machine as plain data: every element of 10_state.md R14 to R32, the
parameters of 00_scope.md R7, the processor's continuation, and the model's own bookkeeping; the reasons a
step can stop; and the state after reset (10_state.md R36). -/

namespace Sys2Proof.Machine

/-- The twelve faults of 60_exceptions.md R113, in the order of their codes. Each is the model's stop where
the source gives the hardware no meaning (R112), so each is safe: no claim goes past it. A meaning puts the
fault into `State.fault`; a step from a state that holds one answers it (R114, log entry 1). -/
inductive Fault where
  /-- `F_WIDTH`: a processor access of another width than 32 to a window (20_memory.md R41). Safe. -/
  | width
  /-- `F_MISALIGNED`: a 32-bit access to a window at an address not a multiple of 4 (20_memory.md R42). Safe. -/
  | misaligned
  /-- `F_UNMAPPED`: an access at an offset that names no register (30_encoding.md R55). Safe. -/
  | unmapped
  /-- `F_WO_READ`: `LD IC_MASK_CLR`, `LD IC_ACK` (30_encoding.md R56). Safe. -/
  | woRead
  /-- `F_RO_WRITE`: `ST USTAT` (30_encoding.md R57). Safe. -/
  | roWrite
  /-- `F_UNGATED`: a TIMER-window access with the clock gate off (10_state.md R15). Safe. -/
  | ungated
  /-- `F_TX_OVERFLOW`: `ST UDATA` with the transmit FIFO full (40_uart.md R63). Safe. -/
  | txOverflow
  /-- `F_RX_UNDERFLOW`: `LD UDATA` with the receive FIFO empty (40_uart.md R62). Safe. -/
  | rxUnderflow
  /-- `F_UNROUTED`: a delivery before `IC_PRIO` was ever written (60_exceptions.md R117). Safe. -/
  | unrouted
  /-- `F_IRET_OUTSIDE`: `IRET` in normal context (45_core_ops.md R103). Safe. -/
  | iretOutside
  /-- `F_DRIVER_ARG`: `read_line(0)` (41_uart_driver.md R71). Safe. -/
  | driverArg
  /-- `F_FETCH`: an instruction fetch from a window (20_memory.md R50). Safe. -/
  | fetch
deriving DecidableEq, Repr

/-- The code of a fault (60_exceptions.md R113). -/
def Fault.code : Fault → Nat
  | .width => 1
  | .misaligned => 2
  | .unmapped => 3
  | .woRead => 4
  | .roWrite => 5
  | .ungated => 6
  | .txOverflow => 7
  | .rxUnderflow => 8
  | .unrouted => 9
  | .iretOutside => 10
  | .driverArg => 11
  | .fetch => 12

/-- Operations with no meaning in the spec (00_scope.md R10). -/
inductive Refusal where
  /-- An instruction whose meaning is not written yet; raised by exec's arms only (no arm raises it now).
  Safe: nothing is claimed of it. -/
  | notModelled (mnemonic : String)
  /-- A word with `RGN` 100 to 110, or a CORE word other than `IE`, `ID`, `IRET`; raised by the step that
  would run it (30_encoding.md R53, R55). Safe. -/
  | reservedWord
  /-- A 16-, 32- or 64-bit access outside the four windows; raised by the access (20_memory.md R39 gives RAM
  byte accesses only). Safe. -/
  | ramWidth
deriving DecidableEq, Repr

/-- The context now executing (10_state.md R29). -/
inductive Ctx where
  | normal
  | handler
deriving DecidableEq, Repr

/-- The events of the trace (10_state.md R31). -/
inductive Event where
  | acc (ctx : Ctx) (ad : AdWord) (data : Word)
  | evt
  | deliver
  | iret
  | tx (b : Byte)
  | rx (b : Byte)
  | rxDrop (b : Byte)
deriving DecidableEq, Repr

/-- What a fault records beside its code: "the faulting AD or operation and, for a write, its `wdata`"
(60_exceptions.md R113). -/
inductive Culprit where
  /-- A bus access with its descriptor, and a write's data word. -/
  | access (ad : AdWord) (wdata : Option Word)
  /-- An access stopped before its descriptor was formed (20_memory.md R43). -/
  | address (dir : Dir) (width : Width) (addr : Word) (wdata : Option Word)
  /-- A CORE operation. -/
  | core (ad : AdWord)
  /-- The delivery step. -/
  | delivery
  /-- `read_line`. -/
  | readLine
  /-- The platform's instruction fetch. -/
  | fetch (addr : Word)
deriving DecidableEq, Repr

/-- The content of `s.fault` (10_state.md R32, 60_exceptions.md R113). -/
structure FaultRecord where
  fault : Fault
  culprit : Culprit
deriving DecidableEq, Repr

/-- Ordinary RAM: (address, byte) cells, addresses strictly rising, no cell equal to what an unlisted address
reads as (Machine/Memory.lean). -/
abbrev Memory := List Host.Cell

/-- The machine. Every element of 10_state.md is here; `cfg`, `rdata`, `schedule`, `choices` and `draws` are
the model's own (INVENTORY.md). -/
structure State where
  /-- The parameters (00_scope.md R7); no step writes them. -/
  cfg : Config
  /-- `CLK_TIMER.EN` (10_state.md R15). -/
  clkEn : Bool
  /-- `TCTRL.ST` (10_state.md R16). -/
  tSt : Bool
  /-- `TCTRL.AR` (10_state.md R16). -/
  tAr : Bool
  /-- `TCOUNT` (10_state.md R17). -/
  tCount : Word
  /-- `TLOAD` (10_state.md R18). -/
  tLoad : Word
  /-- `TISR.OVF` (10_state.md R19). -/
  tOvf : Bool
  /-- `TIER.OVF_IE` (10_state.md R20). -/
  tIe : Bool
  /-- The controller's mask (10_state.md R21, R26). -/
  icMasked : Bool
  /-- `IC_PRIO.PRIO`, in the low `PRIO_BITS` bits (10_state.md R22). -/
  icPrio : Word
  /-- `IC_PRIO` has been written since reset (10_state.md R22, R26). -/
  icPrioValid : Bool
  /-- An interrupt is in service (10_state.md R26). -/
  icActive : Bool
  /-- The re-arm latch (10_state.md R26). -/
  icRearm : Bool
  /-- The transmit FIFO, oldest byte first (10_state.md R27). -/
  txFifo : List Byte
  /-- The receive FIFO, oldest byte first (10_state.md R27). -/
  rxFifo : List Byte
  /-- What the host has yet to send, oldest first (10_state.md R28). -/
  rxScript : List Byte
  /-- What has left the transmitter, in order (10_state.md R28). -/
  txOut : List Byte
  /-- The processor accepts interrupts (10_state.md R29). -/
  cpuIe : Bool
  /-- The context now executing (10_state.md R29). -/
  ctx : Ctx
  /-- The continuation now executing, innermost operation first (10_state.md R12, R13). -/
  cont : List Frame
  /-- The interrupted normal-context continuation (10_state.md R29). -/
  saved : Option (List Frame)
  /-- The lines the trap vector leads to (70_reset_and_hazards.md R134 (1)); no step writes them. -/
  isr : List Line
  /-- The data word of the processor's last read (30_encoding.md R52). -/
  rdata : Word
  /-- Ordinary RAM, the ring's bytes among it (20_memory.md R39). -/
  mem : Memory
  /-- Bytes ever appended to the ring (10_state.md R30). -/
  rbHead : Word
  /-- Bytes ever removed from the ring (10_state.md R30). -/
  rbTail : Word
  /-- Diagnostic lines dropped (10_state.md R30). -/
  rbDrops : Word
  /-- The events so far, oldest first (10_state.md R31). -/
  trace : List Event
  /-- The fault that ended the run (10_state.md R32). -/
  fault : Option FaultRecord
  /-- Who moves at the coming steps; the model's own (log entry 2). -/
  schedule : List Agent
  /-- Free choices of an agent made so far; the model's own (log entry 2). -/
  choices : Nat
  /-- Free values taken so far: the spec's `draw`s, and a line that met a value no rule states; the model's own
  (log entries 8 and 13). -/
  draws : Nat
deriving DecidableEq, Repr

/-- The state after a hardware reset under a configuration (10_state.md R36, 70_reset_and_hazards.md R132).
Where R36 says "unspecified" the value is the model's (log entries 5 and 6). -/
def State.resetWith (c : Config) : State where
  cfg := c
  clkEn := false
  tSt := false
  tAr := false
  tCount := 0#32
  tLoad := 0#32
  tOvf := false
  tIe := false
  icMasked := true
  icPrio := 0#32
  icPrioValid := false
  icActive := false
  icRearm := false
  txFifo := []
  rxFifo := []
  rxScript := []
  txOut := []
  cpuIe := false
  ctx := .normal
  cont := []
  saved := none
  isr := glueLines
  rdata := 0#32
  mem := []
  rbHead := 0#32
  rbTail := 0#32
  rbDrops := 0#32
  trace := []
  fault := none
  schedule := []
  choices := 0
  draws := 0

/-- The state after reset, under the configuration of the test vectors (log entry 4). -/
def State.reset : State := State.resetWith Config.vectors

end Sys2Proof.Machine
end

