-- ==== Sys2Proof/Machine/Operands.lean ====
section
/-! DEFINITION. Operand and field assembly (30_encoding.md R54, 10_state.md R14 to R25): the bits of a data
word a register takes, the data word a register gives, and the window an address lies in. -/

namespace Sys2Proof.Machine

/-- A one-bit field at bit 0, zero-extended (00_scope.md R8). -/
def zextBit (b : Bool) : Word := if b then 1#32 else 0#32

/-- `val[0]`. -/
def bit0 (v : Word) : Bool := v.getLsbD 0

/-- `val[1]`. -/
def bit1 (v : Word) : Bool := v.getLsbD 1

/-- `val[7:0]` (10_state.md R24). -/
def lowByte (v : Word) : Byte := v.setWidth 8

/-- `zext_32` of a byte. -/
def zextByte (b : Byte) : Word := b.setWidth 32

/-- `val[PRIO_BITS−1:0]`, the bits above reading 0 (10_state.md R22). -/
def prioField (c : Config) (v : Word) : Word := BitVec.ofNat 32 (v.toNat % 2 ^ c.prioBits)

/-- `UDATA`'s read data: the byte in bits 7:0 under 24 drawn bits (40_uart.md R62). -/
def udataWord (upper : BitVec 24) (b : Byte) : Word := upper ++ b

/-- `TCTRL`'s read data: `ST` at bit 0, `AR` at bit 1 (10_state.md R16). -/
def tctrlWord (ar st : Bool) : Word := zextBit ar <<< 1 ||| zextBit st

/-- An address lies in a window (20_memory.md R38). -/
def inWindow (c : Config) (w : Window) (a : Word) : Bool :=
  decide ((c.base w).toNat ≤ a.toNat) && decide (a.toNat < (c.base w).toNat + 0x1000)

/-- The window an address lies in (20_memory.md R38); at most one, the windows being disjoint. -/
def windowAt (c : Config) (a : Word) : Option Window :=
  if inWindow c .clk a then some .clk
  else if inWindow c .timer a then some .timer
  else if inWindow c .intc a then some .intc
  else if inWindow c .uart a then some .uart
  else none

/-- The descriptor of an access at an address of a window (20_memory.md R43). -/
def adAt (c : Config) (d : Dir) (w : Window) (a : Word) : AdWord := mkAd d w ((a - c.base w).setWidth 12)

/-- The address a descriptor's access goes to, `BASE_w + zext_32(OFF)` (30_encoding.md R54). -/
def addressOf (c : Config) (w : Window) (off : BitVec 12) : Word := c.base w + off.setWidth 32

/-- The address in RAM of the ring's byte at count `i`: slot `i mod RB_CAP` (10_state.md R30). -/
def ringAddr (c : Config) (i : Word) : Word := c.rbBase + BitVec.ofNat 32 (i.toNat % c.rbCap)

end Sys2Proof.Machine
end

