-- ==== Sys2Proof/Machine/Flags.lean ====
section
/-! DEFINITION. The derived signals and flags (10_state.md R25, R33, R34; 60_exceptions.md R117): none is
state, each is computed from State when it is read. -/

namespace Sys2Proof.Machine

/-- `USTAT.TXFF`: the transmit FIFO is full (10_state.md R25). -/
def State.txff (s : State) : Bool := s.txFifo.length == s.cfg.txDepth

/-- `USTAT.RXFE`: the receive FIFO is empty. -/
def State.rxfe (s : State) : Bool := s.rxFifo.length == 0

/-- `USTAT.TXFE`: the transmit FIFO is empty. -/
def State.txfe (s : State) : Bool := s.txFifo.length == 0

/-- `USTAT.RXNE`: the receive FIFO is not empty. -/
def State.rxne (s : State) : Bool := decide (s.rxFifo.length > 0)

/-- The data word of a read of `USTAT` (40_uart.md R64). -/
def State.ustat (s : State) : Word :=
  zextBit s.rxne <<< 3 ||| zextBit s.txfe <<< 2 ||| zextBit s.rxfe <<< 1 ||| zextBit s.txff

/-- The timer's line into the controller, a level (10_state.md R33). -/
def State.line (s : State) : Bool := s.tOvf && s.tIe

/-- The controller's request to the processor (10_state.md R34). -/
def State.pending (s : State) : Bool := (s.line || s.icRearm) && !s.icMasked && !s.icActive

/-- The delivery step is enabled, in a state without a fault (60_exceptions.md R117, R119). -/
def State.deliverable (s : State) : Bool := decide (s.ctx = .normal) && s.cpuIe && s.pending

end Sys2Proof.Machine
end

