-- ==== Sys2Proof/Machine/Memory.lean ====
section
/-! DEFINITION. Ordinary RAM (20_memory.md R37, R39) as a canonical list of cells: reading and writing one
byte. The spec gives RAM no reset value (10_state.md R30); an unlisted address reads as `ramReset` (log
entry 6). -/

namespace Sys2Proof.Machine

/-- What an unlisted address reads as (log entry 6: DESIGN CHOICE). -/
def ramReset : Byte := 0#8

/-- The byte at an address. -/
def Memory.read (m : Memory) (a : Nat) : Byte :=
  match m with
  | [] => ramReset
  | (k, b) :: rest => if k = a then b else Memory.read rest a

/-- The cell for a byte at an address in front of `rest`: none where the byte is what an unlisted one is. -/
def Memory.cell (a : Nat) (v : Byte) (rest : Memory) : Memory :=
  if v = ramReset then rest else (a, v) :: rest

/-- The memory with the byte `v` at address `a`. -/
def Memory.write (m : Memory) (a : Nat) (v : Byte) : Memory :=
  match m with
  | [] => Memory.cell a v []
  | (k, b) :: rest =>
    if a < k then Memory.cell a v ((k, b) :: rest)
    else if a = k then Memory.cell a v rest
    else (k, b) :: Memory.write rest a v

/-- Every listed address is above `a`. -/
def Memory.above (a : Nat) (m : Memory) : Bool := m.all fun c => decide (a < c.1)

/-- The canonical form: addresses strictly rising, and no cell equal to what an unlisted address reads as. -/
def Memory.wf (m : Memory) : Bool :=
  match m with
  | [] => true
  | (k, b) :: rest => decide (b ≠ ramReset) && Memory.above k rest && Memory.wf rest

end Sys2Proof.Machine
end

