-- ==== Sys2Proof/Machine/Ops.lean ====
section
/-! DEFINITION. The named operations the meanings share: ending an access, raising a fault, the clock gate,
taking the interrupt and returning from it, RAM bytes, and the names of the running operation. -/

namespace Sys2Proof.Machine

/-- One step's outcome over this machine. -/
abbrev Result := Host.Outcome State Fault Refusal

/-- `emit(e)` (00_scope.md R9). -/
def State.emit (s : State) (e : Event) : State := { s with trace := s.trace ++ [e] }

/-- `raise Fault(code)` (00_scope.md R9, 60_exceptions.md R113): the state holds the fault and what raised it,
and nothing else changes (20_memory.md R43). The next step answers the fault (log entry 1). -/
def State.raise (s : State) (f : Fault) (c : Culprit) : State := { s with fault := some ⟨f, c⟩ }

/-- The end of an admitted read: its data word reaches the processor and the trace (20_memory.md R43). -/
def State.readDone (s : State) (ad : AdWord) (v : Word) : State :=
  { s with rdata := v, trace := s.trace ++ [.acc s.ctx ad v] }

/-- The end of an admitted write: the access with its data word is in the trace (20_memory.md R43). -/
def State.writeDone (s : State) (ad : AdWord) (wdata : Word) : State :=
  { s with trace := s.trace ++ [.acc s.ctx ad wdata] }

/-- The clock gate's check of a TIMER-window access (10_state.md R15, 20_memory.md R43): `t` with the gate on,
`F_UNGATED` with it off. -/
def gated (ad : AdWord) (wdata : Option Word) (t s : State) : Result :=
  .next (if s.clkEn then t else s.raise .ungated (.access ad wdata))

/-- TAKING THE INTERRUPT (60_exceptions.md R117, R118): the delivery step in a state where it is enabled. It
faults where `IC_PRIO` was never written; else the controller is in service, the continuation is saved, the
context is the handler's and control is at the code the trap vector leads to. -/
def State.takeInterrupt (s : State) : State :=
  if s.icPrioValid then
    ({ s with
      icActive := true
      icRearm := false
      saved := some s.cont
      cont := [Frame.start s.isr]
      ctx := .handler }).emit .deliver
  else s.raise .unrouted .delivery

/-- RETURNING FROM IT (45_core_ops.md R103, 60_exceptions.md R120): normal context at the saved continuation,
nothing of the block restored. In normal context it is the fault `F_IRET_OUTSIDE`. A handler context holds a
saved continuation; were there none, nothing would be left to run (log entry 20). -/
def State.returnFromInterrupt (s : State) : State :=
  match s.ctx with
  | .normal => s.raise .iretOutside (.core 0xF008#16)
  | .handler =>
    ({ s with ctx := .normal, cont := s.saved.getD [], saved := none }).emit .iret

/-- One byte of RAM (00_scope.md R9, `MemRead(addr, 1)`). -/
def State.readByte (s : State) (a : Word) : Byte := Memory.read s.mem a.toNat

/-- `MemWrite(addr, 1, v)` (00_scope.md R9). -/
def State.writeByte (s : State) (a : Word) (v : Byte) : State := { s with mem := Memory.write s.mem a.toNat v }

/-- The ring's byte at count `i`, `s.rb_buf[i mod RB_CAP]` (10_state.md R30). -/
def State.rbByte (s : State) (i : Word) : Byte := s.readByte (ringAddr s.cfg i)

/-- Occupancy of the ring, `rb_head −₃₂ rb_tail` (10_state.md R30). -/
def State.rbOcc (s : State) : Word := s.rbHead - s.rbTail

/-- A ring count (10_state.md R30), read whole. -/
def State.getCount (s : State) : Count → Word
  | .head => s.rbHead
  | .tail => s.rbTail
  | .drops => s.rbDrops

/-- A ring count written whole (20_memory.md R45). -/
def State.putCount (s : State) (c : Count) (v : Word) : State :=
  match c with
  | .head => { s with rbHead := v }
  | .tail => { s with rbTail := v }
  | .drops => { s with rbDrops := v }

/-- The counter of free values moved on, where a line took one (log entry 13). -/
def State.took (s : State) (free : Bool) : State := { s with draws := s.draws + free.toNat }

/-- The bindings with a name bound anew; a name's value is the one `List.lookup` finds. -/
def bindName {α : Type} (n : Name) (v : α) (l : List (Name × α)) : List (Name × α) :=
  (n, v) :: l.filter fun p => decide (p.1 ≠ n)

/-- A word bound in the running operation's frame (30_encoding.md R59). -/
def State.bindWord (s : State) (n : Name) (v : Word) : State :=
  match s.cont with
  | [] => s
  | f :: fs => { s with cont := { f with words := bindName n v f.words } :: fs }

/-- A byte string bound in the running operation's frame. -/
def State.bindStr (s : State) (n : Name) (v : List Byte) : State :=
  match s.cont with
  | [] => s
  | f :: fs => { s with cont := { f with strs := bindName n v f.strs } :: fs }

/-- A word bound to a name where one is given. -/
def State.bindWord? (s : State) (n : Option Name) (v : Word) : State :=
  match n with
  | none => s
  | some n => s.bindWord n v

/-- A byte string bound to a name where one is given. -/
def State.bindStr? (s : State) (n : Option Name) (v : List Byte) : State :=
  match n with
  | none => s
  | some n => s.bindStr n v

/-- `goto`: the running operation's next line is line `n`. -/
def State.jump (s : State) (n : Nat) : State :=
  match s.cont with
  | [] => s
  | f :: fs => { s with cont := { f with pos := n } :: fs }

/-- The call of an operation: its frame on top of the continuation. -/
def State.push (s : State) (f : Frame) : State := { s with cont := f :: s.cont }

/-- The return of the running operation: its frame goes, and what it gives back is bound to the names the
caller gave. -/
def State.pop (s : State) (w : Option Word) (b : Option (List Byte)) : State :=
  match s.cont with
  | [] => s
  | f :: fs =>
    let t := { s with cont := fs }
    let t := match w with | none => t | some w => t.bindWord? f.retWord w
    match b with | none => t | some b => t.bindStr? f.retStr b

end Sys2Proof.Machine
end

