-- ==== Sys2Proof/Machine/ClockTimer.lean ====
section
/-! DEFINITION. The clock gate and the timer: the accesses of 42_timer.md R73 to R84 and the tick of R85. -/

namespace Sys2Proof.Machine

/-- `LD CLK_TIMER` (42_timer.md R73). -/
def execLdClkTimer (s : State) : Result := .next (s.readDone 0x3000#16 (zextBit s.clkEn))

/-- `ST CLK_TIMER` (42_timer.md R74). -/
def execStClkTimer (val : Word) (s : State) : Result :=
  .next ({ s with clkEn := bit0 val }.writeDone 0xB000#16 val)

/-- `LD TCTRL` (42_timer.md R75). -/
def execLdTctrl (s : State) : Result := gated 0x0000#16 none (s.readDone 0x0000#16 (tctrlWord s.tAr s.tSt)) s

/-- `ST TCTRL` (42_timer.md R76). -/
def execStTctrl (val : Word) (s : State) : Result :=
  gated 0x8000#16 (some val) ({ s with tSt := bit0 val, tAr := bit1 val }.writeDone 0x8000#16 val) s

/-- `LD TCOUNT` (42_timer.md R77). -/
def execLdTcount (s : State) : Result := gated 0x0004#16 none (s.readDone 0x0004#16 s.tCount) s

/-- `ST TCOUNT` (42_timer.md R78). -/
def execStTcount (val : Word) (s : State) : Result :=
  gated 0x8004#16 (some val) ({ s with tCount := val }.writeDone 0x8004#16 val) s

/-- `LD TLOAD` (42_timer.md R79). -/
def execLdTload (s : State) : Result := gated 0x0008#16 none (s.readDone 0x0008#16 s.tLoad) s

/-- `ST TLOAD` (42_timer.md R80). -/
def execStTload (val : Word) (s : State) : Result :=
  gated 0x8008#16 (some val) ({ s with tLoad := val }.writeDone 0x8008#16 val) s

/-- `LD TISR` (42_timer.md R81). -/
def execLdTisr (s : State) : Result := gated 0x000C#16 none (s.readDone 0x000C#16 (zextBit s.tOvf)) s

/-- `ST TISR`, write 1 to clear (42_timer.md R82). -/
def execStTisr (val : Word) (s : State) : Result :=
  gated 0x800C#16 (some val)
    ({ s with tOvf := if bit0 val then false else s.tOvf }.writeDone 0x800C#16 val) s

/-- `LD TIER` (42_timer.md R83). -/
def execLdTier (s : State) : Result := gated 0x0010#16 none (s.readDone 0x0010#16 (zextBit s.tIe)) s

/-- `ST TIER` (42_timer.md R84). -/
def execStTier (val : Word) (s : State) : Result :=
  gated 0x8010#16 (some val) ({ s with tIe := bit0 val }.writeDone 0x8010#16 val) s

/-- The tick agent is enabled (42_timer.md R85). -/
def State.tickEnabled (s : State) : Bool := s.clkEn && s.tSt

/-- The count at which the next tick completes a period (42_timer.md R85). -/
def lastCount : TimerDir → Word
  | .down => 1#32
  | .up => 0xFFFFFFFF#32

/-- The count after a tick that completes no period (42_timer.md R85). -/
def countOn : TimerDir → Word → Word
  | .down, c => c - 1#32
  | .up, c => c + 1#32

/-- One tick of the counter (42_timer.md R85), whatever `OVF_IE` holds. -/
def State.tick (s : State) : State :=
  if s.tCount = lastCount s.cfg.timerDir then
    if s.tAr then ({ s with tOvf := true, tCount := s.tLoad }).emit .evt
    else ({ s with tOvf := true, tCount := 0#32, tSt := false }).emit .evt
  else { s with tCount := countOn s.cfg.timerDir s.tCount }

end Sys2Proof.Machine
end

