-- ==== Sys2Proof/Machine/Glue.lean ====
section
/-! DEFINITION. The three processor-side operations of the glue (45_core_ops.md R101 to R103). -/

namespace Sys2Proof.Machine

/-- `IE` (45_core_ops.md R101). -/
def execIe (s : State) : Result := .next { s with cpuIe := true }

/-- `ID` (45_core_ops.md R102). -/
def execId (s : State) : Result := .next { s with cpuIe := false }

/-- `IRET` (45_core_ops.md R103). -/
def execIret (s : State) : Result := .next s.returnFromInterrupt

end Sys2Proof.Machine
end

