-- ==== Sys2Proof/Machine/Intc.lean ====
section
/-! DEFINITION. The interrupt controller's accesses (43_intc.md R89 to R92) and the reads its write-only
registers fault on (30_encoding.md R56). -/

namespace Sys2Proof.Machine

/-- `LD IC_MASK_CLR`: the fault `F_WO_READ` (30_encoding.md R56). -/
def execLdIcMaskClr (s : State) : Result := .next (s.raise .woRead (.access 0x1000#16 none))

/-- `ST IC_MASK_CLR` (43_intc.md R89). -/
def execStIcMaskClr (val : Word) (s : State) : Result :=
  .next ({ s with icMasked := if bit0 val then false else s.icMasked }.writeDone 0x9000#16 val)

/-- `LD IC_PRIO` (43_intc.md R90). -/
def execLdIcPrio (s : State) : Result := .next (s.readDone 0x1004#16 (prioField s.cfg s.icPrio))

/-- `ST IC_PRIO` (43_intc.md R91). -/
def execStIcPrio (val : Word) (s : State) : Result :=
  .next ({ s with icPrio := prioField s.cfg val, icPrioValid := true }.writeDone 0x9004#16 val)

/-- `LD IC_ACK`: the fault `F_WO_READ` (30_encoding.md R56). -/
def execLdIcAck (s : State) : Result := .next (s.raise .woRead (.access 0x1008#16 none))

/-- The controller's side of an acknowledge (43_intc.md R92): with an interrupt in service it ends it, and
where the line is still high the re-arm latch takes a free value. -/
def State.acknowledge (s : State) : State :=
  if s.icActive then
    if s.line then
      { s with icActive := false, icRearm := Config.drawRearm s.draws, draws := s.draws + 1 }
    else { s with icActive := false }
  else s

/-- `ST IC_ACK` (43_intc.md R92). -/
def execStIcAck (val : Word) (s : State) : Result := .next (s.acknowledge.writeDone 0x9008#16 val)

end Sys2Proof.Machine
end

