-- ==== Sys2Proof/Machine/Uart.lean ====
section
/-! DEFINITION. The UART: the accesses of 40_uart.md R62 to R64, the write its read-only register faults on
(30_encoding.md R57), and the two line agents (40_uart.md R65, R66). -/

namespace Sys2Proof.Machine

/-- `LD UDATA` (40_uart.md R62): the oldest byte leaves the receive FIFO under 24 drawn bits. -/
def execLdUdata (s : State) : Result :=
  match s.rxFifo with
  | [] => .next (s.raise .rxUnderflow (.access 0x2000#16 none))
  | b :: rest =>
    .next (({ s with rxFifo := rest, draws := s.draws + 1 }).readDone 0x2000#16
      (udataWord (Config.drawUpper s.draws) b))

/-- `ST UDATA` (40_uart.md R63). -/
def execStUdata (val : Word) (s : State) : Result :=
  if s.txff then .next (s.raise .txOverflow (.access 0xA000#16 (some val)))
  else .next (({ s with txFifo := s.txFifo ++ [lowByte val] }).writeDone 0xA000#16 val)

/-- `LD USTAT` (40_uart.md R64). -/
def execLdUstat (s : State) : Result := .next (s.readDone 0x2004#16 s.ustat)

/-- `ST USTAT`: the fault `F_RO_WRITE` (30_encoding.md R57). -/
def execStUstat (val : Word) (s : State) : Result := .next (s.raise .roWrite (.access 0xA004#16 (some val)))

/-- The TX-drain agent is enabled (40_uart.md R65). -/
def State.drainEnabled (s : State) : Bool := decide (s.txFifo.length > 0)

/-- One step of the TX-drain agent (40_uart.md R65). -/
def State.drain (s : State) : State :=
  match s.txFifo with
  | [] => s
  | b :: rest => ({ s with txFifo := rest, txOut := s.txOut ++ [b] }).emit (.tx b)

/-- The RX-arrival agent is enabled (40_uart.md R66). -/
def State.arrivalEnabled (s : State) : Bool :=
  decide (s.rxScript.length > 0)
    && (match s.cfg.rxOverrun with
      | .dropNew => true
      | .hold => decide (s.rxFifo.length < s.cfg.rxDepth))

/-- One step of the RX-arrival agent (40_uart.md R66). -/
def State.arrive (s : State) : State :=
  match s.rxScript with
  | [] => s
  | b :: rest =>
    if s.rxFifo.length < s.cfg.rxDepth then
      ({ s with rxScript := rest, rxFifo := s.rxFifo ++ [b] }).emit (.rx b)
    else ({ s with rxScript := rest }).emit (.rxDrop b)

end Sys2Proof.Machine
end

