-- ==== Sys2Proof/Machine/Dispatch.lean ====
section
/-! DEFINITION. One arm per operation. -/

namespace Sys2Proof.Machine

def exec (i : Instr) (s : State) : Host.Outcome State Fault Refusal :=
  match i with
  | .ldClkTimer => Sys2Proof.Machine.execLdClkTimer s
  | .stClkTimer val => Sys2Proof.Machine.execStClkTimer val s
  | .ldTctrl => Sys2Proof.Machine.execLdTctrl s
  | .stTctrl val => Sys2Proof.Machine.execStTctrl val s
  | .ldTcount => Sys2Proof.Machine.execLdTcount s
  | .stTcount val => Sys2Proof.Machine.execStTcount val s
  | .ldTload => Sys2Proof.Machine.execLdTload s
  | .stTload val => Sys2Proof.Machine.execStTload val s
  | .ldTisr => Sys2Proof.Machine.execLdTisr s
  | .stTisr val => Sys2Proof.Machine.execStTisr val s
  | .ldTier => Sys2Proof.Machine.execLdTier s
  | .stTier val => Sys2Proof.Machine.execStTier val s
  | .ldIcMaskClr => Sys2Proof.Machine.execLdIcMaskClr s
  | .stIcMaskClr val => Sys2Proof.Machine.execStIcMaskClr val s
  | .ldIcPrio => Sys2Proof.Machine.execLdIcPrio s
  | .stIcPrio val => Sys2Proof.Machine.execStIcPrio val s
  | .ldIcAck => Sys2Proof.Machine.execLdIcAck s
  | .stIcAck val => Sys2Proof.Machine.execStIcAck val s
  | .ldUdata => Sys2Proof.Machine.execLdUdata s
  | .stUdata val => Sys2Proof.Machine.execStUdata val s
  | .ldUstat => Sys2Proof.Machine.execLdUstat s
  | .stUstat val => Sys2Proof.Machine.execStUstat val s
  | .ie => Sys2Proof.Machine.execIe s
  | .id => Sys2Proof.Machine.execId s
  | .iret => Sys2Proof.Machine.execIret s

end Sys2Proof.Machine
end

