-- ==== Sys2Proof/Machine/Driver.lean ====
section
/-! DEFINITION. The driver operations as program lines: the expansions of 30_encoding.md R60,
41_uart_driver.md R68 to R71, 44_timer_driver.md R96, R98, R99, 46_sync_wrapper.md R107 to R110 and
70_reset_and_hazards.md R134, in the notation of 30_encoding.md R59. A goto names the position of a line. -/

namespace Sys2Proof.Machine

/-- `P` of 44_timer_driver.md R96: `floor(F × T) mod 2^32` for the period `num / den` seconds. -/
def periodTicks (f num den : Nat) : Nat := f * num / den % 2 ^ 32

/-- `reload(F, T)` (44_timer_driver.md R96). -/
def reload (dir : TimerDir) (f num den : Nat) : Word :=
  match dir with
  | .down => BitVec.ofNat 32 (periodTicks f num den)
  | .up => BitVec.ofNat 32 ((2 ^ 32 - periodTicks f num den) % 2 ^ 32)

/-- `R` of 44_timer_driver.md R98. -/
def reloadValue (c : Config) : Word := reload c.timerDir c.clockHz c.periodNum c.periodDen

/-- Names of the word values the expansions bind. -/
def nV : Name := 0
/-- The byte operand of `put_byte`. -/
def nB : Name := 1
/-- The byte a driver operation received. -/
def nC : Name := 2
/-- The data word of `get_byte`'s read. -/
def nD : Name := 3
/-- The producer's count that `ring_drain` read. -/
def nH : Name := 4
/-- The index of `ring_push`. -/
def nI : Name := 5
/-- The occupancy that `ring_push` computed. -/
def nOcc : Name := 6
/-- The saved acceptance flag of a critical section. -/
def nK : Name := 7
/-- The byte string an operation sends or pushes. -/
def nS : Name := 0
/-- The part of it still to go, or the buffer of `read_line`. -/
def nRest : Name := 1

/-- A line `LD <REG> -> <name>`, by the register's read descriptor. -/
def ldLine (ad : AdWord) (n : Name) : Line := .op ad (.lit 0#32) (some n)

/-- A line `ST <REG>, <val>`, by the register's write descriptor. -/
def stLine (ad : AdWord) (e : Expr) : Line := .op ad e none

/-- A line `ST <REG>, #<val>`. -/
def stImm (ad : AdWord) (v : Word) : Line := stLine ad (.lit v)

/-- `IE` (45_core_ops.md R101). -/
def ieLine : Line := stImm 0xF000#16 0#32

/-- `ID` (45_core_ops.md R102). -/
def idLine : Line := stImm 0xF004#16 0#32

/-- `IRET` (45_core_ops.md R103). -/
def iretLine : Line := stImm 0xF008#16 0#32

/-- `W1C <REG>, #m` (30_encoding.md R60). -/
def w1cLine (ad : AdWord) (m : Word) : Line := stImm ad m

/-- The condition `(v & m) ≠ 0` of the polls. -/
def maskSet (m : Word) : Cond := .ne (.band (.var nV) (.lit m)) (.lit 0#32)

/-- The condition `(v & m) = 0` of the polls. -/
def maskClear (m : Word) : Cond := .eq (.band (.var nV) (.lit m)) (.lit 0#32)

/-- `POLLCLR <REG>, #m` (30_encoding.md R60). -/
def pollClrLines (ad : AdWord) (m : Word) : List Line := [ldLine ad nV, .ifGoto (maskSet m) 0]

/-- `POLLSET <REG>, #m` (30_encoding.md R60). -/
def pollSetLines (ad : AdWord) (m : Word) : List Line := [ldLine ad nV, .ifGoto (maskClear m) 0]

/-- `put_byte(b)` (41_uart_driver.md R68). -/
def putByteLines : List Line :=
  [ldLine 0x2004#16 nV,
   .ifGoto (maskSet 0x1#32) 0,
   stLine 0xA000#16 (.var nB)]

/-- `get_byte() -> c` (41_uart_driver.md R69). -/
def getByteLines : List Line :=
  [ldLine 0x2004#16 nV,
   .ifGoto (maskSet 0x2#32) 0,
   ldLine 0x2000#16 nD,
   .assign nC (.band (.var nD) (.lit 0xFF#32)),
   .ret (some (.var nC)) none]

/-- `put_string(s)` (41_uart_driver.md R70). -/
def putStringLines : List Line :=
  [.ifGoto (.lenIs (.var nS) 0) 4,
   .call (.putByte (.first (.var nS))),
   .assignStr nS (.tail (.var nS)),
   .goto 0]

/-- `read_line(max_len) -> (buf, n)` (41_uart_driver.md R71). -/
def readLineLines (c : Config) (maxLen : Nat) : List Line :=
  if maxLen = 0 then [.driverArg]
  else
    [.assignStr nRest (.lit []),
     .ifGoto (.lenIs (.var nRest) (maxLen - 1)) 8,
     .call (.getByte nC),
     .ifGoto (.either (.eq (.var nC) (.lit 0x0A#32)) (.eq (.var nC) (.lit 0x0D#32))) 7,
     .call (.putByte (.var nC)),
     .assignStr nRest (.snoc (.var nRest) nC),
     .goto 1,
     .call (.putString (.lit c.echoNl)),
     .ret (some (.len (.var nRest))) (some (.var nRest))]

/-- `init()` (44_timer_driver.md R98): the nine accesses in their order. -/
def initLines (c : Config) : List Line :=
  [stImm 0xB000#16 0x1#32,
   stImm 0x9000#16 0x1#32,
   stImm 0x9004#16 (BitVec.ofNat 32 c.prioValue),
   stImm 0x8000#16 0x0#32,
   stImm 0x800C#16 0xFFFFFFFF#32,
   stImm 0x8008#16 (reloadValue c),
   stImm 0x8004#16 (reloadValue c),
   stImm 0x8010#16 0x1#32,
   stImm 0x8000#16 0x3#32]

/-- Step (c) of the handler (44_timer_driver.md R99, 46_sync_wrapper.md R104). -/
def payloadLine (c : Config) : Line :=
  match c.isrOutput with
  | .direct => .call (.putString (.lit c.diagLine))
  | .ring => .call (.ringPush (.lit c.diagLine))

/-- `handle_interrupt()` (44_timer_driver.md R99). -/
def handlerLines (c : Config) : List Line :=
  [stImm 0x800C#16 0x1#32,
   stImm 0x9008#16 0x1#32,
   payloadLine c]

/-- The address of the ring's byte at a count (10_state.md R30). -/
def slotExpr (c : Config) (i : Expr) : Expr := .add (.lit c.rbBase) (.mod i (.lit (BitVec.ofNat 32 c.rbCap)))

/-- `ring_push(line)` (46_sync_wrapper.md R107). -/
def ringPushLines (c : Config) : List Line :=
  [.assign nOcc (.sub (.count .head) (.count .tail)),
   .ifGoto (.negate (.noRoom (.var nS) (.var nOcc))) 4,
   .setCount .drops (.add (.count .drops) (.lit 1#32)),
   .ret none none,
   .assign nI (.lit 0#32),
   .assignStr nRest (.var nS),
   .ifGoto (.lenIs (.var nRest) 0) 11,
   .writeAt .w8 (slotExpr c (.add (.count .head) (.var nI))) (.first (.var nRest)),
   .assignStr nRest (.tail (.var nRest)),
   .assign nI (.add (.var nI) (.lit 1#32)),
   .goto 6,
   .setCount .head (.add (.count .head) (.len (.var nS)))]

/-- `ring_drain()` (46_sync_wrapper.md R108). -/
def ringDrainLines (c : Config) : List Line :=
  [.assign nH (.count .head),
   .ifGoto (.eq (.var nH) (.count .tail)) 8,
   .ifGoto (.eq (.count .tail) (.var nH)) 0,
   .readAt .w8 (slotExpr c (.count .tail)) (some nB),
   .call (.putByte (.var nB)),
   .setCount .tail (.add (.count .tail) (.lit 1#32)),
   .goto 2,
   .goto 0]

/-- `CSENTER -> k` (46_sync_wrapper.md R110). -/
def csEnterLines : List Line := [.assign nK .cpuIe, idLine, .ret (some (.var nK)) none]

/-- `CSEXIT k` (46_sync_wrapper.md R110). -/
def csExitLines : List Line := [.ifGoto (.ne (.var nK) (.lit 1#32)) 2, ieLine]

/-- `main_line(s)` (46_sync_wrapper.md R109). -/
def mainLineLines : List Line := [.call .ringDrain, .call (.putString (.var nS)), .call .ringDrain]

/-- Boot's software steps (70_reset_and_hazards.md R134 (2) to (4)). -/
def bootLines : List Line :=
  [.setCount .head (.lit 0#32), .setCount .tail (.lit 0#32), .setCount .drops (.lit 0#32), .call .init, ieLine]

end Sys2Proof.Machine
end

