-- ==== Sys2Proof/Machine/Interp.lean ====
section
/-! DEFINITION. What one step of each agent does: fetching the processor's next line, running it
(30_encoding.md R59), admitting its accesses (20_memory.md R43), taking the interrupt, and the other agents'
steps (00_scope.md R3). -/

namespace Sys2Proof.Machine

/-- The frame of the running operation; an empty one where nothing runs. -/
def State.frame (s : State) : Frame :=
  match s.cont with
  | [] => Frame.start []
  | f :: _ => f

/-- What an expression computes, and whether a value no rule states went into it: a free one then stands in its
place (log entries 13 and 28), and the rest is computed from it. -/
structure Computed (α : Type) where
  val : α
  free : Bool
deriving DecidableEq, Repr

/-- A value the rules give. -/
def Computed.known {α : Type} (a : α) : Computed α := ⟨a, false⟩

/-- A value where the rules give one, else a free one. -/
def Computed.orFree {α : Type} (v : Option α) (f : α) : Computed α :=
  match v with
  | some a => ⟨a, false⟩
  | none => ⟨f, true⟩

/-- A function of a computed value. -/
def Computed.map {α β : Type} (f : α → β) (a : Computed α) : Computed β := ⟨f a.val, a.free⟩

/-- A function of two. -/
def Computed.both {α β γ : Type} (f : α → β → γ) (a : Computed α) (b : Computed β) : Computed γ :=
  ⟨f a.val b.val, a.free || b.free⟩

/-- `a << n` (30_encoding.md R59), a free value for an amount of 32 or more (log entry 28). -/
def shiftLeft (a n : Word) : Word := if n.toNat < 32 then a <<< n.toNat else Config.freeShl a n

/-- `a >> n` (30_encoding.md R59), a free value for an amount of 32 or more (log entry 28). -/
def shiftRight (a n : Word) : Word := if n.toNat < 32 then a >>> n.toNat else Config.freeShr a n

/-- `a mod m`, a free value for `m` 0 (log entry 28). -/
def modulo (a m : Word) : Word := if m = 0#32 then Config.freeMod a else a % m

/-- The value of a byte string; a name that the operation has not written has a free one (log entry 13). -/
def StrExpr.eval (s : State) : StrExpr → Computed (List Byte)
  | .lit b => .known b
  | .var n => .orFree (s.frame.strs.lookup n) (Config.freeString s.draws n)
  | .snoc t c =>
    .both (fun b v => b ++ [lowByte v]) (t.eval s)
      (.orFree (s.frame.words.lookup c) (Config.freeWord s.draws c))
  | .tail t => (t.eval s).map List.tail

/-- The value of an expression (30_encoding.md R59). Arithmetic is modulo 2^32 (00_scope.md R8). A name that the
operation has not written has a free value, and so has the first byte of an empty string (log entries 13, 28). -/
def Expr.eval (s : State) : Expr → Computed Word
  | .lit v => .known v
  | .var n => .orFree (s.frame.words.lookup n) (Config.freeWord s.draws n)
  | .band a b => .both (· &&& ·) (a.eval s) (b.eval s)
  | .bor a b => .both (· ||| ·) (a.eval s) (b.eval s)
  | .bnot a => (a.eval s).map (~~~ ·)
  | .add a b => .both (· + ·) (a.eval s) (b.eval s)
  | .sub a b => .both (· - ·) (a.eval s) (b.eval s)
  | .shl a b => .both shiftLeft (a.eval s) (b.eval s)
  | .shr a b => .both shiftRight (a.eval s) (b.eval s)
  | .mod a b => .both modulo (a.eval s) (b.eval s)
  | .count c => .known (s.getCount c)
  | .cpuIe => .known (zextBit s.cpuIe)
  | .len t => (t.eval s).map fun b => BitVec.ofNat 32 b.length
  | .first t =>
    (.both (fun _ b => zextByte b) (t.eval s) (.orFree (t.eval s).val.head? (Config.freeByte s.draws)))

/-- The value of a condition. The room test of 46_sync_wrapper.md R107 is over the naturals (log entry 18). -/
def Cond.eval (s : State) : Cond → Computed Bool
  | .eq a b => .both (fun x y => decide (x = y)) (a.eval s) (b.eval s)
  | .ne a b => .both (fun x y => decide (x ≠ y)) (a.eval s) (b.eval s)
  | .ult a b => .both (fun x y => decide (x.toNat < y.toNat)) (a.eval s) (b.eval s)
  | .ule a b => .both (fun x y => decide (x.toNat ≤ y.toNat)) (a.eval s) (b.eval s)
  | .lenIs t n => (t.eval s).map fun b => decide (b.length = n)
  | .noRoom t occ => .both (fun b o => decide (s.cfg.rbCap < b.length + o.toNat)) (t.eval s) (occ.eval s)
  | .either a b => .both (· || ·) (a.eval s) (b.eval s)
  | .both a b => .both (· && ·) (a.eval s) (b.eval s)
  | .negate a => (a.eval s).map (! ·)

/-- A frame for `code` with a word or a byte string bound at its start and names that take its results. -/
def Frame.call (code : List Line) (words : List (Name × Word)) (strs : List (Name × List Byte))
    (retWord retStr : Option Name) : Frame :=
  ⟨code, 0, words, strs, retWord, retStr⟩

/-- The frame of a called operation, its operands evaluated in the caller. `put_byte` takes one byte
(41_uart_driver.md R68); of a word the rule does not say how, and the model takes the low byte (log entry 29, DESIGN
CHOICE). -/
def Call.frame (s : State) : Call → Computed Frame
  | .pollClr ad m => .known (Frame.call (pollClrLines ad m) [] [] none none)
  | .pollSet ad m => .known (Frame.call (pollSetLines ad m) [] [] none none)
  | .putByte b => (b.eval s).map fun v => Frame.call putByteLines [(nB, zextByte (lowByte v))] [] none none
  | .getByte dst => .known (Frame.call getByteLines [] [] (some dst) none)
  | .putString t => (t.eval s).map fun b => Frame.call putStringLines [] [(nS, b)] none none
  | .readLine maxLen dst n => .known (Frame.call (readLineLines s.cfg maxLen) [] [] n (some dst))
  | .init => .known (Frame.call (initLines s.cfg) [] [] none none)
  | .handleInterrupt => .known (Frame.call (handlerLines s.cfg) [] [] none none)
  | .ringPush t => (t.eval s).map fun b => Frame.call (ringPushLines s.cfg) [] [(nS, b)] none none
  | .ringDrain => .known (Frame.call (ringDrainLines s.cfg) [] [] none none)
  | .csEnter dst => .known (Frame.call csEnterLines [] [] (some dst) none)
  | .csExit k => (k.eval s).map fun v => Frame.call csExitLines [(nK, v)] [] none none
  | .mainLine t => (t.eval s).map fun b => Frame.call mainLineLines [] [(nS, b)] none none

/-- A step with the value its line computed, the counter moved on where that took a free one. -/
def withValue {α : Type} (s : State) (v : Computed α) (k : α → State → Result) : Result := k v.val (s.took v.free)

/-- Run an operation word with its data word (30_encoding.md R55, R61). A word whose offset names no register
is an access at that offset's address: misaligned before unmapped (20_memory.md R43, log entry 9). -/
def runWord (ad : AdWord) (wdata : Word) (s : State) : Result :=
  match decode ad wdata with
  | .instr i => exec i s
  | .unmapped =>
    .next (s.raise (if aligned4 (adOffset ad) then .unmapped else .misaligned)
      (.access ad (match adDir ad with | .read => none | .write => some wdata)))
  | .reserved => .refused .reservedWord

/-- `BusAccess` (20_memory.md R43): the checks of width and alignment, then the descriptor's access. -/
def busAccess (w : Window) (d : Dir) (width : Width) (a wdata : Word) (s : State) : Result :=
  if width ≠ .w32 then
    .next (s.raise .width (.address d width a (match d with | .read => none | .write => some wdata)))
  else if aligned4 a then runWord (adAt s.cfg d w a) wdata s
  else .next (s.raise .misaligned (.address d width a (match d with | .read => none | .write => some wdata)))

/-- A processor access to RAM, outside the windows: one byte (20_memory.md R39); no rule gives another width
(log entry 15). How a 32-bit processor value becomes the one byte stored no rule says: the model stores its low byte
(log entry 29, DESIGN CHOICE). -/
def ramAccess (d : Dir) (width : Width) (a wdata : Word) (s : State) : Result :=
  if width = .w8 then
    match d with
    | .read => .next { s with rdata := zextByte (s.readByte a) }
    | .write => .next (s.writeByte a (lowByte wdata))
  else .refused .ramWidth

/-- A processor access at an address (20_memory.md R38). -/
def procAccess (d : Dir) (width : Width) (a wdata : Word) (s : State) : Result :=
  match windowAt s.cfg a with
  | some w => busAccess w d width a wdata s
  | none => ramAccess d width a wdata s

/-- A read's data word bound to the name the line gives; a faulting read gives none. -/
def received (dst : Option Name) (r : Result) : Result :=
  match r with
  | .next t =>
    match t.fault with
    | none => .next (t.bindWord? dst t.rdata)
    | some _ => .next t
  | .fault f => .fault f
  | .refused x => .refused x

/-- An operation word of a program: a read's data word goes to the line's name. -/
def runOp (ad : AdWord) (wdata : Word) (dst : Option Name) (s : State) : Result :=
  match adDir ad with
  | .read => received dst (runWord ad wdata s)
  | .write => runWord ad wdata s

/-- The platform's instruction fetch (20_memory.md R50): a fault inside a window, nothing of the block outside. -/
def fetchAccess (a : Word) (s : State) : Result :=
  match windowAt s.cfg a with
  | some _ => .next (s.raise .fetch (.fetch a))
  | none => .next s

/-- What an operation gives back, where its `return` line names it. -/
def returned {α β : Type} (eval : α → Computed β) : Option α → Computed (Option β)
  | none => .known none
  | some e => (eval e).map some

/-- One line of a program, in the state whose continuation is already past it. -/
def runLine (l : Line) (s : State) : Result :=
  match l with
  | .op ad val dst => withValue s (val.eval s) fun v t => runOp ad v dst t
  | .readAt width addr dst => withValue s (addr.eval s) fun a t => received dst (procAccess .read width a 0#32 t)
  | .writeAt width addr val =>
    withValue s (.both Prod.mk (addr.eval s) (val.eval s)) fun p t => procAccess .write width p.1 p.2 t
  | .fetchAt addr => withValue s (addr.eval s) fetchAccess
  | .goto n => .next (s.jump n)
  | .ifGoto c n => withValue s (c.eval s) fun b t => .next (if b then t.jump n else t)
  | .assign n e => withValue s (e.eval s) fun v t => .next (t.bindWord n v)
  | .assignStr n e => withValue s (e.eval s) fun b t => .next (t.bindStr n b)
  | .setCount c e => withValue s (e.eval s) fun v t => .next (t.putCount c v)
  | .call c => withValue s (c.frame s) fun f t => .next (t.push f)
  | .ret w b =>
    withValue s (.both Prod.mk (returned (fun e => e.eval s) w) (returned (fun e => e.eval s) b)) fun p t =>
      .next (t.pop p.1 p.2)
  | .driverArg => .next (s.raise .driverArg .readLine)

/-- The next line of a continuation, and the continuation past it: an operation whose lines are all run gives
way to its caller (log entry 11). -/
def fetchLine : List Frame → Option (Line × List Frame)
  | [] => none
  | f :: fs =>
    match f.code[f.pos]? with
    | some l => some (l, { f with pos := f.pos + 1 } :: fs)
    | none => fetchLine fs

/-- The processor agent has a line to run. -/
def State.processorEnabled (s : State) : Bool := (fetchLine s.cont).isSome

/-- One line of the processor's program; nothing where no line is left. -/
def stepProcessor (s : State) : Result :=
  match fetchLine s.cont with
  | some (l, cont) => runLine l { s with cont := cont }
  | none => .next s

/-- Whether an agent has a step, in a state without a fault (60_exceptions.md R117, 42_timer.md R85,
40_uart.md R65, R66). -/
def State.enabled (s : State) : Agent → Bool
  | .processor => s.processorEnabled
  | .delivery => s.deliverable
  | .tick => s.tickEnabled
  | .txDrain => s.drainEnabled
  | .rxArrival => s.arrivalEnabled

/-- One step of an agent (00_scope.md R3); an agent with no step leaves the state alone (log entry 3). -/
def stepAgent (a : Agent) (s : State) : Result :=
  match a with
  | .processor => stepProcessor s
  | .delivery => .next (if s.deliverable then s.takeInterrupt else s)
  | .tick => .next (if s.tickEnabled then s.tick else s)
  | .txDrain => .next (if s.drainEnabled then s.drain else s)
  | .rxArrival => .next (if s.arrivalEnabled then s.arrive else s)

/-- Who moves at the next step: the schedule says, and where it is used up the free choice does (log
entry 2). -/
def State.mover (s : State) : Agent :=
  match s.schedule with
  | a :: _ => a
  | [] => Config.freeAgent s.choices

/-- The state with that choice made. -/
def State.chosen (s : State) : State :=
  match s.schedule with
  | _ :: rest => { s with schedule := rest }
  | [] => { s with choices := s.choices + 1 }

/-- The launch state (70_reset_and_hazards.md R133): reset, with a program, the host's input and the known
part of the interleaving given from outside (log entry 10). -/
def State.launch (c : Config) (program : List Line) (script : List Byte) (sched : List Agent) : State :=
  { State.resetWith c with cont := [Frame.start program], rxScript := script, schedule := sched }

/-- An operation word put where the processor's next line is taken from, and the processor's turn. -/
def State.placeWord (s : State) (w : OpWord) : State :=
  { s with cont := Frame.start [.op w.ad (.lit w.wdata) none] :: s.cont, schedule := .processor :: s.schedule }

end Sys2Proof.Machine
end

