-- ==== Sys2Proof/Machine/Step.lean ====
section
/-! DEFINITION. One step of the machine (00_scope.md R3, R10; 60_exceptions.md R114). -/

namespace Sys2Proof.Machine

/-- One step: from a state that holds a fault, that fault, for ever (60_exceptions.md R114); else a step of
the agent whose turn it is. -/
def step (s : State) : Host.Outcome State Fault Refusal :=
  match s.fault with
  | some r => .fault r.fault
  | none => stepAgent s.mover s.chosen

/-- The operation word whose bits are `w` (the low `nbits`, the rest 0), put where the next step takes its
line from, with the processor's turn. -/
def State.withFetchWord (s : State) (nbits w : Nat) : State := s.placeWord (tableWord nbits w)

end Sys2Proof.Machine
end

