-- ==== Sys2Proof/Machine/Run.lean ====
section
/-! DEFINITION. The end of a run and what is observed there (60_exceptions.md R129): a run ends at the first
state that meets the four conditions, whatever the block would do afterwards. -/

namespace Sys2Proof.Machine

/-- The normal-context program has run its last line. -/
def State.programDone (s : State) : Bool := (fetchLine s.cont).isNone

/-- The four conditions of 60_exceptions.md R129: the program has run its last line, the context is normal, no
fault, and every byte written has left the transmitter. -/
def State.ended (s : State) : Bool :=
  s.programDone && decide (s.ctx = .normal) && s.fault.isNone && s.txfe

/-- The state in which the run from `s` ends, where it ends within `n` steps: the first that meets the four
conditions. It takes no step from there; a run that stops before has no end (60_exceptions.md R129). -/
def State.endWithin : Nat → State → Option State
  | 0, s => if s.ended then some s else none
  | n + 1, s =>
    if s.ended then some s
    else
      match step s with
      | .next t => State.endWithin n t
      | .fault _ => none
      | .refused _ => none

/-- What 60_exceptions.md R129 reads at the end of a run: the registers that hold a value, as a read would give
them, the ring, and the two ends of the line with the trace. -/
structure Observation where
  clkTimer : Word
  tctrl : Word
  tcount : Word
  tload : Word
  tisr : Word
  tier : Word
  icPrio : Word
  ustat : Word
  rbBuf : List Byte
  rbHead : Word
  rbTail : Word
  rbDrops : Word
  txOut : List Byte
  rxFifo : List Byte
  rxScript : List Byte
  trace : List Event
deriving DecidableEq, Repr

/-- The observation of a state (60_exceptions.md R129). -/
def State.observe (s : State) : Observation where
  clkTimer := zextBit s.clkEn
  tctrl := tctrlWord s.tAr s.tSt
  tcount := s.tCount
  tload := s.tLoad
  tisr := zextBit s.tOvf
  tier := zextBit s.tIe
  icPrio := prioField s.cfg s.icPrio
  ustat := s.ustat
  rbBuf := (List.range s.cfg.rbCap).map fun i => s.rbByte (BitVec.ofNat 32 i)
  rbHead := s.rbHead
  rbTail := s.rbTail
  rbDrops := s.rbDrops
  txOut := s.txOut
  rxFifo := s.rxFifo
  rxScript := s.rxScript
  trace := s.trace

end Sys2Proof.Machine
end

