-- ==== Sys2Proof/WellFormed.lean ====
section
/-! DEFINITION. What may be given to the model: a configuration (the legal values of 00_scope.md R7) and a
program (its gotos stay inside it, its words spell operations). Every term of Instr is a legal operation: a data
word is any 32-bit value (30_encoding.md R54) and nothing else varies, so Instr needs no check. -/

namespace Sys2Proof

/-- A window base: a multiple of 0x1000 (00_scope.md R7). -/
def Config.baseOk (a : Word) : Bool := a.toNat % 0x1000 == 0

/-- The four 4 KiB windows are disjoint: their bases, multiples of 0x1000, differ (20_memory.md R38). -/
def Config.disjoint (c : Config) : Bool :=
  decide [c.baseTimer, c.baseIntc, c.baseUart, c.baseClk].Nodup

/-- `RB_CAP` is a power of two from 1 to 2^31 (00_scope.md R7). -/
def Config.ringCapOk (n : Nat) : Bool := (List.range 32).any fun k => n == 2 ^ k

/-- The ring lies in RAM outside a window (20_memory.md R39). -/
def Config.ringOutside (c : Config) (w : Window) : Bool :=
  decide (c.rbBase.toNat + c.rbCap ≤ (c.base w).toNat) || decide ((c.base w).toNat + 0x1000 ≤ c.rbBase.toNat)

/-- The legal values of 00_scope.md R7. -/
def Config.wf (c : Config) : Bool :=
  Config.baseOk c.baseTimer && Config.baseOk c.baseIntc && Config.baseOk c.baseUart && Config.baseOk c.baseClk
    && c.disjoint
    && decide (0 < c.clockHz) && decide (0 < c.periodNum) && decide (0 < c.periodDen)
    && decide (1 ≤ c.txDepth) && decide (1 ≤ c.rxDepth)
    && decide (1 ≤ c.prioBits) && decide (c.prioBits ≤ 32) && decide (c.prioValue < 2 ^ c.prioBits)
    && Config.ringCapOk c.rbCap && decide (c.diagLine ≠ []) && decide (c.diagLine.length ≤ c.rbCap)
    && decide (c.rbBase.toNat + c.rbCap ≤ 2 ^ 32)
    && c.ringOutside .timer && c.ringOutside .intc && c.ringOutside .uart && c.ringOutside .clk

namespace Machine

/-- A line of a program of `size` lines: a goto stays inside it or at its end; an operation word spells an
operation (30_encoding.md R55, R59); `read_line`'s capacity is at least 1 (41_uart_driver.md R71). -/
def Line.wf (size : Nat) : Line → Bool
  | .op ad _ _ => match decode ad 0#32 with | .instr _ => true | .unmapped => false | .reserved => false
  | .goto n => decide (n ≤ size)
  | .ifGoto _ n => decide (n ≤ size)
  | .call (.readLine maxLen _ _) => decide (1 ≤ maxLen)
  | .call _ => true
  | .readAt _ _ _ => true
  | .writeAt _ _ _ => true
  | .fetchAt _ => true
  | .assign _ _ => true
  | .assignStr _ _ => true
  | .setCount _ _ => true
  | .ret _ _ => true
  | .driverArg => true

/-- A program: every line of it. -/
def codeWf (code : List Line) : Bool := code.all (Line.wf code.length)

end Machine

end Sys2Proof
end

