-- ==== Sys2Proof/Safety.lean ====
section
/-! DEFINITION. What counts as a launch, a run, a fair run and its end (70_reset_and_hazards.md R133;
60_exceptions.md R114, R129, R130), and the invariants of the machine, in the terms the statements use. -/

namespace Sys2Proof.Machine

/-- The run has not been ended by a fault (60_exceptions.md R114). -/
def State.running (s : State) : Bool := s.fault.isNone

/-- A launch state (10_state.md R36, 70_reset_and_hazards.md R133): what R36 fixes is fixed, what it leaves
unspecified is anything (`PRIO` of its `PRIO_BITS` bits, RAM in its canonical form), and the program, the
host's script and the interleaving are anything. -/
def Launch (s : State) : Prop :=
  s.cfg.wf = true ∧ s.icPrioValid = false ∧ s.icActive = false ∧ s.icRearm = false
    ∧ s.txFifo = [] ∧ s.rxFifo = [] ∧ s.cpuIe = false ∧ s.ctx = .normal ∧ s.saved = none
    ∧ s.txOut = [] ∧ s.trace = [] ∧ s.fault = none
    ∧ Memory.wf s.mem = true ∧ s.icPrio.toNat < 2 ^ s.cfg.prioBits

/-- The states in which a run may end (60_exceptions.md R129); a run ends at the first of them. -/
def Ended (s : State) : Prop := s.ended = true

/-- The first `n` steps of a sequence of states are the machine's. -/
def StepsTo (r : Nat → State) (n : Nat) : Prop := ∀ m < n, step (r m) = .next (r (m + 1))

/-- None of the first `n` states is one in which a run ends. -/
def NotEndedBefore (r : Nat → State) (n : Nat) : Prop := ∀ m < n, ¬ Ended (r m)

/-- A run that ends, at step `n` (60_exceptions.md R129): the first state that meets the conditions. What the
sequence holds after it is no part of the run. -/
def EndsAt (r : Nat → State) (n : Nat) : Prop := StepsTo r n ∧ NotEndedBefore r n ∧ Ended (r n)

/-- A run that faults, at step `n`, before any end: it has none (60_exceptions.md R114, R129). -/
def FaultsAt (r : Nat → State) (n : Nat) : Prop :=
  StepsTo r n ∧ NotEndedBefore r n ∧ (r n).fault.isSome = true

/-- A run that goes on for ever without an end, a hang or a storm (60_exceptions.md R129). -/
def IsRun (r : Nat → State) : Prop := ∀ n, step (r n) = .next (r (n + 1)) ∧ ¬ Ended (r n)

/-- An agent has a step: none has one after a fault (60_exceptions.md R114). -/
def CanMove (a : Agent) (s : State) : Prop := s.fault = none ∧ s.enabled a = true

/-- The agent has a step and takes it. -/
def Moves (a : Agent) (s : State) : Prop := CanMove a s ∧ s.mover = a

/-- The processor agent has a step: a line, or the delivery (60_exceptions.md R130 (1)). -/
def CpuCanMove (s : State) : Prop := CanMove .processor s ∨ CanMove .delivery s

/-- The processor agent takes a step, of either kind. -/
def CpuMoves (s : State) : Prop := Moves .processor s ∨ Moves .delivery s

/-- Weak fairness: what can happen from some step on for ever happens. -/
def WeaklyFair (can does : State → Prop) (r : Nat → State) : Prop :=
  ∀ n, (∀ m, n ≤ m → can (r m)) → ∃ m, n ≤ m ∧ does (r m)

/-- An unending run that is fair (60_exceptions.md R130) to the processor agent, to the delivery, to the tick and
to the TX drain; not to the host. -/
def FairRun (r : Nat → State) : Prop :=
  IsRun r ∧ WeaklyFair CpuCanMove CpuMoves r
    ∧ WeaklyFair (CanMove .delivery) (Moves .delivery) r
    ∧ WeaklyFair (CanMove .tick) (Moves .tick) r
    ∧ WeaklyFair (CanMove .txDrain) (Moves .txDrain) r

/-- A run of the model: it ends, or it faults, or it goes on for ever and is fair (60_exceptions.md R129, R130).
Fairness asks nothing of a run before its end. -/
def ModelRun (r : Nat → State) : Prop := (∃ n, EndsAt r n) ∨ (∃ n, FaultsAt r n) ∨ FairRun r

/-- A FIFO holds at most its depth (10_state.md R27). -/
def FifosFit (s : State) : Prop := s.txFifo.length ≤ s.cfg.txDepth ∧ s.rxFifo.length ≤ s.cfg.rxDepth

/-- Reserved bits of `IC_PRIO` read 0 (10_state.md R14, R22). -/
def PrioFits (s : State) : Prop := s.icPrio.toNat < 2 ^ s.cfg.prioBits

/-- A continuation is saved exactly while the handler runs (10_state.md R29). -/
def SavedInHandler (s : State) : Prop := s.ctx = .handler ↔ s.saved.isSome = true

/-- An interrupt in service, or a latched re-arm, was routed (60_exceptions.md R117). -/
def ServiceRouted (s : State) : Prop := (s.icActive = true ∨ s.icRearm = true) → s.icPrioValid = true

/-- What every step keeps. -/
structure Inv (s : State) : Prop where
  memory : Memory.wf s.mem = true
  fifos : FifosFit s
  prio : PrioFits s
  saved : SavedInHandler s
  routed : ServiceRouted s

/-- Ticks from a count to the next timer event (42_timer.md R86). -/
def ticksToEvent (dir : TimerDir) (c : Word) : Nat :=
  match dir with
  | .down => if c = 0#32 then 2 ^ 32 else c.toNat
  | .up => 2 ^ 32 - c.toNat

/-- An acknowledge write in a trace (92_eei_decisions.md D43). -/
def isAck : Event → Bool
  | .acc _ ad _ => decide (ad = 0x9008#16)
  | .evt => false
  | .deliver => false
  | .iret => false
  | .tx _ => false
  | .rx _ => false
  | .rxDrop _ => false

/-- The number of acknowledge writes in a trace (92_eei_decisions.md D43). -/
def ackCount (t : List Event) : Nat := t.countP isAck

/-- The number of timer events in a trace. -/
def evtCount (t : List Event) : Nat := t.countP fun e => decide (e = .evt)

/-- `n` ticks of the counter, each only while it is enabled (42_timer.md R85, R86). -/
def ticks : Nat → State → State
  | 0, s => s
  | n + 1, s => ticks n (if s.tickEnabled then s.tick else s)

/-- `n` steps of the processor's program alone (no other agent between them). -/
def cpuSteps : Nat → State → Result
  | 0, s => .next s
  | n + 1, s =>
    match stepProcessor s with
    | .next t => cpuSteps n t
    | .fault f => .fault f
    | .refused x => .refused x

/-- A sequence of operations, one after the other, stopping at the first that stops or faults
(44_timer_driver.md R98, R100: "the composition of the access rules its expansion names"). -/
def execAll : List Instr → State → Result
  | [], s => .next s
  | i :: is, s =>
    match exec i s with
    | .next t => match t.fault with | none => execAll is t | some _ => .next t
    | .fault f => .fault f
    | .refused x => .refused x

end Sys2Proof.Machine
end

