-- ==== Sys2Proof/Certificates/Slice0/Obligations.lean ====
section
/-! DEFINITION. The statements for the provers, from the numbered rules of spec/. OBLIGATIONS.json says of each
what it rests on. -/

open Sys2Proof Sys2Proof.Machine

/-- The 25 words of the decode table (30_encoding.md R55). -/
def Sys2Proof.Machine.tableWords : List AdWord :=
  [0x3000#16, 0xB000#16, 0x0000#16, 0x8000#16, 0x0004#16, 0x8004#16, 0x0008#16, 0x8008#16, 0x000C#16,
   0x800C#16, 0x0010#16, 0x8010#16, 0x1000#16, 0x9000#16, 0x1004#16, 0x9004#16, 0x1008#16, 0x9008#16,
   0x2000#16, 0xA000#16, 0x2004#16, 0xA004#16, 0xF000#16, 0xF004#16, 0xF008#16]

/-- Decode and encode agree. Decoding the encoder's word and data word gives the operation back, for every
operation and data word. A word that decodes to an operation is the word the encoder gives it, and the data word
is kept by every bus write and by nothing else. -/
def Obligations.DecodeInvertsEncode : Prop :=
  ∀ i : Instr, decode (encode i).ad (encode i).wdata = .instr i ∧
    ∀ (ad : AdWord) (w : Word), decode ad w = .instr i →
      (encode i).ad = ad ∧
      (encode i).wdata = if adDir ad = .write ∧ (adRegion ad).toNat ≤ 3 then w else 0#32

/-- Words of the decode table, written out, decode to the operations the table names (30_encoding.md R55). -/
def Obligations.TableWordsDecode : Prop :=
  ∀ v : Word,
    decode 0x3000#16 v = .instr .ldClkTimer ∧ decode 0xB000#16 v = .instr (.stClkTimer v) ∧
    decode 0x0004#16 v = .instr .ldTcount ∧ decode 0x800C#16 v = .instr (.stTisr v) ∧
    decode 0x8010#16 v = .instr (.stTier v) ∧ decode 0x1004#16 v = .instr .ldIcPrio ∧
    decode 0x9008#16 v = .instr (.stIcAck v) ∧ decode 0x2000#16 v = .instr .ldUdata ∧
    decode 0xA000#16 v = .instr (.stUdata v) ∧ decode 0x2004#16 v = .instr .ldUstat ∧
    decode 0xF000#16 v = .instr .ie ∧ decode 0xF004#16 v = .instr .id ∧ decode 0xF008#16 v = .instr .iret

/-- Every other word: with `RGN` 000 to 011 it names no register, with `RGN` 100 to 111 it spells no operation
(30_encoding.md R53, R55). -/
def Obligations.OtherWordsRejected : Prop :=
  ∀ (ad : AdWord) (w : Word),
    (decode ad w = .unmapped ↔ (adRegion ad).toNat ≤ 3 ∧ ad ∉ tableWords) ∧
    (decode ad w = .reserved ↔ 4 ≤ (adRegion ad).toNat ∧ ad ∉ tableWords)

/-- Where the processor's next line holds a word that decodes to an operation, the step runs that operation,
in the state past the line; a read's data word goes to the line's name. Where the data word took a free value, one
more is counted (log entry 13). -/
def Obligations.StepRunsDecodedWord : Prop :=
  ∀ (s : State) (ad : AdWord) (e : Expr) (dst : Option Name) (fs : List Frame) (w : Word) (free : Bool) (i : Instr),
    s.fault = none → s.mover = .processor → fetchLine s.chosen.cont = some (.op ad e dst, fs) →
    e.eval { s.chosen with cont := fs } = ⟨w, free⟩ → decode ad w = .instr i →
    step s = match adDir ad with
      | .read => received dst (exec i { s.chosen with cont := fs, draws := s.draws + free.toNat })
      | .write => exec i { s.chosen with cont := fs, draws := s.draws + free.toNat }

/-- Where that word is reserved the step is refused (30_encoding.md R53, R55), whatever name the line gives; where
its offset names no register the access faults, misaligned before unmapped, and binds no name. The order is read
from 20_memory.md R43 (log entry 9, DEDUCED). A free value taken is counted (log entry 13). -/
def Obligations.StepStopsOnOtherWords : Prop :=
  ∀ (s : State) (ad : AdWord) (e : Expr) (dst : Option Name) (fs : List Frame) (w : Word) (free : Bool),
    s.fault = none → s.mover = .processor → fetchLine s.chosen.cont = some (.op ad e dst, fs) →
    e.eval { s.chosen with cont := fs } = ⟨w, free⟩ →
    (decode ad w = .reserved → step s = .refused .reservedWord) ∧
    (decode ad w = .unmapped → ∃ c : Culprit,
      step s = .next { s.chosen with
        cont := fs
        draws := s.draws + free.toNat
        fault := some ⟨if (adOffset ad).toNat % 4 = 0 then .unmapped else .misaligned, c⟩ })

/-- An operation placed as the next line, with the processor's turn, is what the next step runs: step is exec
of it, in the state whose continuation is past the placed line. -/
def Obligations.PlacedWordRuns : Prop :=
  ∀ (s : State) (i : Instr), s.fault = none →
    step (s.placeWord (encode i)) =
      exec i { s with cont :=
        { Frame.start [.op (encode i).ad (.lit (encode i).wdata) none] with pos := 1 } :: s.cont }

/-- After a fault no agent has a step, and the state is no end of a run (60_exceptions.md R114): whoever's turn
it is, the step answers the fault. -/
def Obligations.FaultEndsRun : Prop :=
  ∀ (s : State) (r : FaultRecord), s.fault = some r →
    (∀ (l : List Agent) (n : Nat), step { s with schedule := l, choices := n } = .fault r.fault) ∧
    (∀ a : Agent, ¬ CanMove a s) ∧ ¬ Ended s

/-- `LD CLK_TIMER` and `ST CLK_TIMER` (42_timer.md R73, R74): nothing else changes. -/
def Obligations.ClockGateAccess : Prop :=
  ∀ (s : State) (val : Word),
    decode 0x3000#16 val = .instr .ldClkTimer ∧ decode 0xB000#16 val = .instr (.stClkTimer val) ∧
    (∃ v : Word, (∀ k, v.getLsbD k = (decide (k = 0) && s.clkEn)) ∧
      exec .ldClkTimer s = .next { s with rdata := v, trace := s.trace ++ [.acc s.ctx 0x3000#16 v] }) ∧
    exec (.stClkTimer val) s = .next { s with
      clkEn := val.getLsbD 0, trace := s.trace ++ [.acc s.ctx 0xB000#16 val] }

/-- `LD TCTRL` and `ST TCTRL` (42_timer.md R75, R76): `ST` is bit 0, `AR` bit 1, the bits above read 0 and
ignore writes, nothing else changes; with the gate off both are the fault `F_UNGATED`. -/
def Obligations.TimerControlAccess : Prop :=
  ∀ (s : State) (val : Word),
    decode 0x0000#16 val = .instr .ldTctrl ∧ decode 0x8000#16 val = .instr (.stTctrl val) ∧
    (s.clkEn = true →
      (∃ v : Word, (∀ k, v.getLsbD k = ((decide (k = 0) && s.tSt) || (decide (k = 1) && s.tAr))) ∧
        exec .ldTctrl s = .next { s with rdata := v, trace := s.trace ++ [.acc s.ctx 0x0000#16 v] }) ∧
      exec (.stTctrl val) s = .next { s with
        tSt := val.getLsbD 0, tAr := val.getLsbD 1, trace := s.trace ++ [.acc s.ctx 0x8000#16 val] }) ∧
    (s.clkEn = false →
      exec .ldTctrl s = .next { s with fault := some ⟨.ungated, .access 0x0000#16 none⟩ } ∧
      exec (.stTctrl val) s = .next { s with fault := some ⟨.ungated, .access 0x8000#16 (some val)⟩ })

/-- `LD TCOUNT` and `ST TCOUNT` (42_timer.md R77, R78): nothing else changes; with the gate off both are the fault
`F_UNGATED`. -/
def Obligations.CounterAccess : Prop :=
  ∀ (s : State) (val : Word),
    decode 0x0004#16 val = .instr .ldTcount ∧ decode 0x8004#16 val = .instr (.stTcount val) ∧
    (s.clkEn = true →
      exec .ldTcount s = .next { s with
        rdata := s.tCount, trace := s.trace ++ [.acc s.ctx 0x0004#16 s.tCount] } ∧
      exec (.stTcount val) s = .next { s with
        tCount := val, trace := s.trace ++ [.acc s.ctx 0x8004#16 val] }) ∧
    (s.clkEn = false →
      exec .ldTcount s = .next { s with fault := some ⟨.ungated, .access 0x0004#16 none⟩ } ∧
      exec (.stTcount val) s = .next { s with fault := some ⟨.ungated, .access 0x8004#16 (some val)⟩ })

/-- `LD TLOAD` and `ST TLOAD` (42_timer.md R79, R80): `TCOUNT` does not change, nor does anything else; with the
gate off both are the fault `F_UNGATED`. -/
def Obligations.ReloadAccess : Prop :=
  ∀ (s : State) (val : Word),
    decode 0x0008#16 val = .instr .ldTload ∧ decode 0x8008#16 val = .instr (.stTload val) ∧
    (s.clkEn = true →
      exec .ldTload s = .next { s with
        rdata := s.tLoad, trace := s.trace ++ [.acc s.ctx 0x0008#16 s.tLoad] } ∧
      exec (.stTload val) s = .next { s with
        tLoad := val, trace := s.trace ++ [.acc s.ctx 0x8008#16 val] }) ∧
    (s.clkEn = false →
      exec .ldTload s = .next { s with fault := some ⟨.ungated, .access 0x0008#16 none⟩ } ∧
      exec (.stTload val) s = .next { s with fault := some ⟨.ungated, .access 0x8008#16 (some val)⟩ })

/-- `LD TISR` and `ST TISR` (42_timer.md R81, R82): a read does not clear; a written 1 clears `OVF`, a written 0
leaves it; nothing else changes; with the gate off both are the fault `F_UNGATED`. -/
def Obligations.OverflowStatusAccess : Prop :=
  ∀ (s : State) (val : Word),
    decode 0x000C#16 val = .instr .ldTisr ∧ decode 0x800C#16 val = .instr (.stTisr val) ∧
    (s.clkEn = true →
      (∃ v : Word, (∀ k, v.getLsbD k = (decide (k = 0) && s.tOvf)) ∧
        exec .ldTisr s = .next { s with rdata := v, trace := s.trace ++ [.acc s.ctx 0x000C#16 v] }) ∧
      exec (.stTisr val) s = .next { s with
        tOvf := s.tOvf && !val.getLsbD 0, trace := s.trace ++ [.acc s.ctx 0x800C#16 val] }) ∧
    (s.clkEn = false →
      exec .ldTisr s = .next { s with fault := some ⟨.ungated, .access 0x000C#16 none⟩ } ∧
      exec (.stTisr val) s = .next { s with fault := some ⟨.ungated, .access 0x800C#16 (some val)⟩ })

/-- `LD TIER` and `ST TIER` (42_timer.md R83, R84): `OVF` does not change, nor does anything else; with the gate
off both are the fault `F_UNGATED`. -/
def Obligations.OverflowEnableAccess : Prop :=
  ∀ (s : State) (val : Word),
    decode 0x0010#16 val = .instr .ldTier ∧ decode 0x8010#16 val = .instr (.stTier val) ∧
    (s.clkEn = true →
      (∃ v : Word, (∀ k, v.getLsbD k = (decide (k = 0) && s.tIe)) ∧
        exec .ldTier s = .next { s with rdata := v, trace := s.trace ++ [.acc s.ctx 0x0010#16 v] }) ∧
      exec (.stTier val) s = .next { s with
        tIe := val.getLsbD 0, trace := s.trace ++ [.acc s.ctx 0x8010#16 val] }) ∧
    (s.clkEn = false →
      exec .ldTier s = .next { s with fault := some ⟨.ungated, .access 0x0010#16 none⟩ } ∧
      exec (.stTier val) s = .next { s with fault := some ⟨.ungated, .access 0x8010#16 (some val)⟩ })

/-- `ST IC_MASK_CLR` (43_intc.md R89): a written 1 unmasks, a written 0 changes nothing; never the way back. -/
def Obligations.UnmaskWrite : Prop :=
  ∀ (s : State) (val : Word),
    decode 0x9000#16 val = .instr (.stIcMaskClr val) ∧
    exec (.stIcMaskClr val) s = .next { s with
      icMasked := s.icMasked && !val.getLsbD 0, trace := s.trace ++ [.acc s.ctx 0x9000#16 val] }

/-- `LD IC_PRIO` and `ST IC_PRIO` (43_intc.md R90, R91): the low `PRIO_BITS` bits are stored and read, the bits
above read 0 and are ignored, and a write marks the line routed. -/
def Obligations.PriorityAccess : Prop :=
  ∀ (s : State) (val : Word),
    decode 0x1004#16 val = .instr .ldIcPrio ∧ decode 0x9004#16 val = .instr (.stIcPrio val) ∧
    (∃ v : Word, (∀ k, v.getLsbD k = (decide (k < s.cfg.prioBits) && s.icPrio.getLsbD k)) ∧
      exec .ldIcPrio s = .next { s with rdata := v, trace := s.trace ++ [.acc s.ctx 0x1004#16 v] }) ∧
    (∃ p : Word, (∀ k, p.getLsbD k = (decide (k < s.cfg.prioBits) && val.getLsbD k)) ∧
      exec (.stIcPrio val) s = .next { s with
        icPrio := p, icPrioValid := true, trace := s.trace ++ [.acc s.ctx 0x9004#16 val] })

/-- `ST IC_ACK` (43_intc.md R92): with nothing in service only the trace changes; with an interrupt in service
it ends, and the re-arm latch takes a free value exactly where the line is still high. -/
def Obligations.AcknowledgeWrite : Prop :=
  ∀ (s : State) (val : Word),
    decode 0x9008#16 val = .instr (.stIcAck val) ∧
    (s.icActive = false →
      exec (.stIcAck val) s = .next { s with trace := s.trace ++ [.acc s.ctx 0x9008#16 val] }) ∧
    (s.icActive = true → (s.tOvf && s.tIe) = false →
      exec (.stIcAck val) s = .next { s with
        icActive := false, trace := s.trace ++ [.acc s.ctx 0x9008#16 val] }) ∧
    (s.icActive = true → (s.tOvf && s.tIe) = true →
      exec (.stIcAck val) s = .next { s with
        icActive := false, icRearm := Config.drawRearm s.draws, draws := s.draws + 1
        trace := s.trace ++ [.acc s.ctx 0x9008#16 val] })

/-- A read of a write-only register is the fault `F_WO_READ` (30_encoding.md R56): it is recorded, nothing else
changes, and from there whoever's turn it is the machine stops with it. -/
def Obligations.WriteOnlyReadFaults : Prop :=
  ∀ s : State, ∀ p ∈ [(Instr.ldIcMaskClr, 0x1000#16), (Instr.ldIcAck, 0x1008#16)],
    (∀ v : Word, decode p.2 v = .instr p.1) ∧
    ∃ t : State, exec p.1 s = .next t ∧ t = { s with fault := some ⟨.woRead, .access p.2 none⟩ } ∧
      ∀ (l : List Agent) (n : Nat), step { t with schedule := l, choices := n } = .fault .woRead

/-- A write of `USTAT` is the fault `F_RO_WRITE` whatever the data word (30_encoding.md R57): it is recorded with
the data word, nothing else changes, and from there whoever's turn it is the machine stops with it. -/
def Obligations.StatusWriteFaults : Prop :=
  ∀ (s : State) (val : Word),
    decode 0xA004#16 val = .instr (.stUstat val) ∧
    ∃ t : State, exec (.stUstat val) s = .next t ∧
      t = { s with fault := some ⟨.roWrite, .access 0xA004#16 (some val)⟩ } ∧
      ∀ (l : List Agent) (n : Nat), step { t with schedule := l, choices := n } = .fault .roWrite

/-- `LD UDATA` (40_uart.md R62): the oldest byte leaves the receive FIFO and is bits 7:0 of the data word under
24 drawn bits; from an empty FIFO it is the fault `F_RX_UNDERFLOW`; nothing else changes. -/
def Obligations.ReceiveRead : Prop :=
  ∀ s : State,
    (∀ w : Word, decode 0x2000#16 w = .instr .ldUdata) ∧
    (s.rxFifo = [] → exec .ldUdata s = .next { s with fault := some ⟨.rxUnderflow, .access 0x2000#16 none⟩ }) ∧
    (∀ (b : Byte) (rest : List Byte), s.rxFifo = b :: rest →
      ∃ v : Word, v.setWidth 8 = b ∧ v.extractLsb' 8 24 = Config.drawUpper s.draws ∧
        exec .ldUdata s = .next { s with
          rxFifo := rest, rdata := v, draws := s.draws + 1
          trace := s.trace ++ [.acc s.ctx 0x2000#16 v] })

/-- `ST UDATA` (40_uart.md R63): the low byte joins the transmit FIFO; into a full FIFO it is the fault
`F_TX_OVERFLOW`; nothing else changes. -/
def Obligations.TransmitWrite : Prop :=
  ∀ (s : State) (val : Word),
    decode 0xA000#16 val = .instr (.stUdata val) ∧
    (s.txFifo.length = s.cfg.txDepth →
      exec (.stUdata val) s = .next { s with fault := some ⟨.txOverflow, .access 0xA000#16 (some val)⟩ }) ∧
    (s.txFifo.length ≠ s.cfg.txDepth →
      exec (.stUdata val) s = .next { s with
        txFifo := s.txFifo ++ [val.setWidth 8], trace := s.trace ++ [.acc s.ctx 0xA000#16 val] })

/-- `LD USTAT` (40_uart.md R64): bits 0 to 3 are `TXFF`, `RXFE`, `TXFE`, `RXNE`, the bits above 0; nothing else
changes. -/
def Obligations.OccupancyRead : Prop :=
  ∀ s : State, (∀ w : Word, decode 0x2004#16 w = .instr .ldUstat) ∧ ∃ v : Word,
    (∀ k, v.getLsbD k =
      ((decide (k = 0) && decide (s.txFifo.length = s.cfg.txDepth)) ||
       (decide (k = 1) && decide (s.rxFifo.length = 0)) ||
       (decide (k = 2) && decide (s.txFifo.length = 0)) ||
       (decide (k = 3) && decide (0 < s.rxFifo.length)))) ∧
    exec .ldUstat s = .next { s with rdata := v, trace := s.trace ++ [.acc s.ctx 0x2004#16 v] }

/-- `IE` and `ID` set and clear the acceptance flag, in either context, and change nothing else
(45_core_ops.md R101, R102). -/
def Obligations.AcceptanceFlag : Prop :=
  ∀ (s : State) (w : Word), decode 0xF000#16 w = .instr .ie ∧ decode 0xF004#16 w = .instr .id ∧
    exec .ie s = .next { s with cpuIe := true } ∧ exec .id s = .next { s with cpuIe := false }

/-- `IRET` (45_core_ops.md R103): from the handler it resumes the saved continuation in normal context and
changes nothing of the block; in normal context it is the fault `F_IRET_OUTSIDE`. -/
def Obligations.HandlerReturn : Prop :=
  ∀ s : State,
    (∀ w : Word, decode 0xF008#16 w = .instr .iret) ∧
    (∀ k : List Frame, s.ctx = .handler → s.saved = some k →
      exec .iret s = .next { s with ctx := .normal, cont := k, saved := none, trace := s.trace ++ [.iret] }) ∧
    (s.ctx = .normal → exec .iret s = .next { s with fault := some ⟨.iretOutside, .core 0xF008#16⟩ })

/-- The frame of all 25 operations: each answers a next state, in which every byte of RAM, the ring's counts,
the host's side, the configuration and the interleaving are as before; but for `IRET` so are the context and
both continuations; and at most one event joins the trace. That an operation that faults answers a next state too,
one that holds the fault in the field `fault`, is the model's reading (log entry 1, DEDUCED; 00_scope.md R10 names
the fault as an outcome of its own). -/
def Obligations.OperationFrame : Prop :=
  ∀ (i : Instr) (s : State), ∃ t : State, exec i s = .next t ∧
    (∀ a : Word, t.readByte a = s.readByte a) ∧
    t.rbHead = s.rbHead ∧ t.rbTail = s.rbTail ∧ t.rbDrops = s.rbDrops ∧
    t.rxScript = s.rxScript ∧ t.txOut = s.txOut ∧
    t.cfg = s.cfg ∧ t.isr = s.isr ∧ t.schedule = s.schedule ∧ t.choices = s.choices ∧
    (i ≠ .iret → t.ctx = s.ctx ∧ t.cont = s.cont ∧ t.saved = s.saved) ∧
    (t.trace = s.trace ∨ ∃ e : Event, t.trace = s.trace ++ [e])

/-- The tick agent (42_timer.md R85), in both directions. With the gate off or the counter stopped it has no step;
that its turn then changes nothing but the turn is the model's choice (log entry 3). Else an event at the last
count of a period sets `OVF`, whatever `OVF_IE` holds, and reloads or stops; any other count goes on, modulo 2^32.
Only the counter's own state and the trace change. -/
def Obligations.TickStep : Prop :=
  ∀ s : State, s.fault = none → s.mover = .tick →
    (s.clkEn = false ∨ s.tSt = false → s.enabled .tick = false ∧ step s = .next s.chosen) ∧
    (s.clkEn = true → s.tSt = true →
      ∀ last : Word, last = (match s.cfg.timerDir with | .down => 1#32 | .up => 0xFFFFFFFF#32) →
      (s.tCount = last → s.tAr = true →
        step s = .next { s.chosen with tOvf := true, tCount := s.tLoad, trace := s.trace ++ [.evt] }) ∧
      (s.tCount = last → s.tAr = false →
        step s = .next { s.chosen with
          tOvf := true, tCount := 0#32, tSt := false, trace := s.trace ++ [.evt] }) ∧
      (s.tCount ≠ last →
        step s = .next { s.chosen with
          tCount := match s.cfg.timerDir with | .down => s.tCount - 1#32 | .up => s.tCount + 1#32 }))

/-- The period law (42_timer.md R86), both directions: no event before the `ticksToEvent`-th tick, one at it. -/
def Obligations.PeriodLaw : Prop :=
  ∀ s : State, s.clkEn = true → s.tSt = true →
    (∀ n, n < ticksToEvent s.cfg.timerDir s.tCount →
      ticks n s = { s with tCount := match s.cfg.timerDir with
        | .down => s.tCount - BitVec.ofNat 32 n
        | .up => s.tCount + BitVec.ofNat 32 n }) ∧
    ticks (ticksToEvent s.cfg.timerDir s.tCount) s =
      { s with
        tOvf := true
        tCount := if s.tAr then s.tLoad else 0#32
        tSt := s.tAr
        trace := s.trace ++ [.evt] }

/-- In auto-reload mode from a freshly loaded counter, `n` ticks give `n` divided by the period many events
(42_timer.md R86): exactly `k` in `k` periods. -/
def Obligations.AutoReloadEvents : Prop :=
  ∀ (s : State) (n : Nat), s.clkEn = true → s.tSt = true → s.tAr = true → s.tCount = s.tLoad →
    evtCount (ticks n s).trace = evtCount s.trace + n / ticksToEvent s.cfg.timerDir s.tLoad

/-- The TX-drain agent (40_uart.md R65), in either context: the oldest byte goes from the FIFO to the line; with the
FIFO empty it has no step, and that its turn then changes nothing but the turn is the model's choice (log
entry 3). -/
def Obligations.DrainStep : Prop :=
  ∀ s : State, s.fault = none → s.mover = .txDrain →
    (s.txFifo = [] → s.enabled .txDrain = false ∧ step s = .next s.chosen) ∧
    (∀ (b : Byte) (rest : List Byte), s.txFifo = b :: rest →
      step s = .next { s.chosen with txFifo := rest, txOut := s.txOut ++ [b], trace := s.trace ++ [.tx b] })

/-- The RX-arrival agent (40_uart.md R66): the host's next byte joins the FIFO where there is room; into a full one
it is lost under `DROP_NEW`, and under `HOLD` the agent has no step; nor has it one with nothing to send. That a
turn without a step changes nothing but the turn is the model's choice (log entry 3). -/
def Obligations.ArrivalStep : Prop :=
  ∀ s : State, s.fault = none → s.mover = .rxArrival →
    (s.rxScript = [] → s.enabled .rxArrival = false ∧ step s = .next s.chosen) ∧
    (∀ (b : Byte) (rest : List Byte), s.rxScript = b :: rest →
      (s.rxFifo.length < s.cfg.rxDepth →
        step s = .next { s.chosen with
          rxScript := rest, rxFifo := s.rxFifo ++ [b], trace := s.trace ++ [.rx b] }) ∧
      (s.cfg.rxDepth ≤ s.rxFifo.length → s.cfg.rxOverrun = .dropNew →
        step s = .next { s.chosen with rxScript := rest, trace := s.trace ++ [.rxDrop b] }) ∧
      (s.cfg.rxDepth ≤ s.rxFifo.length → s.cfg.rxOverrun = .hold →
        s.enabled .rxArrival = false ∧ step s = .next s.chosen))

/-- The transmitter does not reorder or lose (40_uart.md R65): what has left followed by what waits only grows at
its end, by at most the one byte an operation of the processor writes. -/
def Obligations.TransmitOrderKept : Prop :=
  ∀ s t : State, step s = .next t →
    ∃ b : List Byte, t.txOut ++ t.txFifo = (s.txOut ++ s.txFifo) ++ b ∧ b.length ≤ 1 ∧
      (s.mover ≠ .processor → b = [])

/-- The receive FIFO changes only by the processor taking its oldest byte or by the host's next byte joining it
where there is room; the host's script only shrinks from its front, and a byte is lost at a full FIFO under
`DROP_NEW` only (40_uart.md R62, R66). -/
def Obligations.ReceiveOrderKept : Prop :=
  ∀ s t : State, step s = .next t →
    (t.rxScript = s.rxScript ∧
      (t.rxFifo = s.rxFifo ∨ (s.mover = .processor ∧ ∃ b, s.rxFifo = b :: t.rxFifo))) ∨
    (s.mover = .rxArrival ∧ ∃ b, s.rxScript = b :: t.rxScript ∧
      ((s.rxFifo.length < s.cfg.rxDepth ∧ t.rxFifo = s.rxFifo ++ [b]) ∨
        (s.cfg.rxDepth ≤ s.rxFifo.length ∧ s.cfg.rxOverrun = .dropNew ∧ t.rxFifo = s.rxFifo)))

/-- The delivery step (60_exceptions.md R117, R118): in normal context with acceptance on and a request pending it
puts the controller in service, saves the continuation and enters the handler, changing nothing else; with
`IC_PRIO` never written it is the fault `F_UNROUTED`. -/
def Obligations.DeliveryStep : Prop :=
  ∀ s : State, s.fault = none → s.mover = .delivery → s.ctx = .normal → s.cpuIe = true →
    ((s.tOvf && s.tIe) || s.icRearm) = true → s.icMasked = false → s.icActive = false →
    (s.icPrioValid = true →
      step s = .next { s.chosen with
        icActive := true, icRearm := false, saved := some s.cont, cont := [Frame.start s.isr]
        ctx := .handler, trace := s.trace ++ [.deliver] }) ∧
    (s.icPrioValid = false →
      step s = .next { s.chosen with fault := some ⟨.unrouted, .delivery⟩ })

/-- No nesting (60_exceptions.md R119): while the handler runs no step delivers, whatever the flags hold, and the
context is left by `IRET` alone. -/
def Obligations.NoNesting : Prop :=
  ∀ s t : State, s.ctx = .handler → step s = .next t →
    s.enabled .delivery = false ∧
    t.trace.count .deliver = s.trace.count .deliver ∧
    (t.ctx = .handler ∨ (t.ctx = .normal ∧ t.trace = s.trace ++ [.iret]))

/-- The handler is entered by a delivery only (60_exceptions.md R117, R118): a step that goes from normal to
handler context was a delivery, enabled and routed, and has saved the continuation. -/
def Obligations.EntryIsDelivery : Prop :=
  ∀ s t : State, step s = .next t → s.ctx = .normal → t.ctx = .handler →
    s.mover = .delivery ∧ s.cpuIe = true ∧ s.pending = true ∧ s.icPrioValid = true ∧
    t.saved = some s.cont ∧ t.icActive = true ∧ t.icRearm = false ∧ t.trace = s.trace ++ [.deliver]

/-- Every step keeps the invariant: RAM canonical, FIFOs within their depths, reserved `IC_PRIO` bits 0, a
continuation saved exactly in the handler, a service or latched re-arm only after routing. And no step changes
the parameters or the code the trap vector leads to. -/
def Obligations.StepKeepsInv : Prop :=
  ∀ s t : State, step s = .next t → (Inv s → Inv t) ∧ t.cfg = s.cfg ∧ t.isr = s.isr

/-- Every launch state has the invariant, and the state after reset under any legal configuration is a launch
state, with what 10_state.md R36 fixes as it fixes it. The values for what R36 leaves unspecified are the model's
(log entries 5 and 6) and are not stated. -/
def Obligations.LaunchHasInv : Prop :=
  (∀ s : State, Launch s → Inv s) ∧ Inv State.reset ∧
  (∀ (c : Config) (t : State), c.wf = true → t = State.resetWith c →
    Launch t ∧ t.cfg = c ∧ t.icPrioValid = false ∧ t.icActive = false ∧ t.icRearm = false ∧ t.txFifo = [] ∧
    t.rxFifo = [] ∧ t.cpuIe = false ∧ t.ctx = .normal ∧ t.saved = none ∧ t.txOut = [] ∧ t.trace = [] ∧
    t.fault = none)

/-- The trace lists events in the order of their steps (10_state.md R31): a step adds at most one, at its end;
and a fault adds none (60_exceptions.md R113). -/
def Obligations.TraceGrows : Prop :=
  ∀ s t : State, step s = .next t →
    (t.trace = s.trace ∨ ∃ e : Event, t.trace = s.trace ++ [e]) ∧ (t.fault ≠ none → t.trace = s.trace)

/-- The mask and the routing go one way (10_state.md R21, R22): no step masks an unmasked line or forgets that
`IC_PRIO` was written, and only an operation of the processor changes either. -/
def Obligations.MaskNeverSetAgain : Prop :=
  ∀ s t : State, step s = .next t →
    (t.icMasked = true → s.icMasked = true) ∧ (s.icPrioValid = true → t.icPrioValid = true) ∧
    (s.mover ≠ .processor → t.icMasked = s.icMasked ∧ t.icPrioValid = s.icPrioValid)

/-- `OVF` is set by a timer event and by nothing else (10_state.md R35): a step that raises it was a tick of a
gated-on, started counter and recorded the event; `TLOAD` and `OVF_IE` no agent but the processor changes. -/
def Obligations.OverflowSetByEventOnly : Prop :=
  ∀ s t : State, step s = .next t →
    (s.tOvf = false → t.tOvf = true →
      s.mover = .tick ∧ s.clkEn = true ∧ s.tSt = true ∧ t.trace = s.trace ++ [.evt]) ∧
    (s.mover ≠ .processor → t.tLoad = s.tLoad ∧ t.tIe = s.tIe ∧ t.clkEn = s.clkEn ∧ t.tAr = s.tAr)

/-- RAM: a write in a canonical memory is read back, leaves every other address alone and keeps the canonical
form; and canonical memories that read the same are the same. -/
def Obligations.RamWriteRead : Prop :=
  (∀ (m : Memory) (a c : Nat) (v : Byte), Memory.wf m = true →
    Memory.read (Memory.write m a v) a = v ∧
    (c ≠ a → Memory.read (Memory.write m a v) c = Memory.read m c) ∧
    Memory.wf (Memory.write m a v) = true) ∧
  (∀ m n : Memory, Memory.wf m = true → Memory.wf n = true →
    (∀ a, Memory.read m a = Memory.read n a) → m = n)

/-- `MemWrite(addr, 1, v)` and `MemRead(addr, 1)` outside the windows (00_scope.md R9, 20_memory.md R39): the byte
at the address the line computes takes the low byte, every other byte stays, nothing else changes; a read gives
the byte, to the line's name where it has one, and changes nothing of the block. That every address outside the
windows is RAM for a byte access is the model's choice (log entry 15), and so is that a value above 0xFF stores its
low byte (log entry 29). That a byte write changes no ring count at any such address is the model's choice too, since
the counts are fields without an address (log entry 7; 10_state.md R30 and 20_memory.md R39 put them in RAM). A free
value taken is counted (log entry 13). -/
def Obligations.RamByteAccess : Prop :=
  ∀ (s : State) (addr val : Expr) (a v : Word) (af vf : Bool), Memory.wf s.mem = true →
    addr.eval s = ⟨a, af⟩ → val.eval s = ⟨v, vf⟩ → windowAt s.cfg a = none →
    (∃ t : State, runLine (.writeAt .w8 addr val) s = .next t ∧ t.readByte a = v.setWidth 8 ∧
      (∀ c : Word, c ≠ a → t.readByte c = s.readByte c) ∧
      t = { s with mem := t.mem, draws := s.draws + (af || vf).toNat }) ∧
    runLine (.readAt .w8 addr none) s = .next { s with
      rdata := (s.readByte a).setWidth 32, draws := s.draws + af.toNat } ∧
    (∀ (n : Name) (f : Frame) (fs : List Frame), s.fault = none → s.cont = f :: fs →
      runLine (.readAt .w8 addr (some n)) s = .next { s with
        rdata := (s.readByte a).setWidth 32
        draws := s.draws + af.toNat
        cont := { f with words := bindName n ((s.readByte a).setWidth 32) f.words } :: fs })

/-- The windows of a legal configuration are disjoint (20_memory.md R38): an address lies in the one the model
finds. -/
def Obligations.WindowsDisjoint : Prop :=
  ∀ (c : Config) (w : Window) (a : Word), c.wf = true →
    (c.base w).toNat ≤ a.toNat → a.toNat < (c.base w).toNat + 0x1000 → windowAt c a = some w

/-- Admission of an access to a window (20_memory.md R43), the checks in their order: width, alignment, mapping,
whatever the gate and the direction; then the access of the register there. A fault changes nothing else. -/
def Obligations.AdmissionOrder : Prop :=
  ∀ (s : State) (d : Dir) (n : Width) (a v : Word) (w : Window) (off : BitVec 12),
    windowAt s.cfg a = some w → off = (a - s.cfg.base w).setWidth 12 →
    (n ≠ .w32 → ∃ c, procAccess d n a v s = .next { s with fault := some ⟨.width, c⟩ }) ∧
    (n = .w32 → a.toNat % 4 ≠ 0 → ∃ c, procAccess d n a v s = .next { s with fault := some ⟨.misaligned, c⟩ }) ∧
    (n = .w32 → a.toNat % 4 = 0 → off.toNat % 4 = 0 → registerAt w off = none →
      ∃ c, procAccess d n a v s = .next { s with fault := some ⟨.unmapped, c⟩ }) ∧
    (∀ r, n = .w32 → a.toNat % 4 = 0 → registerAt w off = some r →
      procAccess d n a v s = exec (accessOf d r v) s)

/-- An instruction fetch from a window is the fault `F_FETCH` (20_memory.md R50). The fetch as a line of its own, and
that one outside the windows changes nothing, are the model's choice (log entry 16), and what the fault records is
its reading (log entry 23, DEDUCED). A free value taken is counted (log entry 13). -/
def Obligations.WindowFetchFaults : Prop :=
  ∀ (s : State) (addr : Expr) (a : Word) (free : Bool), addr.eval s = ⟨a, free⟩ →
    (∀ w, windowAt s.cfg a = some w →
      runLine (.fetchAt addr) s = .next { s with
        draws := s.draws + free.toNat, fault := some ⟨.fetch, .fetch a⟩ }) ∧
    (windowAt s.cfg a = none → runLine (.fetchAt addr) s = .next { s with draws := s.draws + free.toNat })

/-- `reload(F, T)` (44_timer_driver.md R96): the truncated product modulo 2^32, counted from the other end when
counting up; its period (42_timer.md R86) is the product where the product is from 1 to 2^32 − 1. The period in
seconds as a quotient of naturals, and the quotient 0 at denominator 0, are the model's choice (log entry 25). -/
def Obligations.ReloadValue : Prop :=
  ∀ f num den : Nat,
    (reload .down f num den).toNat = f * num / den % 2 ^ 32 ∧
    (reload .up f num den).toNat = (2 ^ 32 - f * num / den % 2 ^ 32) % 2 ^ 32 ∧
    (∀ dir, 1 ≤ f * num / den → f * num / den < 2 ^ 32 →
      ticksToEvent dir (reload dir f num den) = f * num / den)

/-- `init()` (44_timer_driver.md R98), no other agent between its lines: from any state without a fault its nine
accesses complete in order and leave the postcondition, nothing else of the block changed, and the caller's next
line comes after them. That a line is one step is the model's reading (log entry 12, DEDUCED). -/
def Obligations.InitSequence : Prop :=
  ∀ (s : State) (fs : List Frame) (r p : Word), s.fault = none → s.cont = Frame.start (initLines s.cfg) :: fs →
    r = reload s.cfg.timerDir s.cfg.clockHz s.cfg.periodNum s.cfg.periodDen →
    p = BitVec.ofNat 32 s.cfg.prioValue →
    ∃ t : State, cpuSteps 9 s = .next t ∧ fetchLine t.cont = fetchLine fs ∧
      t = { s with
        clkEn := true, icMasked := false, icPrio := prioField s.cfg p, icPrioValid := true
        tSt := true, tAr := true, tOvf := false, tLoad := r, tCount := r, tIe := true
        cont := t.cont
        trace := s.trace ++
          [.acc s.ctx 0xB000#16 1#32, .acc s.ctx 0x9000#16 1#32, .acc s.ctx 0x9004#16 p,
           .acc s.ctx 0x8000#16 0#32, .acc s.ctx 0x800C#16 0xFFFFFFFF#32, .acc s.ctx 0x8008#16 r,
           .acc s.ctx 0x8004#16 r, .acc s.ctx 0x8010#16 1#32, .acc s.ctx 0x8000#16 3#32] }

/-- `handle_interrupt()` with the gate on (44_timer_driver.md R99), no other agent between its lines. Steps (a) and
(b): the status is cleared and the interrupt acknowledged with the line low, so that no re-arm is latched; one
acknowledge is in the trace. Step (c), the next line, is the payload `ISR_OUTPUT` selects (46_sync_wrapper.md
R104), and after it comes the caller's. That a line is one step is the model's reading (log entry 12, DEDUCED). -/
def Obligations.HandlerSequence : Prop :=
  ∀ (s : State) (fs : List Frame), s.fault = none → s.clkEn = true →
    s.cont = Frame.start (handlerLines s.cfg) :: fs →
    ∃ t : State, cpuSteps 2 s = .next t ∧ ackCount t.trace = ackCount s.trace + 1 ∧
      t = { s with
        tOvf := false, icActive := false, cont := t.cont
        trace := s.trace ++ [.acc s.ctx 0x800C#16 1#32, .acc s.ctx 0x9008#16 1#32] } ∧
      ∃ c : List Frame, fetchLine c = fetchLine fs ∧
        fetchLine t.cont = some (match s.cfg.isrOutput with
          | .direct => .call (.putString (.lit s.cfg.diagLine))
          | .ring => .call (.ringPush (.lit s.cfg.diagLine)), c)

/-- Acknowledge before clear (70_reset_and_hazards.md R137): from a service with the line high the wrong order
leaves a request pending exactly where the free value latched a re-arm, though the line is low. -/
def Obligations.AcknowledgeBeforeClear : Prop :=
  ∀ (s : State) (v : Word), s.fault = none → s.clkEn = true → s.icActive = true → s.icMasked = false →
    s.tOvf = true → s.tIe = true →
    ∃ t : State, execAll [.stIcAck v, .stTisr 1#32] s = .next t ∧
      t.line = false ∧ t.icActive = false ∧ t.pending = Config.drawRearm s.draws ∧ t.fault = none

/-- `ST TIER, #0` drops the line but not a latched request, which may be delivered while the processor accepts
interrupts; `ID`, gate on or off, excludes every delivery (70_reset_and_hazards.md R140, which the spec marks as
its own inference from 10_state.md R34 and 43_intc.md R92). -/
def Obligations.EnableIsNoCriticalSection : Prop :=
  ∀ s : State,
    (s.clkEn = true → ∃ t, exec (.stTier 0#32) s = .next t ∧ t.line = false ∧
      (s.icRearm = true → s.icMasked = false → s.icActive = false →
        t.pending = true ∧ (s.ctx = .normal → s.cpuIe = true → t.enabled .delivery = true))) ∧
    (∃ t, exec .id s = .next t ∧ t.enabled .delivery = false)

/-- The storm (60_exceptions.md R121 (1)): a delivery, an acknowledge and a return with the status left set, and
the same interrupt is deliverable again. -/
def Obligations.UnclearedStatusRedelivers : Prop :=
  ∀ (s : State) (v : Word), s.fault = none → s.deliverable = true → s.line = true → s.icPrioValid = true →
    ∃ t : State, execAll [.stIcAck v, .iret] s.takeInterrupt = .next t ∧
      t.cont = s.cont ∧ t.line = true ∧ t.deliverable = true ∧ t.fault = none

/-- The stall (43_intc.md R93, 60_exceptions.md R121 (2)): while an interrupt is in service none is delivered,
and no step but an acknowledge write ends the service. The spec marks R93 as its own inference from 10_state.md
R34; that only an acknowledge ends the service follows from 43_intc.md R92 and 10_state.md R26. -/
def Obligations.ServiceBlocksDelivery : Prop :=
  ∀ s t : State, s.icActive = true → step s = .next t →
    s.enabled .delivery = false ∧ t.trace.count .deliver = s.trace.count .deliver ∧
    (t.icActive = false → ∃ v, t.trace = s.trace ++ [.acc s.ctx 0x9008#16 v])

/-- `put_byte(b)` (41_uart_driver.md R68). With no other agent between its lines: with room it polls once and the
byte joins the FIFO; with the FIFO full its poll leads back to the poll and nothing is written. With another context
between the poll and the write (46_sync_wrapper.md R105): where the FIFO is full by then, the write is the fault
`F_TX_OVERFLOW` and the byte does not join it. That a line is one step is the model's reading (log entry 12,
DEDUCED). -/
def Obligations.PutBytePolls : Prop :=
  ∀ (s : State) (fs : List Frame) (b : Byte), s.fault = none →
    (s.cont = Frame.call putByteLines [(nB, b.setWidth 32)] [] none none :: fs →
      (s.txFifo.length ≠ s.cfg.txDepth →
        ∃ t : State, cpuSteps 3 s = .next t ∧ fetchLine t.cont = fetchLine fs ∧
          t = { s with
            txFifo := s.txFifo ++ [b], rdata := s.ustat, cont := t.cont
            trace := s.trace ++ [.acc s.ctx 0x2004#16 s.ustat, .acc s.ctx 0xA000#16 (b.setWidth 32)] }) ∧
      (s.txFifo.length = s.cfg.txDepth →
        ∃ t : State, cpuSteps 2 s = .next t ∧ t.frame.pos = 0 ∧ t.frame.code = putByteLines ∧
          t = { s with
            rdata := s.ustat, cont := t.cont, trace := s.trace ++ [.acc s.ctx 0x2004#16 s.ustat] })) ∧
    (∀ f : Frame, f.code = putByteLines → f.pos = 2 → f.words.lookup nB = some (b.setWidth 32) →
      s.cont = f :: fs → s.txFifo.length = s.cfg.txDepth →
      ∃ t : State, cpuSteps 1 s = .next t ∧
        t = { s with
          cont := t.cont, fault := some ⟨.txOverflow, .access 0xA000#16 (some (b.setWidth 32))⟩ })

/-- `get_byte()` (41_uart_driver.md R69), no other agent between its lines: with a byte waiting the oldest one is
bound to the caller's name, whatever the drawn bits are; with none its poll leads back to the poll. Nothing else
changes. That a line is one step is the model's reading (log entry 12, DEDUCED). -/
def Obligations.GetByteMasks : Prop :=
  ∀ (s : State) (f : Frame) (fs : List Frame) (dst : Name), s.fault = none →
    s.cont = Frame.call getByteLines [] [] (some dst) none :: f :: fs →
    (∀ (b : Byte) (rest : List Byte), s.rxFifo = b :: rest →
      ∃ (t : State) (v : Word), cpuSteps 5 s = .next t ∧ v.setWidth 8 = b ∧
        t = { s with
          rxFifo := rest, rdata := v, draws := s.draws + 1
          cont := { f with words := bindName dst (b.setWidth 32) f.words } :: fs
          trace := s.trace ++ [.acc s.ctx 0x2004#16 s.ustat, .acc s.ctx 0x2000#16 v] }) ∧
    (s.rxFifo = [] →
      ∃ t : State, cpuSteps 2 s = .next t ∧ t.frame.pos = 0 ∧ t.frame.code = getByteLines ∧
        t = { s with
          rdata := s.ustat, cont := t.cont, trace := s.trace ++ [.acc s.ctx 0x2004#16 s.ustat] })

/-- `read_line` at its limits (41_uart_driver.md R71), the caller taking the length or not: capacity 0 is the fault
`F_DRIVER_ARG`; capacity 1 returns the empty line with no access at all. That a line is one step, the return one of
its own, is the model's reading (log entry 12, DEDUCED). -/
def Obligations.ReadLineLimits : Prop :=
  ∀ (s : State) (f : Frame) (fs : List Frame) (dst : Name) (n : Option Name) (maxLen : Nat), s.fault = none →
    s.cont = Frame.call (readLineLines s.cfg maxLen) [] [] n (some dst) :: f :: fs →
    (maxLen = 0 →
      ∃ t : State, cpuSteps 1 s = .next t ∧
        t = { s with cont := t.cont, fault := some ⟨.driverArg, .readLine⟩ }) ∧
    (maxLen = 1 →
      ∃ t : State, cpuSteps 3 s = .next t ∧
        t = { s with cont :=
          { f with
            words := n.elim f.words fun n => bindName n 0#32 f.words
            strs := bindName dst [] f.strs } :: fs })

/-- `read_line(max_len)` with its input waiting and room to echo (41_uart_driver.md R71), no other agent between its
lines. A whole line: it returns exactly the line and its length, echoes the line and a newline, takes the terminator
and leaves the rest unread. `max_len − 1` bytes without a terminator (90_conflicts.md C5): it returns exactly these,
echoes them without a newline and leaves the rest, its terminator too, unread. The caller takes the length or
not. -/
def Obligations.ReadLineReturnsLine : Prop :=
  ∀ (s : State) (f : Frame) (fs : List Frame) (dst : Name) (n : Option Name) (maxLen : Nat) (txt rest : List Byte),
    s.fault = none →
    s.cont = Frame.call (readLineLines s.cfg maxLen) [] [] n (some dst) :: f :: fs →
    (∀ b ∈ txt, b ≠ 0x0A#8 ∧ b ≠ 0x0D#8) →
    (∀ e : Byte, txt.length + 1 < maxLen → (e = 0x0A#8 ∨ e = 0x0D#8) → s.rxFifo = txt ++ e :: rest →
      s.txFifo.length + txt.length + s.cfg.echoNl.length ≤ s.cfg.txDepth →
      ∃ (k : Nat) (t : State), cpuSteps k s = .next t ∧ t.fault = none ∧
        t.rxFifo = rest ∧ t.txFifo = s.txFifo ++ txt ++ s.cfg.echoNl ∧
        t.cont = { f with
          words := n.elim f.words fun n => bindName n (BitVec.ofNat 32 txt.length) f.words
          strs := bindName dst txt f.strs } :: fs) ∧
    (txt.length + 1 = maxLen → s.rxFifo = txt ++ rest →
      s.txFifo.length + txt.length ≤ s.cfg.txDepth →
      ∃ (k : Nat) (t : State), cpuSteps k s = .next t ∧ t.fault = none ∧
        t.rxFifo = rest ∧ t.txFifo = s.txFifo ++ txt ∧
        t.cont = { f with
          words := n.elim f.words fun n => bindName n (BitVec.ofNat 32 txt.length) f.words
          strs := bindName dst txt f.strs } :: fs)

/-- `ring_push(line)` (46_sync_wrapper.md R107) in a legal configuration. A line that fits is in the ring whole, at
the slots the head counts, and the head moves by its length afterwards; every other byte of RAM, the tail and
the drops are as before. Of a line that does not fit one more drop is counted and nothing else changes. The drop at
an occupancy above `RB_CAP` is the model's reading (log entry 18, DEDUCED), and so is that a line of the expansion is
one step (log entry 12, DEDUCED). -/
def Obligations.RingPushWholeOrDropped : Prop :=
  ∀ (s : State) (fs : List Frame) (txt : List Byte), s.fault = none → s.cfg.wf = true → Memory.wf s.mem = true →
    s.cont = Frame.call (ringPushLines s.cfg) [] [(nS, txt)] none none :: fs →
    (txt.length + s.rbOcc.toNat ≤ s.cfg.rbCap →
      ∃ (k : Nat) (t : State), cpuSteps k s = .next t ∧
        t.rbHead = s.rbHead + BitVec.ofNat 32 txt.length ∧
        (∀ i b, txt[i]? = some b → t.rbByte (s.rbHead + BitVec.ofNat 32 i) = b) ∧
        (∀ a : Word, (∀ i, i < txt.length → a ≠ ringAddr s.cfg (s.rbHead + BitVec.ofNat 32 i)) →
          t.readByte a = s.readByte a) ∧
        t = { s with rbHead := t.rbHead, mem := t.mem, cont := t.cont } ∧ fetchLine t.cont = fetchLine fs) ∧
    (s.cfg.rbCap < txt.length + s.rbOcc.toNat →
      ∃ t : State, cpuSteps 4 s = .next t ∧ t = { s with rbDrops := s.rbDrops + 1#32, cont := fs })

/-- `ring_drain()` (46_sync_wrapper.md R108) with room in the transmit FIFO, no other agent between its lines: the
ring's bytes join the FIFO oldest first and the tail reaches the head; the head, the drops and RAM are as
before. -/
def Obligations.RingDrainSends : Prop :=
  ∀ (s : State) (fs : List Frame), s.fault = none → s.cfg.wf = true →
    s.cont = Frame.call (ringDrainLines s.cfg) [] [] none none :: fs →
    s.txFifo.length + s.rbOcc.toNat ≤ s.cfg.txDepth →
    ∃ (k : Nat) (t : State), cpuSteps k s = .next t ∧ t.fault = none ∧
      t.txFifo = s.txFifo ++ (List.range s.rbOcc.toNat).map (fun i => s.rbByte (s.rbTail + BitVec.ofNat 32 i)) ∧
      t.rbTail = s.rbHead ∧ t.rbHead = s.rbHead ∧ t.rbDrops = s.rbDrops ∧ t.mem = s.mem ∧
      fetchLine t.cont = fetchLine fs

/-- The critical section (46_sync_wrapper.md R110): entering gives the caller the acceptance flag and clears it;
leaving with what entering gave restores it, so sections nest. That a line is one step, the return one of its own,
is the model's reading (log entry 12, DEDUCED). -/
def Obligations.CriticalSectionRestores : Prop :=
  ∀ (s : State) (f : Frame) (fs : List Frame) (k : Name), s.fault = none →
    s.cont = Frame.call csEnterLines [] [] (some k) none :: f :: fs →
    ∃ t : State, cpuSteps 3 s = .next t ∧
      t = { s with
        cpuIe := false
        cont := { f with words := bindName k (zextBit s.cpuIe) f.words } :: fs } ∧
      (∀ gs : List Frame, ∃ (n : Nat) (u : State),
        cpuSteps n { t with cont := Frame.call csExitLines [(nK, zextBit s.cpuIe)] [] none none :: gs } = .next u ∧
        u = { t with cpuIe := s.cpuIe, cont := u.cont } ∧ fetchLine u.cont = fetchLine gs)

/-- The end of a run (60_exceptions.md R129): the first state, counted from the start, in which the program has run
its last line in normal context, without a fault and with nothing left in the transmit FIFO; a run that stops before
has none. The bound `n` on the steps looked at is the model's. -/
def Obligations.RunEndsAtFirst : Prop :=
  ∀ (n : Nat) (s t : State),
    State.endWithin n s = some t ↔
      ∃ k, k ≤ n ∧ Host.Core.run Sys2Proof.core k s = .next t ∧
        (fetchLine t.cont = none ∧ t.ctx = .normal ∧ t.fault = none ∧ t.txFifo = []) ∧
        ∀ (m : Nat) (u : State), m < k → Host.Core.run Sys2Proof.core m s = .next u →
          ¬ (fetchLine u.cont = none ∧ u.ctx = .normal ∧ u.fault = none ∧ u.txFifo = [])

/-- No value a line computes makes a step refuse: from a state without a fault a step answers a next state, whoever's
turn it is, names never written and values no rule states among what its line computes (log entries 13 and 28,
DESIGN CHOICE). The next state may be one that holds a fault in the field `fault`, which ends the run (60_exceptions.md
R114); that a faulting line answers a next state too is the model's reading (log entry 1, DEDUCED). The premises
leave out the words that spell no operation (30_encoding.md R53, R55) and the accesses wider than a byte outside the
windows (20_memory.md R39, log entry 15), which are refused. -/
def Obligations.DataNeverStopsAStep : Prop :=
  ∀ s : State, s.fault = none →
    (∀ l fs, s.mover = .processor → fetchLine s.chosen.cont = some (l, fs) →
      (∀ ad e dst, l = .op ad e dst → (adRegion ad).toNat ≤ 3 ∨ ad ∈ tableWords) ∧
      (∀ n addr dst, l = .readAt n addr dst →
        n = .w8 ∨ windowAt s.cfg (addr.eval { s.chosen with cont := fs }).val ≠ none) ∧
      (∀ n addr val, l = .writeAt n addr val →
        n = .w8 ∨ windowAt s.cfg (addr.eval { s.chosen with cont := fs }).val ≠ none)) →
    ∃ t : State, step s = .next t
end

