-- ==== Sys2Proof/Laws/Memory.lean ====
section
/-! SUPPORT. The laws of RAM: reading what was written, leaving the rest alone, keeping the canonical form,
and equal reads meaning equal memories. -/

namespace Sys2Proof.Machine

@[simp] theorem Memory.read_nil (a : Nat) : Memory.read [] a = ramReset := rfl

theorem Memory.read_cons (k : Nat) (b : Byte) (m : Memory) (a : Nat) :
    Memory.read ((k, b) :: m) a = if k = a then b else Memory.read m a := rfl

theorem Memory.above_cons (a k : Nat) (b : Byte) (m : Memory) :
    Memory.above a ((k, b) :: m) = true ↔ a < k ∧ Memory.above a m = true := by
  simp [Memory.above]

theorem Memory.wf_cons (k : Nat) (b : Byte) (m : Memory) :
    Memory.wf ((k, b) :: m) = true ↔ b ≠ ramReset ∧ Memory.above k m = true ∧ Memory.wf m = true := by
  simp [Memory.wf, and_assoc]

/-- Below every listed address memory reads as unlisted. -/
theorem Memory.read_of_above {a : Nat} {m : Memory} (h : Memory.above a m = true) :
    Memory.read m a = ramReset := by
  induction m with
  | nil => rfl
  | cons c m ih =>
    obtain ⟨k, b⟩ := c
    rw [Memory.above_cons] at h
    rw [Memory.read_cons, if_neg (by omega), ih h.2]

theorem Memory.above_mono {a b : Nat} {m : Memory} (hab : a ≤ b) (h : Memory.above b m = true) :
    Memory.above a m = true := by
  induction m with
  | nil => rfl
  | cons c m ih =>
    obtain ⟨k, v⟩ := c
    rw [Memory.above_cons] at h ⊢
    exact ⟨by omega, ih h.2⟩

theorem Memory.above_cell {a k : Nat} {v : Byte} {m : Memory} (hk : k < a) (h : Memory.above k m = true) :
    Memory.above k (Memory.cell a v m) = true := by
  unfold Memory.cell
  split
  · exact h
  · exact (Memory.above_cons ..).2 ⟨hk, h⟩

theorem Memory.wf_cell {a : Nat} {v : Byte} {m : Memory} (ha : Memory.above a m = true)
    (h : Memory.wf m = true) : Memory.wf (Memory.cell a v m) = true := by
  unfold Memory.cell
  split
  · exact h
  · exact (Memory.wf_cons ..).2 ⟨by assumption, ha, h⟩

theorem Memory.above_write {a k : Nat} {v : Byte} {m : Memory} (hk : k < a) (h : Memory.above k m = true) :
    Memory.above k (Memory.write m a v) = true := by
  induction m with
  | nil => exact Memory.above_cell hk h
  | cons c m ih =>
    obtain ⟨j, b⟩ := c
    have h' := (Memory.above_cons ..).1 h
    unfold Memory.write
    split
    · exact Memory.above_cell hk h
    · split
      · exact Memory.above_cell hk h'.2
      · exact (Memory.above_cons ..).2 ⟨h'.1, ih h'.2⟩

/-- A write keeps the canonical form. -/
theorem Memory.wf_write {m : Memory} (a : Nat) (v : Byte) (h : Memory.wf m = true) :
    Memory.wf (Memory.write m a v) = true := by
  induction m with
  | nil => exact Memory.wf_cell rfl rfl
  | cons c m ih =>
    obtain ⟨k, b⟩ := c
    have h' := (Memory.wf_cons ..).1 h
    unfold Memory.write
    split
    · rename_i hlt
      exact Memory.wf_cell ((Memory.above_cons ..).2 ⟨hlt, Memory.above_mono (by omega) h'.2.1⟩) h
    · split
      · rename_i heq
        exact Memory.wf_cell (heq ▸ h'.2.1) h'.2.2
      · exact (Memory.wf_cons ..).2 ⟨h'.1, Memory.above_write (by omega) h'.2.1, ih h'.2.2⟩

theorem Memory.read_cell_same {a : Nat} {v : Byte} {m : Memory} (h : Memory.above a m = true) :
    Memory.read (Memory.cell a v m) a = v := by
  unfold Memory.cell
  split
  · rename_i hv
    rw [Memory.read_of_above h, hv]
  · simp [Memory.read_cons]

theorem Memory.read_cell_other {a c : Nat} {v : Byte} {m : Memory} (h : c ≠ a) :
    Memory.read (Memory.cell a v m) c = Memory.read m c := by
  unfold Memory.cell
  split
  · rfl
  · simp [Memory.read_cons, h.symm]

/-- A read after a write to the same address gives the byte written. -/
theorem Memory.read_write_same {m : Memory} (a : Nat) (v : Byte) (h : Memory.wf m = true) :
    Memory.read (Memory.write m a v) a = v := by
  induction m with
  | nil => exact Memory.read_cell_same rfl
  | cons c m ih =>
    obtain ⟨k, b⟩ := c
    have h' := (Memory.wf_cons ..).1 h
    unfold Memory.write
    split
    · exact Memory.read_cell_same ((Memory.above_cons ..).2 ⟨by assumption, Memory.above_mono (by omega) h'.2.1⟩)
    · split
      · rename_i heq
        exact Memory.read_cell_same (heq ▸ h'.2.1)
      · rename_i hne
        rw [Memory.read_cons, if_neg (fun e => hne e.symm), ih h'.2.2]

/-- A write leaves every other address alone. -/
theorem Memory.read_write_other {m : Memory} {a c : Nat} (v : Byte) (h : c ≠ a) :
    Memory.read (Memory.write m a v) c = Memory.read m c := by
  induction m with
  | nil => exact Memory.read_cell_other h
  | cons d m ih =>
    obtain ⟨k, b⟩ := d
    unfold Memory.write
    split
    · exact Memory.read_cell_other h
    · split
      · rename_i heq
        rw [Memory.read_cell_other h, Memory.read_cons, if_neg (by omega)]
      · simp only [Memory.read_cons, ih]

theorem Memory.read_of_above_cons {k : Nat} {b : Byte} {m : Memory} (h : Memory.wf ((k, b) :: m) = true) (a : Nat) :
    Memory.read m a = if k = a then ramReset else Memory.read ((k, b) :: m) a := by
  have h' := (Memory.wf_cons ..).1 h
  by_cases e : k = a
  · simp [e, Memory.read_of_above (e ▸ h'.2.1)]
  · simp [Memory.read_cons, e]

end Sys2Proof.Machine
end

