-- ==== Sys2Proof/Laws/State.lean ====
section
/-! SUPPORT. One lemma per field of State for each shared update, so that no later proof unfolds a record
update; and the updates of the continuation, which change nothing else. -/

namespace Sys2Proof.Machine

@[simp] theorem State.emit_cfg (s : State) (e : Event) : (s.emit e).cfg = s.cfg := rfl
@[simp] theorem State.emit_clkEn (s : State) (e : Event) : (s.emit e).clkEn = s.clkEn := rfl
@[simp] theorem State.emit_tSt (s : State) (e : Event) : (s.emit e).tSt = s.tSt := rfl
@[simp] theorem State.emit_tAr (s : State) (e : Event) : (s.emit e).tAr = s.tAr := rfl
@[simp] theorem State.emit_tCount (s : State) (e : Event) : (s.emit e).tCount = s.tCount := rfl
@[simp] theorem State.emit_tLoad (s : State) (e : Event) : (s.emit e).tLoad = s.tLoad := rfl
@[simp] theorem State.emit_tOvf (s : State) (e : Event) : (s.emit e).tOvf = s.tOvf := rfl
@[simp] theorem State.emit_tIe (s : State) (e : Event) : (s.emit e).tIe = s.tIe := rfl
@[simp] theorem State.emit_icMasked (s : State) (e : Event) : (s.emit e).icMasked = s.icMasked := rfl
@[simp] theorem State.emit_icPrio (s : State) (e : Event) : (s.emit e).icPrio = s.icPrio := rfl
@[simp] theorem State.emit_icPrioValid (s : State) (e : Event) : (s.emit e).icPrioValid = s.icPrioValid := rfl
@[simp] theorem State.emit_icActive (s : State) (e : Event) : (s.emit e).icActive = s.icActive := rfl
@[simp] theorem State.emit_icRearm (s : State) (e : Event) : (s.emit e).icRearm = s.icRearm := rfl
@[simp] theorem State.emit_txFifo (s : State) (e : Event) : (s.emit e).txFifo = s.txFifo := rfl
@[simp] theorem State.emit_rxFifo (s : State) (e : Event) : (s.emit e).rxFifo = s.rxFifo := rfl
@[simp] theorem State.emit_rxScript (s : State) (e : Event) : (s.emit e).rxScript = s.rxScript := rfl
@[simp] theorem State.emit_txOut (s : State) (e : Event) : (s.emit e).txOut = s.txOut := rfl
@[simp] theorem State.emit_cpuIe (s : State) (e : Event) : (s.emit e).cpuIe = s.cpuIe := rfl
@[simp] theorem State.emit_ctx (s : State) (e : Event) : (s.emit e).ctx = s.ctx := rfl
@[simp] theorem State.emit_cont (s : State) (e : Event) : (s.emit e).cont = s.cont := rfl
@[simp] theorem State.emit_saved (s : State) (e : Event) : (s.emit e).saved = s.saved := rfl
@[simp] theorem State.emit_isr (s : State) (e : Event) : (s.emit e).isr = s.isr := rfl
@[simp] theorem State.emit_rdata (s : State) (e : Event) : (s.emit e).rdata = s.rdata := rfl
@[simp] theorem State.emit_mem (s : State) (e : Event) : (s.emit e).mem = s.mem := rfl
@[simp] theorem State.emit_rbHead (s : State) (e : Event) : (s.emit e).rbHead = s.rbHead := rfl
@[simp] theorem State.emit_rbTail (s : State) (e : Event) : (s.emit e).rbTail = s.rbTail := rfl
@[simp] theorem State.emit_rbDrops (s : State) (e : Event) : (s.emit e).rbDrops = s.rbDrops := rfl
@[simp] theorem State.emit_trace (s : State) (e : Event) : (s.emit e).trace = s.trace ++ [e] := rfl
@[simp] theorem State.emit_fault (s : State) (e : Event) : (s.emit e).fault = s.fault := rfl
@[simp] theorem State.emit_schedule (s : State) (e : Event) : (s.emit e).schedule = s.schedule := rfl
@[simp] theorem State.emit_choices (s : State) (e : Event) : (s.emit e).choices = s.choices := rfl
@[simp] theorem State.emit_draws (s : State) (e : Event) : (s.emit e).draws = s.draws := rfl

@[simp] theorem State.raise_cfg (s : State) (f : Fault) (c : Culprit) : (s.raise f c).cfg = s.cfg := rfl
@[simp] theorem State.raise_clkEn (s : State) (f : Fault) (c : Culprit) : (s.raise f c).clkEn = s.clkEn := rfl
@[simp] theorem State.raise_tSt (s : State) (f : Fault) (c : Culprit) : (s.raise f c).tSt = s.tSt := rfl
@[simp] theorem State.raise_tAr (s : State) (f : Fault) (c : Culprit) : (s.raise f c).tAr = s.tAr := rfl
@[simp] theorem State.raise_tCount (s : State) (f : Fault) (c : Culprit) : (s.raise f c).tCount = s.tCount := rfl
@[simp] theorem State.raise_tLoad (s : State) (f : Fault) (c : Culprit) : (s.raise f c).tLoad = s.tLoad := rfl
@[simp] theorem State.raise_tOvf (s : State) (f : Fault) (c : Culprit) : (s.raise f c).tOvf = s.tOvf := rfl
@[simp] theorem State.raise_tIe (s : State) (f : Fault) (c : Culprit) : (s.raise f c).tIe = s.tIe := rfl
@[simp] theorem State.raise_icMasked (s : State) (f : Fault) (c : Culprit) : (s.raise f c).icMasked = s.icMasked := rfl
@[simp] theorem State.raise_icPrio (s : State) (f : Fault) (c : Culprit) : (s.raise f c).icPrio = s.icPrio := rfl
@[simp] theorem State.raise_icPrioValid (s : State) (f : Fault) (c : Culprit) : (s.raise f c).icPrioValid = s.icPrioValid := rfl
@[simp] theorem State.raise_icActive (s : State) (f : Fault) (c : Culprit) : (s.raise f c).icActive = s.icActive := rfl
@[simp] theorem State.raise_icRearm (s : State) (f : Fault) (c : Culprit) : (s.raise f c).icRearm = s.icRearm := rfl
@[simp] theorem State.raise_txFifo (s : State) (f : Fault) (c : Culprit) : (s.raise f c).txFifo = s.txFifo := rfl
@[simp] theorem State.raise_rxFifo (s : State) (f : Fault) (c : Culprit) : (s.raise f c).rxFifo = s.rxFifo := rfl
@[simp] theorem State.raise_rxScript (s : State) (f : Fault) (c : Culprit) : (s.raise f c).rxScript = s.rxScript := rfl
@[simp] theorem State.raise_txOut (s : State) (f : Fault) (c : Culprit) : (s.raise f c).txOut = s.txOut := rfl
@[simp] theorem State.raise_cpuIe (s : State) (f : Fault) (c : Culprit) : (s.raise f c).cpuIe = s.cpuIe := rfl
@[simp] theorem State.raise_ctx (s : State) (f : Fault) (c : Culprit) : (s.raise f c).ctx = s.ctx := rfl
@[simp] theorem State.raise_cont (s : State) (f : Fault) (c : Culprit) : (s.raise f c).cont = s.cont := rfl
@[simp] theorem State.raise_saved (s : State) (f : Fault) (c : Culprit) : (s.raise f c).saved = s.saved := rfl
@[simp] theorem State.raise_isr (s : State) (f : Fault) (c : Culprit) : (s.raise f c).isr = s.isr := rfl
@[simp] theorem State.raise_rdata (s : State) (f : Fault) (c : Culprit) : (s.raise f c).rdata = s.rdata := rfl
@[simp] theorem State.raise_mem (s : State) (f : Fault) (c : Culprit) : (s.raise f c).mem = s.mem := rfl
@[simp] theorem State.raise_rbHead (s : State) (f : Fault) (c : Culprit) : (s.raise f c).rbHead = s.rbHead := rfl
@[simp] theorem State.raise_rbTail (s : State) (f : Fault) (c : Culprit) : (s.raise f c).rbTail = s.rbTail := rfl
@[simp] theorem State.raise_rbDrops (s : State) (f : Fault) (c : Culprit) : (s.raise f c).rbDrops = s.rbDrops := rfl
@[simp] theorem State.raise_trace (s : State) (f : Fault) (c : Culprit) : (s.raise f c).trace = s.trace := rfl
@[simp] theorem State.raise_fault (s : State) (f : Fault) (c : Culprit) : (s.raise f c).fault = some ⟨f, c⟩ := rfl
@[simp] theorem State.raise_schedule (s : State) (f : Fault) (c : Culprit) : (s.raise f c).schedule = s.schedule := rfl
@[simp] theorem State.raise_choices (s : State) (f : Fault) (c : Culprit) : (s.raise f c).choices = s.choices := rfl
@[simp] theorem State.raise_draws (s : State) (f : Fault) (c : Culprit) : (s.raise f c).draws = s.draws := rfl

@[simp] theorem State.readDone_cfg (s : State) (ad : AdWord) (v : Word) : (s.readDone ad v).cfg = s.cfg := rfl
@[simp] theorem State.readDone_clkEn (s : State) (ad : AdWord) (v : Word) : (s.readDone ad v).clkEn = s.clkEn := rfl
@[simp] theorem State.readDone_tSt (s : State) (ad : AdWord) (v : Word) : (s.readDone ad v).tSt = s.tSt := rfl
@[simp] theorem State.readDone_tAr (s : State) (ad : AdWord) (v : Word) : (s.readDone ad v).tAr = s.tAr := rfl
@[simp] theorem State.readDone_tCount (s : State) (ad : AdWord) (v : Word) : (s.readDone ad v).tCount = s.tCount := rfl
@[simp] theorem State.readDone_tLoad (s : State) (ad : AdWord) (v : Word) : (s.readDone ad v).tLoad = s.tLoad := rfl
@[simp] theorem State.readDone_tOvf (s : State) (ad : AdWord) (v : Word) : (s.readDone ad v).tOvf = s.tOvf := rfl
@[simp] theorem State.readDone_tIe (s : State) (ad : AdWord) (v : Word) : (s.readDone ad v).tIe = s.tIe := rfl
@[simp] theorem State.readDone_icMasked (s : State) (ad : AdWord) (v : Word) : (s.readDone ad v).icMasked = s.icMasked := rfl
@[simp] theorem State.readDone_icPrio (s : State) (ad : AdWord) (v : Word) : (s.readDone ad v).icPrio = s.icPrio := rfl
@[simp] theorem State.readDone_icPrioValid (s : State) (ad : AdWord) (v : Word) : (s.readDone ad v).icPrioValid = s.icPrioValid := rfl
@[simp] theorem State.readDone_icActive (s : State) (ad : AdWord) (v : Word) : (s.readDone ad v).icActive = s.icActive := rfl
@[simp] theorem State.readDone_icRearm (s : State) (ad : AdWord) (v : Word) : (s.readDone ad v).icRearm = s.icRearm := rfl
@[simp] theorem State.readDone_txFifo (s : State) (ad : AdWord) (v : Word) : (s.readDone ad v).txFifo = s.txFifo := rfl
@[simp] theorem State.readDone_rxFifo (s : State) (ad : AdWord) (v : Word) : (s.readDone ad v).rxFifo = s.rxFifo := rfl
@[simp] theorem State.readDone_rxScript (s : State) (ad : AdWord) (v : Word) : (s.readDone ad v).rxScript = s.rxScript := rfl
@[simp] theorem State.readDone_txOut (s : State) (ad : AdWord) (v : Word) : (s.readDone ad v).txOut = s.txOut := rfl
@[simp] theorem State.readDone_cpuIe (s : State) (ad : AdWord) (v : Word) : (s.readDone ad v).cpuIe = s.cpuIe := rfl
@[simp] theorem State.readDone_ctx (s : State) (ad : AdWord) (v : Word) : (s.readDone ad v).ctx = s.ctx := rfl
@[simp] theorem State.readDone_cont (s : State) (ad : AdWord) (v : Word) : (s.readDone ad v).cont = s.cont := rfl
@[simp] theorem State.readDone_saved (s : State) (ad : AdWord) (v : Word) : (s.readDone ad v).saved = s.saved := rfl
@[simp] theorem State.readDone_isr (s : State) (ad : AdWord) (v : Word) : (s.readDone ad v).isr = s.isr := rfl
@[simp] theorem State.readDone_rdata (s : State) (ad : AdWord) (v : Word) : (s.readDone ad v).rdata = v := rfl
@[simp] theorem State.readDone_mem (s : State) (ad : AdWord) (v : Word) : (s.readDone ad v).mem = s.mem := rfl
@[simp] theorem State.readDone_rbHead (s : State) (ad : AdWord) (v : Word) : (s.readDone ad v).rbHead = s.rbHead := rfl
@[simp] theorem State.readDone_rbTail (s : State) (ad : AdWord) (v : Word) : (s.readDone ad v).rbTail = s.rbTail := rfl
@[simp] theorem State.readDone_rbDrops (s : State) (ad : AdWord) (v : Word) : (s.readDone ad v).rbDrops = s.rbDrops := rfl
@[simp] theorem State.readDone_trace (s : State) (ad : AdWord) (v : Word) : (s.readDone ad v).trace = s.trace ++ [.acc s.ctx ad v] := rfl
@[simp] theorem State.readDone_fault (s : State) (ad : AdWord) (v : Word) : (s.readDone ad v).fault = s.fault := rfl
@[simp] theorem State.readDone_schedule (s : State) (ad : AdWord) (v : Word) : (s.readDone ad v).schedule = s.schedule := rfl
@[simp] theorem State.readDone_choices (s : State) (ad : AdWord) (v : Word) : (s.readDone ad v).choices = s.choices := rfl
@[simp] theorem State.readDone_draws (s : State) (ad : AdWord) (v : Word) : (s.readDone ad v).draws = s.draws := rfl

@[simp] theorem State.writeDone_cfg (s : State) (ad : AdWord) (v : Word) : (s.writeDone ad v).cfg = s.cfg := rfl
@[simp] theorem State.writeDone_clkEn (s : State) (ad : AdWord) (v : Word) : (s.writeDone ad v).clkEn = s.clkEn := rfl
@[simp] theorem State.writeDone_tSt (s : State) (ad : AdWord) (v : Word) : (s.writeDone ad v).tSt = s.tSt := rfl
@[simp] theorem State.writeDone_tAr (s : State) (ad : AdWord) (v : Word) : (s.writeDone ad v).tAr = s.tAr := rfl
@[simp] theorem State.writeDone_tCount (s : State) (ad : AdWord) (v : Word) : (s.writeDone ad v).tCount = s.tCount := rfl
@[simp] theorem State.writeDone_tLoad (s : State) (ad : AdWord) (v : Word) : (s.writeDone ad v).tLoad = s.tLoad := rfl
@[simp] theorem State.writeDone_tOvf (s : State) (ad : AdWord) (v : Word) : (s.writeDone ad v).tOvf = s.tOvf := rfl
@[simp] theorem State.writeDone_tIe (s : State) (ad : AdWord) (v : Word) : (s.writeDone ad v).tIe = s.tIe := rfl
@[simp] theorem State.writeDone_icMasked (s : State) (ad : AdWord) (v : Word) : (s.writeDone ad v).icMasked = s.icMasked := rfl
@[simp] theorem State.writeDone_icPrio (s : State) (ad : AdWord) (v : Word) : (s.writeDone ad v).icPrio = s.icPrio := rfl
@[simp] theorem State.writeDone_icPrioValid (s : State) (ad : AdWord) (v : Word) : (s.writeDone ad v).icPrioValid = s.icPrioValid := rfl
@[simp] theorem State.writeDone_icActive (s : State) (ad : AdWord) (v : Word) : (s.writeDone ad v).icActive = s.icActive := rfl
@[simp] theorem State.writeDone_icRearm (s : State) (ad : AdWord) (v : Word) : (s.writeDone ad v).icRearm = s.icRearm := rfl
@[simp] theorem State.writeDone_txFifo (s : State) (ad : AdWord) (v : Word) : (s.writeDone ad v).txFifo = s.txFifo := rfl
@[simp] theorem State.writeDone_rxFifo (s : State) (ad : AdWord) (v : Word) : (s.writeDone ad v).rxFifo = s.rxFifo := rfl
@[simp] theorem State.writeDone_rxScript (s : State) (ad : AdWord) (v : Word) : (s.writeDone ad v).rxScript = s.rxScript := rfl
@[simp] theorem State.writeDone_txOut (s : State) (ad : AdWord) (v : Word) : (s.writeDone ad v).txOut = s.txOut := rfl
@[simp] theorem State.writeDone_cpuIe (s : State) (ad : AdWord) (v : Word) : (s.writeDone ad v).cpuIe = s.cpuIe := rfl
@[simp] theorem State.writeDone_ctx (s : State) (ad : AdWord) (v : Word) : (s.writeDone ad v).ctx = s.ctx := rfl
@[simp] theorem State.writeDone_cont (s : State) (ad : AdWord) (v : Word) : (s.writeDone ad v).cont = s.cont := rfl
@[simp] theorem State.writeDone_saved (s : State) (ad : AdWord) (v : Word) : (s.writeDone ad v).saved = s.saved := rfl
@[simp] theorem State.writeDone_isr (s : State) (ad : AdWord) (v : Word) : (s.writeDone ad v).isr = s.isr := rfl
@[simp] theorem State.writeDone_rdata (s : State) (ad : AdWord) (v : Word) : (s.writeDone ad v).rdata = s.rdata := rfl
@[simp] theorem State.writeDone_mem (s : State) (ad : AdWord) (v : Word) : (s.writeDone ad v).mem = s.mem := rfl
@[simp] theorem State.writeDone_rbHead (s : State) (ad : AdWord) (v : Word) : (s.writeDone ad v).rbHead = s.rbHead := rfl
@[simp] theorem State.writeDone_rbTail (s : State) (ad : AdWord) (v : Word) : (s.writeDone ad v).rbTail = s.rbTail := rfl
@[simp] theorem State.writeDone_rbDrops (s : State) (ad : AdWord) (v : Word) : (s.writeDone ad v).rbDrops = s.rbDrops := rfl
@[simp] theorem State.writeDone_trace (s : State) (ad : AdWord) (v : Word) : (s.writeDone ad v).trace = s.trace ++ [.acc s.ctx ad v] := rfl
@[simp] theorem State.writeDone_fault (s : State) (ad : AdWord) (v : Word) : (s.writeDone ad v).fault = s.fault := rfl
@[simp] theorem State.writeDone_schedule (s : State) (ad : AdWord) (v : Word) : (s.writeDone ad v).schedule = s.schedule := rfl
@[simp] theorem State.writeDone_choices (s : State) (ad : AdWord) (v : Word) : (s.writeDone ad v).choices = s.choices := rfl
@[simp] theorem State.writeDone_draws (s : State) (ad : AdWord) (v : Word) : (s.writeDone ad v).draws = s.draws := rfl

@[simp] theorem State.writeByte_cfg (s : State) (a : Word) (v : Byte) : (s.writeByte a v).cfg = s.cfg := rfl
@[simp] theorem State.writeByte_clkEn (s : State) (a : Word) (v : Byte) : (s.writeByte a v).clkEn = s.clkEn := rfl
@[simp] theorem State.writeByte_tSt (s : State) (a : Word) (v : Byte) : (s.writeByte a v).tSt = s.tSt := rfl
@[simp] theorem State.writeByte_tAr (s : State) (a : Word) (v : Byte) : (s.writeByte a v).tAr = s.tAr := rfl
@[simp] theorem State.writeByte_tCount (s : State) (a : Word) (v : Byte) : (s.writeByte a v).tCount = s.tCount := rfl
@[simp] theorem State.writeByte_tLoad (s : State) (a : Word) (v : Byte) : (s.writeByte a v).tLoad = s.tLoad := rfl
@[simp] theorem State.writeByte_tOvf (s : State) (a : Word) (v : Byte) : (s.writeByte a v).tOvf = s.tOvf := rfl
@[simp] theorem State.writeByte_tIe (s : State) (a : Word) (v : Byte) : (s.writeByte a v).tIe = s.tIe := rfl
@[simp] theorem State.writeByte_icMasked (s : State) (a : Word) (v : Byte) : (s.writeByte a v).icMasked = s.icMasked := rfl
@[simp] theorem State.writeByte_icPrio (s : State) (a : Word) (v : Byte) : (s.writeByte a v).icPrio = s.icPrio := rfl
@[simp] theorem State.writeByte_icPrioValid (s : State) (a : Word) (v : Byte) : (s.writeByte a v).icPrioValid = s.icPrioValid := rfl
@[simp] theorem State.writeByte_icActive (s : State) (a : Word) (v : Byte) : (s.writeByte a v).icActive = s.icActive := rfl
@[simp] theorem State.writeByte_icRearm (s : State) (a : Word) (v : Byte) : (s.writeByte a v).icRearm = s.icRearm := rfl
@[simp] theorem State.writeByte_txFifo (s : State) (a : Word) (v : Byte) : (s.writeByte a v).txFifo = s.txFifo := rfl
@[simp] theorem State.writeByte_rxFifo (s : State) (a : Word) (v : Byte) : (s.writeByte a v).rxFifo = s.rxFifo := rfl
@[simp] theorem State.writeByte_rxScript (s : State) (a : Word) (v : Byte) : (s.writeByte a v).rxScript = s.rxScript := rfl
@[simp] theorem State.writeByte_txOut (s : State) (a : Word) (v : Byte) : (s.writeByte a v).txOut = s.txOut := rfl
@[simp] theorem State.writeByte_cpuIe (s : State) (a : Word) (v : Byte) : (s.writeByte a v).cpuIe = s.cpuIe := rfl
@[simp] theorem State.writeByte_ctx (s : State) (a : Word) (v : Byte) : (s.writeByte a v).ctx = s.ctx := rfl
@[simp] theorem State.writeByte_cont (s : State) (a : Word) (v : Byte) : (s.writeByte a v).cont = s.cont := rfl
@[simp] theorem State.writeByte_saved (s : State) (a : Word) (v : Byte) : (s.writeByte a v).saved = s.saved := rfl
@[simp] theorem State.writeByte_isr (s : State) (a : Word) (v : Byte) : (s.writeByte a v).isr = s.isr := rfl
@[simp] theorem State.writeByte_rdata (s : State) (a : Word) (v : Byte) : (s.writeByte a v).rdata = s.rdata := rfl
@[simp] theorem State.writeByte_mem (s : State) (a : Word) (v : Byte) : (s.writeByte a v).mem = Memory.write s.mem a.toNat v := rfl
@[simp] theorem State.writeByte_rbHead (s : State) (a : Word) (v : Byte) : (s.writeByte a v).rbHead = s.rbHead := rfl
@[simp] theorem State.writeByte_rbTail (s : State) (a : Word) (v : Byte) : (s.writeByte a v).rbTail = s.rbTail := rfl
@[simp] theorem State.writeByte_rbDrops (s : State) (a : Word) (v : Byte) : (s.writeByte a v).rbDrops = s.rbDrops := rfl
@[simp] theorem State.writeByte_trace (s : State) (a : Word) (v : Byte) : (s.writeByte a v).trace = s.trace := rfl
@[simp] theorem State.writeByte_fault (s : State) (a : Word) (v : Byte) : (s.writeByte a v).fault = s.fault := rfl
@[simp] theorem State.writeByte_schedule (s : State) (a : Word) (v : Byte) : (s.writeByte a v).schedule = s.schedule := rfl
@[simp] theorem State.writeByte_choices (s : State) (a : Word) (v : Byte) : (s.writeByte a v).choices = s.choices := rfl
@[simp] theorem State.writeByte_draws (s : State) (a : Word) (v : Byte) : (s.writeByte a v).draws = s.draws := rfl

@[simp] theorem State.push_cfg (s : State) (f : Frame) : (s.push f).cfg = s.cfg := rfl
@[simp] theorem State.push_clkEn (s : State) (f : Frame) : (s.push f).clkEn = s.clkEn := rfl
@[simp] theorem State.push_tSt (s : State) (f : Frame) : (s.push f).tSt = s.tSt := rfl
@[simp] theorem State.push_tAr (s : State) (f : Frame) : (s.push f).tAr = s.tAr := rfl
@[simp] theorem State.push_tCount (s : State) (f : Frame) : (s.push f).tCount = s.tCount := rfl
@[simp] theorem State.push_tLoad (s : State) (f : Frame) : (s.push f).tLoad = s.tLoad := rfl
@[simp] theorem State.push_tOvf (s : State) (f : Frame) : (s.push f).tOvf = s.tOvf := rfl
@[simp] theorem State.push_tIe (s : State) (f : Frame) : (s.push f).tIe = s.tIe := rfl
@[simp] theorem State.push_icMasked (s : State) (f : Frame) : (s.push f).icMasked = s.icMasked := rfl
@[simp] theorem State.push_icPrio (s : State) (f : Frame) : (s.push f).icPrio = s.icPrio := rfl
@[simp] theorem State.push_icPrioValid (s : State) (f : Frame) : (s.push f).icPrioValid = s.icPrioValid := rfl
@[simp] theorem State.push_icActive (s : State) (f : Frame) : (s.push f).icActive = s.icActive := rfl
@[simp] theorem State.push_icRearm (s : State) (f : Frame) : (s.push f).icRearm = s.icRearm := rfl
@[simp] theorem State.push_txFifo (s : State) (f : Frame) : (s.push f).txFifo = s.txFifo := rfl
@[simp] theorem State.push_rxFifo (s : State) (f : Frame) : (s.push f).rxFifo = s.rxFifo := rfl
@[simp] theorem State.push_rxScript (s : State) (f : Frame) : (s.push f).rxScript = s.rxScript := rfl
@[simp] theorem State.push_txOut (s : State) (f : Frame) : (s.push f).txOut = s.txOut := rfl
@[simp] theorem State.push_cpuIe (s : State) (f : Frame) : (s.push f).cpuIe = s.cpuIe := rfl
@[simp] theorem State.push_ctx (s : State) (f : Frame) : (s.push f).ctx = s.ctx := rfl
@[simp] theorem State.push_cont (s : State) (f : Frame) : (s.push f).cont = f :: s.cont := rfl
@[simp] theorem State.push_saved (s : State) (f : Frame) : (s.push f).saved = s.saved := rfl
@[simp] theorem State.push_isr (s : State) (f : Frame) : (s.push f).isr = s.isr := rfl
@[simp] theorem State.push_rdata (s : State) (f : Frame) : (s.push f).rdata = s.rdata := rfl
@[simp] theorem State.push_mem (s : State) (f : Frame) : (s.push f).mem = s.mem := rfl
@[simp] theorem State.push_rbHead (s : State) (f : Frame) : (s.push f).rbHead = s.rbHead := rfl
@[simp] theorem State.push_rbTail (s : State) (f : Frame) : (s.push f).rbTail = s.rbTail := rfl
@[simp] theorem State.push_rbDrops (s : State) (f : Frame) : (s.push f).rbDrops = s.rbDrops := rfl
@[simp] theorem State.push_trace (s : State) (f : Frame) : (s.push f).trace = s.trace := rfl
@[simp] theorem State.push_fault (s : State) (f : Frame) : (s.push f).fault = s.fault := rfl
@[simp] theorem State.push_schedule (s : State) (f : Frame) : (s.push f).schedule = s.schedule := rfl
@[simp] theorem State.push_choices (s : State) (f : Frame) : (s.push f).choices = s.choices := rfl
@[simp] theorem State.push_draws (s : State) (f : Frame) : (s.push f).draws = s.draws := rfl

@[simp] theorem State.took_cfg (s : State) (b : Bool) : (s.took b).cfg = s.cfg := rfl
@[simp] theorem State.took_clkEn (s : State) (b : Bool) : (s.took b).clkEn = s.clkEn := rfl
@[simp] theorem State.took_tSt (s : State) (b : Bool) : (s.took b).tSt = s.tSt := rfl
@[simp] theorem State.took_tAr (s : State) (b : Bool) : (s.took b).tAr = s.tAr := rfl
@[simp] theorem State.took_tCount (s : State) (b : Bool) : (s.took b).tCount = s.tCount := rfl
@[simp] theorem State.took_tLoad (s : State) (b : Bool) : (s.took b).tLoad = s.tLoad := rfl
@[simp] theorem State.took_tOvf (s : State) (b : Bool) : (s.took b).tOvf = s.tOvf := rfl
@[simp] theorem State.took_tIe (s : State) (b : Bool) : (s.took b).tIe = s.tIe := rfl
@[simp] theorem State.took_icMasked (s : State) (b : Bool) : (s.took b).icMasked = s.icMasked := rfl
@[simp] theorem State.took_icPrio (s : State) (b : Bool) : (s.took b).icPrio = s.icPrio := rfl
@[simp] theorem State.took_icPrioValid (s : State) (b : Bool) : (s.took b).icPrioValid = s.icPrioValid := rfl
@[simp] theorem State.took_icActive (s : State) (b : Bool) : (s.took b).icActive = s.icActive := rfl
@[simp] theorem State.took_icRearm (s : State) (b : Bool) : (s.took b).icRearm = s.icRearm := rfl
@[simp] theorem State.took_txFifo (s : State) (b : Bool) : (s.took b).txFifo = s.txFifo := rfl
@[simp] theorem State.took_rxFifo (s : State) (b : Bool) : (s.took b).rxFifo = s.rxFifo := rfl
@[simp] theorem State.took_rxScript (s : State) (b : Bool) : (s.took b).rxScript = s.rxScript := rfl
@[simp] theorem State.took_txOut (s : State) (b : Bool) : (s.took b).txOut = s.txOut := rfl
@[simp] theorem State.took_cpuIe (s : State) (b : Bool) : (s.took b).cpuIe = s.cpuIe := rfl
@[simp] theorem State.took_ctx (s : State) (b : Bool) : (s.took b).ctx = s.ctx := rfl
@[simp] theorem State.took_cont (s : State) (b : Bool) : (s.took b).cont = s.cont := rfl
@[simp] theorem State.took_saved (s : State) (b : Bool) : (s.took b).saved = s.saved := rfl
@[simp] theorem State.took_isr (s : State) (b : Bool) : (s.took b).isr = s.isr := rfl
@[simp] theorem State.took_rdata (s : State) (b : Bool) : (s.took b).rdata = s.rdata := rfl
@[simp] theorem State.took_mem (s : State) (b : Bool) : (s.took b).mem = s.mem := rfl
@[simp] theorem State.took_rbHead (s : State) (b : Bool) : (s.took b).rbHead = s.rbHead := rfl
@[simp] theorem State.took_rbTail (s : State) (b : Bool) : (s.took b).rbTail = s.rbTail := rfl
@[simp] theorem State.took_rbDrops (s : State) (b : Bool) : (s.took b).rbDrops = s.rbDrops := rfl
@[simp] theorem State.took_trace (s : State) (b : Bool) : (s.took b).trace = s.trace := rfl
@[simp] theorem State.took_fault (s : State) (b : Bool) : (s.took b).fault = s.fault := rfl
@[simp] theorem State.took_schedule (s : State) (b : Bool) : (s.took b).schedule = s.schedule := rfl
@[simp] theorem State.took_choices (s : State) (b : Bool) : (s.took b).choices = s.choices := rfl
@[simp] theorem State.took_draws (s : State) (b : Bool) : (s.took b).draws = s.draws + b.toNat := rfl
@[simp] theorem State.took_false (s : State) : s.took false = s := rfl

/-- A ring count written leaves every field but that count. -/
theorem State.putCount_cases (s : State) (c : Count) (v : Word) :
    s.putCount c v = { s with rbHead := v } ∨ s.putCount c v = { s with rbTail := v } ∨
      s.putCount c v = { s with rbDrops := v } := by
  cases c <;> simp [State.putCount]

/-- Reading back a ring count just written. -/
@[simp] theorem State.getCount_putCount_same (s : State) (c : Count) (v : Word) :
    (s.putCount c v).getCount c = v := by
  cases c <;> rfl

/-- Writing one ring count leaves the others. -/
theorem State.getCount_putCount_other (s : State) (c d : Count) (v : Word) (h : d ≠ c) :
    (s.putCount c v).getCount d = s.getCount d := by
  cases c <;> cases d <;> first | rfl | exact absurd rfl h

/-- Binding a word changes the continuation only. -/
theorem State.bindWord_cont (s : State) (n : Name) (v : Word) : ∃ c, s.bindWord n v = { s with cont := c } := by
  unfold State.bindWord
  split
  · exact ⟨s.cont, rfl⟩
  · exact ⟨_, rfl⟩

/-- Binding a byte string changes the continuation only. -/
theorem State.bindStr_cont (s : State) (n : Name) (v : List Byte) :
    ∃ c, s.bindStr n v = { s with cont := c } := by
  unfold State.bindStr
  split
  · exact ⟨s.cont, rfl⟩
  · exact ⟨_, rfl⟩

/-- Binding a word to a name that may not be given changes the continuation only. -/
theorem State.bindWord?_cont (s : State) (n : Option Name) (v : Word) :
    ∃ c, s.bindWord? n v = { s with cont := c } := by
  cases n with
  | none => exact ⟨s.cont, rfl⟩
  | some n => exact s.bindWord_cont n v

/-- Binding a byte string to a name that may not be given changes the continuation only. -/
theorem State.bindStr?_cont (s : State) (n : Option Name) (v : List Byte) :
    ∃ c, s.bindStr? n v = { s with cont := c } := by
  cases n with
  | none => exact ⟨s.cont, rfl⟩
  | some n => exact s.bindStr_cont n v

/-- A jump changes the continuation only. -/
theorem State.jump_cont (s : State) (n : Nat) : ∃ c, s.jump n = { s with cont := c } := by
  unfold State.jump
  split
  · exact ⟨s.cont, rfl⟩
  · exact ⟨_, rfl⟩

/-- A return changes the continuation only. -/
theorem State.pop_cont (s : State) (w : Option Word) (b : Option (List Byte)) :
    ∃ c, s.pop w b = { s with cont := c } := by
  unfold State.pop
  split
  · exact ⟨s.cont, rfl⟩
  · rename_i f fs _
    cases w with
    | none =>
      cases b with
      | none => exact ⟨fs, rfl⟩
      | some b => exact State.bindStr?_cont { s with cont := fs } _ _
    | some w =>
      obtain ⟨c, hc⟩ := State.bindWord?_cont { s with cont := fs } f.retWord w
      cases b with
      | none => exact ⟨c, by simpa using hc⟩
      | some b =>
        obtain ⟨d, hd⟩ := State.bindStr?_cont { s with cont := c } f.retStr b
        exact ⟨d, by simpa [hc] using hd⟩

/-- Making the choice of who moves changes the bookkeeping of choices only. -/
theorem State.chosen_cases (s : State) :
    ∃ l n, s.chosen = { s with schedule := l, choices := n } := by
  unfold State.chosen
  split
  · exact ⟨_, s.choices, rfl⟩
  · exact ⟨s.schedule, _, rfl⟩

end Sys2Proof.Machine
end

