-- ==== Sys2Proof/Laws/Effects.lean ====
section
/-! SUPPORT. What the shared operations, an operation, a line and a step can do, each said once: the provers
cite these and unfold nothing. -/

namespace Sys2Proof.Machine

/-- The gate's check answers the access's state with the gate on, the fault with it off. -/
theorem gated_cases {ad : AdWord} {w : Option Word} {t s u : State} (h : gated ad w t s = .next u) :
    (s.clkEn = true ∧ u = t) ∨ (s.clkEn = false ∧ u = s.raise .ungated (.access ad w)) := by
  unfold gated at h
  cases hc : s.clkEn <;> simp_all

/-- An acknowledge: nothing in service; in service with the line low; in service with the line high. -/
theorem State.acknowledge_cases (s : State) :
    (s.icActive = false ∧ s.acknowledge = s) ∨
    (s.icActive = true ∧ s.line = false ∧ s.acknowledge = { s with icActive := false }) ∨
    (s.icActive = true ∧ s.line = true ∧
      s.acknowledge = { s with icActive := false, icRearm := Config.drawRearm s.draws, draws := s.draws + 1 }) := by
  unfold State.acknowledge
  cases s.icActive <;> cases s.line <;> simp

/-- Taking the interrupt: the fault where no priority was ever written, else the entry. -/
theorem State.takeInterrupt_cases (s : State) :
    (s.icPrioValid = false ∧ s.takeInterrupt = s.raise .unrouted .delivery) ∨
    (s.icPrioValid = true ∧ s.takeInterrupt =
      { s with icActive := true, icRearm := false, saved := some s.cont, cont := [Frame.start s.isr],
               ctx := .handler, trace := s.trace ++ [.deliver] }) := by
  unfold State.takeInterrupt
  cases s.icPrioValid <;> simp [State.emit]

/-- Returning: the fault in normal context, else the saved continuation. -/
theorem State.returnFromInterrupt_cases (s : State) :
    (s.ctx = .normal ∧ s.returnFromInterrupt = s.raise .iretOutside (.core 0xF008#16)) ∨
    (s.ctx = .handler ∧ s.returnFromInterrupt =
      { s with ctx := .normal, cont := s.saved.getD [], saved := none, trace := s.trace ++ [.iret] }) := by
  unfold State.returnFromInterrupt
  cases s.ctx <;> simp [State.emit]

/-- A tick: no period completes; one completes and the counter reloads; one completes and it stops. -/
theorem State.tick_cases (s : State) :
    (s.tCount ≠ lastCount s.cfg.timerDir ∧ s.tick = { s with tCount := countOn s.cfg.timerDir s.tCount }) ∨
    (s.tCount = lastCount s.cfg.timerDir ∧ s.tAr = true ∧
      s.tick = { s with tOvf := true, tCount := s.tLoad, trace := s.trace ++ [.evt] }) ∨
    (s.tCount = lastCount s.cfg.timerDir ∧ s.tAr = false ∧
      s.tick = { s with tOvf := true, tCount := 0#32, tSt := false, trace := s.trace ++ [.evt] }) := by
  unfold State.tick
  by_cases h : s.tCount = lastCount s.cfg.timerDir <;> cases s.tAr <;> simp [h, State.emit]

/-- A drain: nothing to send, or the oldest byte leaves. -/
theorem State.drain_cases (s : State) :
    (s.txFifo = [] ∧ s.drain = s) ∨
    (∃ b rest, s.txFifo = b :: rest ∧
      s.drain = { s with txFifo := rest, txOut := s.txOut ++ [b], trace := s.trace ++ [.tx b] }) := by
  unfold State.drain
  cases s.txFifo with
  | nil => exact .inl ⟨rfl, rfl⟩
  | cons b rest => exact .inr ⟨b, rest, rfl, rfl⟩

/-- An arrival: nothing to send; the byte enters the FIFO; the byte is lost. -/
theorem State.arrive_cases (s : State) :
    (s.rxScript = [] ∧ s.arrive = s) ∨
    (∃ b rest, s.rxScript = b :: rest ∧ s.rxFifo.length < s.cfg.rxDepth ∧
      s.arrive = { s with rxScript := rest, rxFifo := s.rxFifo ++ [b], trace := s.trace ++ [.rx b] }) ∨
    (∃ b rest, s.rxScript = b :: rest ∧ ¬ s.rxFifo.length < s.cfg.rxDepth ∧
      s.arrive = { s with rxScript := rest, trace := s.trace ++ [.rxDrop b] }) := by
  unfold State.arrive
  cases s.rxScript with
  | nil => exact .inl ⟨rfl, rfl⟩
  | cons b rest =>
    by_cases h : s.rxFifo.length < s.cfg.rxDepth
    · exact .inr (.inl ⟨b, rest, rfl, h, by simp [h, State.emit]⟩)
    · exact .inr (.inr ⟨b, rest, rfl, h, by simp [h, State.emit]⟩)

/-- The kinds of change an operation makes: the fault it raises; a read's data word; a write of the one register
it names; the receive FIFO's oldest byte taken, a byte joining the transmit FIFO; the acceptance flag; the return
from the handler. -/
inductive Change (s : State) : Instr → State → Prop
  | fault (i : Instr) (f : Fault) (c : Culprit) : Change s i (s.raise f c)
  | read (i : Instr) (ad : AdWord) (v : Word) : Change s i (s.readDone ad v)
  | gate (v : Word) : Change s (.stClkTimer v) ({ s with clkEn := bit0 v }.writeDone 0xB000#16 v)
  | control (v : Word) :
      Change s (.stTctrl v) ({ s with tSt := bit0 v, tAr := bit1 v }.writeDone 0x8000#16 v)
  | counter (v : Word) : Change s (.stTcount v) ({ s with tCount := v }.writeDone 0x8004#16 v)
  | reload (v : Word) : Change s (.stTload v) ({ s with tLoad := v }.writeDone 0x8008#16 v)
  | status (v : Word) :
      Change s (.stTisr v) ({ s with tOvf := if bit0 v then false else s.tOvf }.writeDone 0x800C#16 v)
  | enable (v : Word) : Change s (.stTier v) ({ s with tIe := bit0 v }.writeDone 0x8010#16 v)
  | unmask (v : Word) :
      Change s (.stIcMaskClr v) ({ s with icMasked := if bit0 v then false else s.icMasked }.writeDone 0x9000#16 v)
  | priority (v : Word) :
      Change s (.stIcPrio v) ({ s with icPrio := prioField s.cfg v, icPrioValid := true }.writeDone 0x9004#16 v)
  | ack (v : Word) : Change s (.stIcAck v) (s.acknowledge.writeDone 0x9008#16 v)
  | receive (b : Byte) (rest : List Byte) (h : s.rxFifo = b :: rest) (v : Word) :
      Change s .ldUdata ({ s with rxFifo := rest, draws := s.draws + 1 }.readDone 0x2000#16 v)
  | send (h : s.txff = false) (v : Word) :
      Change s (.stUdata v) ({ s with txFifo := s.txFifo ++ [lowByte v] }.writeDone 0xA000#16 v)
  | accept (i : Instr) (b : Bool) : Change s i { s with cpuIe := b }
  | leave : Change s .iret s.returnFromInterrupt

/-- Every operation answers a next state, by one of these changes. -/
theorem exec_change (i : Instr) (s : State) : ∃ t, exec i s = .next t ∧ Change s i t := by
  have gate : ∀ (j : Instr) (ad : AdWord) (w : Option Word) (u : State), Change s j u →
      ∃ t, gated ad w u s = .next t ∧ Change s j t := by
    intro j ad w u hu
    unfold gated
    refine ⟨_, rfl, ?_⟩
    split
    · exact hu
    · exact .fault _ _ _
  cases i with
  | ldClkTimer => exact ⟨_, rfl, .read _ _ _⟩
  | stClkTimer v => exact ⟨_, rfl, .gate v⟩
  | ldTctrl => exact gate _ _ _ _ (.read _ _ _)
  | stTctrl v => exact gate _ _ _ _ (.control v)
  | ldTcount => exact gate _ _ _ _ (.read _ _ _)
  | stTcount v => exact gate _ _ _ _ (.counter v)
  | ldTload => exact gate _ _ _ _ (.read _ _ _)
  | stTload v => exact gate _ _ _ _ (.reload v)
  | ldTisr => exact gate _ _ _ _ (.read _ _ _)
  | stTisr v => exact gate _ _ _ _ (.status v)
  | ldTier => exact gate _ _ _ _ (.read _ _ _)
  | stTier v => exact gate _ _ _ _ (.enable v)
  | ldIcMaskClr => exact ⟨_, rfl, .fault _ _ _⟩
  | stIcMaskClr v => exact ⟨_, rfl, .unmask v⟩
  | ldIcPrio => exact ⟨_, rfl, .read _ _ _⟩
  | stIcPrio v => exact ⟨_, rfl, .priority v⟩
  | ldIcAck => exact ⟨_, rfl, .fault _ _ _⟩
  | stIcAck v => exact ⟨_, rfl, .ack v⟩
  | ldUdata =>
    cases h : s.rxFifo with
    | nil =>
      exact ⟨s.raise .rxUnderflow (.access 0x2000#16 none), by simp only [exec, execLdUdata, h], .fault _ _ _⟩
    | cons b rest =>
      exact ⟨{ s with rxFifo := rest, draws := s.draws + 1 }.readDone 0x2000#16
        (udataWord (Config.drawUpper s.draws) b), by simp only [exec, execLdUdata, h], .receive b rest h _⟩
  | stUdata v =>
    cases h : s.txff with
    | true => exact ⟨_, by simp only [exec, execStUdata, h]; rfl, .fault _ _ _⟩
    | false => exact ⟨_, by simp only [exec, execStUdata, h]; rfl, .send h v⟩
  | ldUstat => exact ⟨_, rfl, .read _ _ _⟩
  | stUstat v => exact ⟨_, rfl, .fault _ _ _⟩
  | ie => exact ⟨_, rfl, .accept _ _⟩
  | id => exact ⟨_, rfl, .accept _ _⟩
  | iret => exact ⟨_, rfl, .leave⟩

/-- An operation that answers a next state made one of these changes. -/
theorem exec_cases {i : Instr} {s t : State} (h : exec i s = .next t) : Change s i t := by
  obtain ⟨u, hu, c⟩ := exec_change i s
  rw [hu] at h
  cases h
  exact c

/-- What a line does from the state with the free values it took counted: it moves the continuation; it makes an operation's change, the continuation moved or
not; it writes a byte of RAM or reads one; it writes a ring count. -/
inductive LineEffect (s : State) : State → Prop
  | move (c : List Frame) : LineEffect s { s with cont := c }
  | change (i : Instr) (t : State) (h : Change s i t) : LineEffect s t
  | bound (i : Instr) (t : State) (h : Change s i t) (c : List Frame) : LineEffect s { t with cont := c }
  | load (v : Word) (c : List Frame) : LineEffect s { s with rdata := v, cont := c }
  | store (a : Word) (v : Byte) : LineEffect s (s.writeByte a v)
  | count (c : Count) (v : Word) : LineEffect s (s.putCount c v)

/-- A word run is an operation's change, or the fault of an access that names no register. -/
theorem runWord_cases {ad : AdWord} {w : Word} {s t : State} (h : runWord ad w s = .next t) :
    ∃ i, Change s i t := by
  unfold runWord at h
  split at h
  · exact ⟨_, exec_cases h⟩
  · cases h
    exact ⟨.ie, .fault _ _ _⟩
  · cases h

/-- A processor access is an operation's change, or a byte of RAM read or written. -/
theorem procAccess_cases {d : Dir} {n : Width} {a w : Word} {s t : State}
    (h : procAccess d n a w s = .next t) :
    (∃ i, Change s i t) ∨ (∃ v, t = { s with rdata := v }) ∨ ∃ v, t = s.writeByte a v := by
  unfold procAccess at h
  split at h
  · unfold busAccess at h
    split at h
    · cases h; exact .inl ⟨.ie, .fault _ _ _⟩
    · split at h
      · exact .inl (runWord_cases h)
      · cases h; exact .inl ⟨.ie, .fault _ _ _⟩
  · unfold ramAccess at h
    split at h
    · split at h
      · cases h; exact .inr (.inl ⟨_, rfl⟩)
      · cases h; exact .inr (.inr ⟨_, rfl⟩)
    · cases h

/-- A received read changes the continuation only. -/
theorem received_cases {dst : Option Name} {r : Result} {t : State} (h : received dst r = .next t) :
    ∃ u, r = .next u ∧ (t = u ∨ ∃ c, t = { u with cont := c }) := by
  cases r with
  | next u =>
    refine ⟨u, rfl, ?_⟩
    simp only [received] at h
    split at h
    · obtain ⟨c, hc⟩ := u.bindWord?_cont dst u.rdata
      rw [hc] at h
      cases h
      exact .inr ⟨c, rfl⟩
    · cases h
      exact .inl rfl
  | fault f => cases h
  | refused x => cases h

/-- A line with a value runs on with one, the counter of free values somewhere. -/
theorem withValue_cases {α : Type} {s t : State} {v : Computed α} {k : α → State → Result}
    (h : withValue s v k = .next t) : ∃ (a : α) (n : Nat), k a { s with draws := n } = .next t :=
  ⟨_, _, h⟩

/-- Everything a line can do; where it took a free value the counter of these has moved. -/
theorem runLine_cases {l : Line} {s t : State} (h : runLine l s = .next t) :
    ∃ n, LineEffect { s with draws := n } t := by
  have move : ∀ {n : Nat} {u : State}, (∃ c, u = { s with draws := n, cont := c }) →
      LineEffect { s with draws := n } u := by
    rintro n u ⟨c, rfl⟩
    exact .move c
  cases l with
  | op ad val dst =>
    simp only [runLine] at h
    obtain ⟨v, n, h⟩ := withValue_cases h
    refine ⟨n, ?_⟩
    unfold runOp at h
    split at h
    · obtain ⟨u, hu, ht⟩ := received_cases h
      obtain ⟨i, hc⟩ := runWord_cases hu
      obtain rfl | ⟨c, rfl⟩ := ht
      · exact .change i _ hc
      · exact .bound i _ hc c
    · obtain ⟨i, hc⟩ := runWord_cases h
      exact .change i _ hc
  | readAt width addr dst =>
    simp only [runLine] at h
    obtain ⟨a, n, h⟩ := withValue_cases h
    refine ⟨n, ?_⟩
    obtain ⟨u, hu, ht⟩ := received_cases h
    unfold procAccess at hu
    split at hu
    · have hc : ∃ i, Change { s with draws := n } i u := by
        unfold busAccess at hu
        split at hu
        · cases hu; exact ⟨.ie, .fault _ _ _⟩
        · split at hu
          · exact runWord_cases hu
          · cases hu; exact ⟨.ie, .fault _ _ _⟩
      obtain ⟨i, hc⟩ := hc
      obtain rfl | ⟨c, rfl⟩ := ht
      · exact .change i _ hc
      · exact .bound i _ hc c
    · unfold ramAccess at hu
      split at hu
      · cases hu
        obtain rfl | ⟨c, rfl⟩ := ht
        · exact .load _ s.cont
        · exact .load _ c
      · cases hu
  | writeAt width addr val =>
    simp only [runLine] at h
    obtain ⟨p, n, h⟩ := withValue_cases h
    refine ⟨n, ?_⟩
    obtain ⟨i, hc⟩ | ⟨v, rfl⟩ | ⟨v, rfl⟩ := procAccess_cases h
    · exact .change i _ hc
    · exact .load v s.cont
    · exact .store p.1 v
  | fetchAt addr =>
    simp only [runLine] at h
    obtain ⟨a, n, h⟩ := withValue_cases h
    refine ⟨n, ?_⟩
    unfold fetchAccess at h
    split at h
    · cases h; exact .change .ie _ (.fault _ _ _)
    · cases h; exact .move s.cont
  | goto n =>
    simp only [runLine] at h
    cases h
    exact ⟨s.draws, move (s.jump_cont n)⟩
  | ifGoto c m =>
    simp only [runLine] at h
    obtain ⟨b, n, h⟩ := withValue_cases h
    refine ⟨n, ?_⟩
    cases h
    cases b with
    | true => exact move (State.jump_cont { s with draws := n } m)
    | false => exact .move s.cont
  | assign m e =>
    simp only [runLine] at h
    obtain ⟨v, n, h⟩ := withValue_cases h
    cases h
    exact ⟨n, move (State.bindWord_cont { s with draws := n } m v)⟩
  | assignStr m e =>
    simp only [runLine] at h
    obtain ⟨v, n, h⟩ := withValue_cases h
    cases h
    exact ⟨n, move (State.bindStr_cont { s with draws := n } m v)⟩
  | setCount c e =>
    simp only [runLine] at h
    obtain ⟨v, n, h⟩ := withValue_cases h
    cases h
    exact ⟨n, .count c v⟩
  | call c =>
    simp only [runLine] at h
    obtain ⟨f, n, h⟩ := withValue_cases h
    cases h
    exact ⟨n, .move _⟩
  | ret w b =>
    simp only [runLine] at h
    obtain ⟨p, n, h⟩ := withValue_cases h
    cases h
    exact ⟨n, move (State.pop_cont { s with draws := n } p.1 p.2)⟩
  | driverArg =>
    simp only [runLine] at h
    cases h
    exact ⟨s.draws, .change .ie _ (.fault _ _ _)⟩

/-- Everything a step can do: the processor runs a line or has none; the interrupt is taken; the timer ticks;
a byte leaves; a byte arrives; or the agent whose turn it is has no step. -/
theorem step_cases {s t : State} (h : step s = .next t) :
    s.fault = none ∧
    (t = s.chosen ∨
     (s.mover = .processor ∧ ∃ l c, fetchLine s.chosen.cont = some (l, c) ∧
        runLine l { s.chosen with cont := c } = .next t) ∨
     (s.mover = .delivery ∧ s.chosen.deliverable = true ∧ t = s.chosen.takeInterrupt) ∨
     (s.mover = .tick ∧ s.chosen.tickEnabled = true ∧ t = s.chosen.tick) ∨
     (s.mover = .txDrain ∧ s.chosen.drainEnabled = true ∧ t = s.chosen.drain) ∨
     (s.mover = .rxArrival ∧ s.chosen.arrivalEnabled = true ∧ t = s.chosen.arrive)) := by
  unfold step at h
  split at h
  · cases h
  · rename_i hf
    refine ⟨hf, ?_⟩
    cases hm : s.mover with
    | processor =>
      simp only [hm, stepAgent, stepProcessor] at h
      split at h
      · rename_i l c hl
        exact .inr (.inl ⟨rfl, l, c, hl, h⟩)
      · cases h; exact .inl rfl
    | delivery =>
      simp only [hm, stepAgent] at h
      split at h
      · cases h; exact .inr (.inr (.inl ⟨rfl, by assumption, rfl⟩))
      · cases h; exact .inl rfl
    | tick =>
      simp only [hm, stepAgent] at h
      split at h
      · cases h; exact .inr (.inr (.inr (.inl ⟨rfl, by assumption, rfl⟩)))
      · cases h; exact .inl rfl
    | txDrain =>
      simp only [hm, stepAgent] at h
      split at h
      · cases h; exact .inr (.inr (.inr (.inr (.inl ⟨rfl, by assumption, rfl⟩))))
      · cases h; exact .inl rfl
    | rxArrival =>
      simp only [hm, stepAgent] at h
      split at h
      · cases h; exact .inr (.inr (.inr (.inr (.inr ⟨rfl, by assumption, rfl⟩))))
      · cases h; exact .inl rfl

/-- A field that every kind of change keeps is kept by a step. A proof gives the kinds; the bookkeeping
of choices and of free values and the move of the continuation are among the premises. -/
theorem step_induction {P : State → State → Prop} {s t : State} (h : step s = .next t)
    (choice : P s s.chosen)
    (line : ∀ c n u, LineEffect { s.chosen with cont := c, draws := n } u → s.mover = .processor → P s u)
    (entry : s.mover = .delivery → s.chosen.deliverable = true → P s s.chosen.takeInterrupt)
    (tick : s.mover = .tick → s.chosen.tickEnabled = true → P s s.chosen.tick)
    (drain : s.mover = .txDrain → s.chosen.drainEnabled = true → P s s.chosen.drain)
    (arrive : s.mover = .rxArrival → s.chosen.arrivalEnabled = true → P s s.chosen.arrive) : P s t := by
  obtain ⟨-, rfl | ⟨hm, l, c, -, hr⟩ | ⟨hm, he, rfl⟩ | ⟨hm, he, rfl⟩ | ⟨hm, he, rfl⟩ | ⟨hm, he, rfl⟩⟩ := step_cases h
  · exact choice
  · obtain ⟨n, hn⟩ := runLine_cases hr
    exact line c n t hn hm
  · exact entry hm he
  · exact tick hm he
  · exact drain hm he
  · exact arrive hm he

end Sys2Proof.Machine
end

