-- ==== Sys2Proof/Laws/Operands.lean ====
section
/-! SUPPORT. The bits of the words that registers take and give. -/

namespace Sys2Proof.Machine

/-- A one-bit field is bit 0, and every other bit is 0. -/
@[simp] theorem zextBit_getLsbD (b : Bool) (k : Nat) : (zextBit b).getLsbD k = (decide (k = 0) && b) := by
  cases b <;> simp [zextBit, BitVec.getLsbD_one]

/-- The same of the bits counted with their bound. -/
@[simp] theorem zextBit_getElem (b : Bool) (k : Nat) (h : k < 32) :
    (zextBit b)[k] = (decide (k = 0) && b) := by
  rw [← BitVec.getLsbD_eq_getElem, zextBit_getLsbD]

/-- The low `PRIO_BITS` bits are kept and the others are 0. -/
@[simp] theorem prioField_getLsbD (c : Config) (v : Word) (k : Nat) :
    (prioField c v).getLsbD k = (decide (k < c.prioBits) && v.getLsbD k) := by
  unfold prioField
  rw [BitVec.getLsbD_ofNat, Nat.testBit_mod_two_pow]
  by_cases hk : k < 32
  · simp [hk, BitVec.getLsbD]
  · simp [hk, BitVec.getLsbD_of_ge v k (by omega)]

/-- A stored priority fits its field. -/
theorem prioField_lt (c : Config) (v : Word) : (prioField c v).toNat < 2 ^ c.prioBits := by
  unfold prioField
  rw [BitVec.toNat_ofNat]
  exact lt_of_le_of_lt (Nat.mod_le _ _) (Nat.mod_lt _ (by positivity))

/-- The low byte of `UDATA`'s data word is the byte received. -/
@[simp] theorem udataWord_low (u : BitVec 24) (b : Byte) : (udataWord u b).setWidth 8 = b := by
  unfold udataWord
  ext k hk
  rw [BitVec.getElem_setWidth, BitVec.getLsbD_append]
  simp [hk]

/-- The bits above it are the drawn ones. -/
@[simp] theorem udataWord_high (u : BitVec 24) (b : Byte) : (udataWord u b).extractLsb' 8 24 = u := by
  unfold udataWord
  ext k hk
  rw [BitVec.getElem_extractLsb', BitVec.getLsbD_append]
  simp [hk]

/-- The low byte of a zero-extended byte. -/
@[simp] theorem lowByte_zextByte (b : Byte) : lowByte (zextByte b) = b := by
  unfold lowByte zextByte
  ext k hk
  simp

end Sys2Proof.Machine
end

