-- ==== Sys2Proof/Laws/Lines.lean ====
section
/-! SUPPORT. Running a program line by line: the next line of a frame, steps of the processor alone put end to
end, and the words of the decode table as lines. -/

namespace Sys2Proof.Machine

/-- With the gate on an access of the TIMER window is admitted. -/
theorem gated_on {ad : AdWord} {w : Option Word} {t s : State} (h : s.clkEn = true) :
    gated ad w t s = .next t := by
  simp [gated, h]

/-- With the gate off it faults. -/
theorem gated_off {ad : AdWord} {w : Option Word} {t s : State} (h : s.clkEn = false) :
    gated ad w t s = .next (s.raise .ungated (.access ad w)) := by
  simp [gated, h]

/-- A frame with a line left gives that line, and is past it. -/
theorem fetchLine_some {f : Frame} {fs : List Frame} {l : Line} (h : f.code[f.pos]? = some l) :
    fetchLine (f :: fs) = some (l, { f with pos := f.pos + 1 } :: fs) := by
  simp [fetchLine, h]

/-- A frame with no line left gives way to its caller. -/
theorem fetchLine_none {f : Frame} {fs : List Frame} (h : f.code[f.pos]? = none) :
    fetchLine (f :: fs) = fetchLine fs := by
  simp [fetchLine, h]

/-- The processor's step runs the line its innermost frame stands at. -/
theorem stepProcessor_line {s : State} {f : Frame} {fs : List Frame} {l : Line}
    (h : s.cont = f :: fs) (hl : f.code[f.pos]? = some l) :
    stepProcessor s = runLine l { s with cont := { f with pos := f.pos + 1 } :: fs } := by
  simp [stepProcessor, h, fetchLine_some hl]

/-- One step of the processor, then the others. -/
theorem cpuSteps_succ {s t : State} (n : Nat) (h : stepProcessor s = .next t) :
    cpuSteps (n + 1) s = cpuSteps n t := by
  simp [cpuSteps, h]

/-- Runs of the processor put end to end. -/
theorem cpuSteps_add {s t : State} {m : Nat} (n : Nat) (h : cpuSteps m s = .next t) :
    cpuSteps (m + n) s = cpuSteps n t := by
  induction m generalizing s with
  | zero => cases h; rw [Nat.zero_add]
  | succ m ih =>
    rw [Nat.succ_add]
    simp only [cpuSteps] at h ⊢
    split at h
    · exact ih h
    · cases h
    · cases h

/-- The end of a run, by its four conditions (60_exceptions.md R129). -/
theorem ended_iff (s : State) :
    Ended s ↔ fetchLine s.cont = none ∧ s.ctx = .normal ∧ s.fault = none ∧ s.txFifo = [] := by
  simp [Ended, State.ended, State.programDone, State.txfe, and_assoc]

/-- What `endWithin` can answer: the state itself where it ends, else what follows a step. -/
theorem endWithin_succ (n : Nat) (s : State) :
    State.endWithin (n + 1) s = if s.ended then some s else
      match step s with
      | .next t => State.endWithin n t
      | .fault _ => none
      | .refused _ => none := rfl

/-- One step of the machine, then the others. -/
theorem core_run_next {s t : State} (k : Nat) (h : step s = .next t) :
    Host.Core.run Sys2Proof.core (k + 1) s = Host.Core.run Sys2Proof.core k t := by
  simp only [Host.Core.run, show Sys2Proof.core.step s = .next t from h]

/-- A machine that stops at its first step runs no further. -/
theorem core_run_stop {s u : State} (k : Nat) (h : ∀ t, step s ≠ .next t) :
    Host.Core.run Sys2Proof.core (k + 1) s ≠ .next u := by
  intro hu
  cases hs : step s with
  | next t => exact h t hs
  | fault r => simp [Host.Core.run, show Sys2Proof.core.step s = .fault r from hs] at hu
  | refused r => simp [Host.Core.run, show Sys2Proof.core.step s = .refused r from hs] at hu

/-- Ticks put end to end. -/
theorem ticks_add (m n : Nat) (s : State) : ticks (m + n) s = ticks n (ticks m s) := by
  induction m generalizing s with
  | zero => rw [Nat.zero_add]; rfl
  | succ m ih => rw [Nat.succ_add]; exact ih _

/-- A line `ST <REG>, #<val>` runs the access its word decodes to. -/
theorem runLine_stImm {s : State} {ad : AdWord} {v : Word} {i : Instr} (hd : adDir ad = .write)
    (h : decode ad v = .instr i) : runLine (stImm ad v) s = exec i s := by
  simp [stImm, stLine, runLine, Expr.eval, Computed.known, withValue, runOp, hd, runWord, h]

/-- A line `LD <REG> -> <name>` runs the access its word decodes to and binds the data word. -/
theorem runLine_ldLine {s : State} {ad : AdWord} {n : Name} {i : Instr} (hd : adDir ad = .read)
    (h : decode ad 0#32 = .instr i) : runLine (ldLine ad n) s = received (some n) (exec i s) := by
  simp [ldLine, runLine, Expr.eval, Computed.known, withValue, runOp, hd, runWord, h]

/-- A line whose data word is a name's value. -/
theorem runLine_stLine {s : State} {ad : AdWord} {e : Expr} {v : Word} {i : Instr} (hd : adDir ad = .write)
    (he : e.eval s = .known v) (h : decode ad v = .instr i) : runLine (stLine ad e) s = exec i s := by
  simp [stLine, runLine, he, Computed.known, withValue, runOp, hd, runWord, h]

/-- A name the operation has bound has its value. -/
theorem Expr.eval_var {s : State} {n : Name} {v : Word} (h : s.frame.words.lookup n = some v) :
    (Expr.var n).eval s = .known v := by
  simp [Expr.eval, Computed.orFree, Computed.known, h]

/-- A name the operation has not written has a free value, and the line that reads it has taken one. -/
theorem Expr.eval_var_free {s : State} {n : Name} (h : s.frame.words.lookup n = none) :
    (Expr.var n).eval s = ⟨Config.freeWord s.draws n, true⟩ := by
  simp [Expr.eval, Computed.orFree, h]

/-- The same for byte strings. -/
theorem StrExpr.eval_var {s : State} {n : Name} {b : List Byte} (h : s.frame.strs.lookup n = some b) :
    (StrExpr.var n).eval s = .known b := by
  simp [StrExpr.eval, Computed.orFree, Computed.known, h]

/-- The same for byte strings. -/
theorem StrExpr.eval_var_free {s : State} {n : Name} (h : s.frame.strs.lookup n = none) :
    (StrExpr.var n).eval s = ⟨Config.freeString s.draws n, true⟩ := by
  simp [StrExpr.eval, Computed.orFree, h]

/-- The first byte of a string that has one. -/
theorem Expr.eval_first {s : State} {t : StrExpr} {b : Byte} {rest : List Byte}
    (h : t.eval s = .known (b :: rest)) : (Expr.first t).eval s = .known (zextByte b) := by
  simp [Expr.eval, Computed.both, Computed.orFree, Computed.known, h]

/-- What a line does with the value its expression has. -/
theorem withValue_eq {α : Type} {s : State} {v : Computed α} {a : α} {free : Bool} {k : α → State → Result}
    (h : v = ⟨a, free⟩) : withValue s v k = k a (s.took free) := by
  rw [h]; rfl

/-- Where an expression takes no free value, the line runs with its value and the counter stands. -/
theorem withValue_known {α : Type} (s : State) (a : α) (k : α → State → Result) :
    withValue s (.known a) k = k a s := rfl

@[simp] theorem decode_stClkTimer (v : Word) : decode 0xB000#16 v = .instr (.stClkTimer v) := rfl
@[simp] theorem decode_stTctrl (v : Word) : decode 0x8000#16 v = .instr (.stTctrl v) := rfl
@[simp] theorem decode_stTcount (v : Word) : decode 0x8004#16 v = .instr (.stTcount v) := rfl
@[simp] theorem decode_stTload (v : Word) : decode 0x8008#16 v = .instr (.stTload v) := rfl
@[simp] theorem decode_stTisr (v : Word) : decode 0x800C#16 v = .instr (.stTisr v) := rfl
@[simp] theorem decode_stTier (v : Word) : decode 0x8010#16 v = .instr (.stTier v) := rfl
@[simp] theorem decode_stIcMaskClr (v : Word) : decode 0x9000#16 v = .instr (.stIcMaskClr v) := rfl
@[simp] theorem decode_stIcPrio (v : Word) : decode 0x9004#16 v = .instr (.stIcPrio v) := rfl
@[simp] theorem decode_stIcAck (v : Word) : decode 0x9008#16 v = .instr (.stIcAck v) := rfl
@[simp] theorem decode_ldUdata (v : Word) : decode 0x2000#16 v = .instr .ldUdata := rfl
@[simp] theorem decode_stUdata (v : Word) : decode 0xA000#16 v = .instr (.stUdata v) := rfl
@[simp] theorem decode_ldUstat (v : Word) : decode 0x2004#16 v = .instr .ldUstat := rfl
@[simp] theorem decode_ie (v : Word) : decode 0xF000#16 v = .instr .ie := rfl
@[simp] theorem decode_id (v : Word) : decode 0xF004#16 v = .instr .id := rfl
@[simp] theorem decode_iret (v : Word) : decode 0xF008#16 v = .instr .iret := rfl

/-- An access descriptor is its three fields (30_encoding.md R52). -/
theorem adWord_fields (ad : AdWord) :
    ad = BitVec.ofBool (ad.getLsbD 15) ++ adRegion ad ++ adOffset ad := by
  apply BitVec.eq_of_toNat_eq
  simp only [adRegion, adOffset, BitVec.toNat_append, BitVec.extractLsb'_toNat, BitVec.toNat_ofBool,
    BitVec.getLsbD]
  have : ad.toNat < 65536 := ad.isLt
  rw [Nat.testBit_eq_decide_div_mod_eq]
  rw [← Nat.shiftLeft_add_eq_or_of_lt (by omega), ← Nat.shiftLeft_add_eq_or_of_lt (by omega)]
  simp only [Nat.shiftLeft_eq, Nat.shiftRight_eq_div_pow]
  by_cases h : ad.toNat / 2 ^ 15 % 2 = 1
  · rw [decide_eq_true h]; simp; omega
  · rw [decide_eq_false h]; simp; omega

/-- The three fields of an access descriptor built from them (30_encoding.md R52). -/
theorem mkAd_fields (d : Dir) (w : Window) (off : BitVec 12) :
    adDir (mkAd d w off) = d ∧ adRegion (mkAd d w off) = regionId w ∧ adOffset (mkAd d w off) = off := by
  have h : ∀ b : BitVec 1, (b ++ regionId w ++ off).getLsbD 15 = b.getLsbD 0 ∧
      (b ++ regionId w ++ off).extractLsb' 12 3 = regionId w ∧
      (b ++ regionId w ++ off).extractLsb' 0 12 = off := by
    intro b
    refine ⟨?_, ?_, ?_⟩
    · simp only [BitVec.getLsbD_append, Nat.reduceLT, if_false, Nat.reduceSub]
    · apply BitVec.eq_of_getLsbD_eq
      intro k hk
      simp only [BitVec.getLsbD_extractLsb', BitVec.getLsbD_append, hk, decide_true, Bool.true_and,
        show ¬ 12 + k < 12 by omega, if_false, show 12 + k - 12 = k by omega, if_true]
    · apply BitVec.eq_of_getLsbD_eq
      intro k hk
      simp only [BitVec.getLsbD_extractLsb', BitVec.getLsbD_append, hk, decide_true, Bool.true_and,
        Nat.zero_add, if_true]
  unfold mkAd adDir adRegion adOffset
  cases d with
  | read => exact ⟨by rw [(h 0#1).1]; rfl, (h 0#1).2⟩
  | write => exact ⟨by rw [(h 1#1).1]; rfl, (h 1#1).2⟩

theorem windowOf_regionId (w : Window) : windowOf (regionId w) = some w := by cases w <;> rfl

/-- What an access descriptor decodes to (30_encoding.md R55). -/
theorem decode_mkAd (d : Dir) (w : Window) (off : BitVec 12) (v : Word) :
    decode (mkAd d w off) v =
      match registerAt w off with
      | some r => .instr (accessOf d r v)
      | none => .unmapped := by
  obtain ⟨h1, h2, h3⟩ := mkAd_fields d w off
  cases h : registerAt w off <;> simp [decode, h1, h2, h3, windowOf_regionId, h]

end Sys2Proof.Machine
end

