-- ==== Sys2Proof/Laws/PerInstr.lean ====
section
/-! SUPPORT. What holds of every operation as syntax, one lemma per constructor. -/

/-- An operation's word decodes with every data word, and to an operation that has the same word: the data word
picks no operation (30_encoding.md R54, R55). -/
def Sys2Proof.Laws.OneWord.Statement (i : Sys2Proof.Instr) : Prop :=
  ∀ v : Sys2Proof.Word, ∃ j : Sys2Proof.Instr,
    Sys2Proof.decode (Sys2Proof.encode i).ad v = .instr j ∧ (Sys2Proof.encode j).ad = (Sys2Proof.encode i).ad

theorem Sys2Proof.Laws.OneWord.ldClkTimer :
    Sys2Proof.Laws.OneWord.Statement .ldClkTimer := fun _ => ⟨_, rfl, rfl⟩
theorem Sys2Proof.Laws.OneWord.stClkTimer (w : Sys2Proof.Word) :
    Sys2Proof.Laws.OneWord.Statement (.stClkTimer w) := fun v => ⟨.stClkTimer v, by simp only [Sys2Proof.encode]; rfl, rfl⟩
theorem Sys2Proof.Laws.OneWord.ldTctrl :
    Sys2Proof.Laws.OneWord.Statement .ldTctrl := fun _ => ⟨_, rfl, rfl⟩
theorem Sys2Proof.Laws.OneWord.stTctrl (w : Sys2Proof.Word) :
    Sys2Proof.Laws.OneWord.Statement (.stTctrl w) := fun v => ⟨.stTctrl v, by simp only [Sys2Proof.encode]; rfl, rfl⟩
theorem Sys2Proof.Laws.OneWord.ldTcount :
    Sys2Proof.Laws.OneWord.Statement .ldTcount := fun _ => ⟨_, rfl, rfl⟩
theorem Sys2Proof.Laws.OneWord.stTcount (w : Sys2Proof.Word) :
    Sys2Proof.Laws.OneWord.Statement (.stTcount w) := fun v => ⟨.stTcount v, by simp only [Sys2Proof.encode]; rfl, rfl⟩
theorem Sys2Proof.Laws.OneWord.ldTload :
    Sys2Proof.Laws.OneWord.Statement .ldTload := fun _ => ⟨_, rfl, rfl⟩
theorem Sys2Proof.Laws.OneWord.stTload (w : Sys2Proof.Word) :
    Sys2Proof.Laws.OneWord.Statement (.stTload w) := fun v => ⟨.stTload v, by simp only [Sys2Proof.encode]; rfl, rfl⟩
theorem Sys2Proof.Laws.OneWord.ldTisr :
    Sys2Proof.Laws.OneWord.Statement .ldTisr := fun _ => ⟨_, rfl, rfl⟩
theorem Sys2Proof.Laws.OneWord.stTisr (w : Sys2Proof.Word) :
    Sys2Proof.Laws.OneWord.Statement (.stTisr w) := fun v => ⟨.stTisr v, by simp only [Sys2Proof.encode]; rfl, rfl⟩
theorem Sys2Proof.Laws.OneWord.ldTier :
    Sys2Proof.Laws.OneWord.Statement .ldTier := fun _ => ⟨_, rfl, rfl⟩
theorem Sys2Proof.Laws.OneWord.stTier (w : Sys2Proof.Word) :
    Sys2Proof.Laws.OneWord.Statement (.stTier w) := fun v => ⟨.stTier v, by simp only [Sys2Proof.encode]; rfl, rfl⟩
theorem Sys2Proof.Laws.OneWord.ldIcMaskClr :
    Sys2Proof.Laws.OneWord.Statement .ldIcMaskClr := fun _ => ⟨_, rfl, rfl⟩
theorem Sys2Proof.Laws.OneWord.stIcMaskClr (w : Sys2Proof.Word) :
    Sys2Proof.Laws.OneWord.Statement (.stIcMaskClr w) := fun v => ⟨.stIcMaskClr v, by simp only [Sys2Proof.encode]; rfl, rfl⟩
theorem Sys2Proof.Laws.OneWord.ldIcPrio :
    Sys2Proof.Laws.OneWord.Statement .ldIcPrio := fun _ => ⟨_, rfl, rfl⟩
theorem Sys2Proof.Laws.OneWord.stIcPrio (w : Sys2Proof.Word) :
    Sys2Proof.Laws.OneWord.Statement (.stIcPrio w) := fun v => ⟨.stIcPrio v, by simp only [Sys2Proof.encode]; rfl, rfl⟩
theorem Sys2Proof.Laws.OneWord.ldIcAck :
    Sys2Proof.Laws.OneWord.Statement .ldIcAck := fun _ => ⟨_, rfl, rfl⟩
theorem Sys2Proof.Laws.OneWord.stIcAck (w : Sys2Proof.Word) :
    Sys2Proof.Laws.OneWord.Statement (.stIcAck w) := fun v => ⟨.stIcAck v, by simp only [Sys2Proof.encode]; rfl, rfl⟩
theorem Sys2Proof.Laws.OneWord.ldUdata :
    Sys2Proof.Laws.OneWord.Statement .ldUdata := fun _ => ⟨_, rfl, rfl⟩
theorem Sys2Proof.Laws.OneWord.stUdata (w : Sys2Proof.Word) :
    Sys2Proof.Laws.OneWord.Statement (.stUdata w) := fun v => ⟨.stUdata v, by simp only [Sys2Proof.encode]; rfl, rfl⟩
theorem Sys2Proof.Laws.OneWord.ldUstat :
    Sys2Proof.Laws.OneWord.Statement .ldUstat := fun _ => ⟨_, rfl, rfl⟩
theorem Sys2Proof.Laws.OneWord.stUstat (w : Sys2Proof.Word) :
    Sys2Proof.Laws.OneWord.Statement (.stUstat w) := fun v => ⟨.stUstat v, by simp only [Sys2Proof.encode]; rfl, rfl⟩
theorem Sys2Proof.Laws.OneWord.ie :
    Sys2Proof.Laws.OneWord.Statement .ie := fun _ => ⟨_, rfl, rfl⟩
theorem Sys2Proof.Laws.OneWord.id :
    Sys2Proof.Laws.OneWord.Statement .id := fun _ => ⟨_, rfl, rfl⟩
theorem Sys2Proof.Laws.OneWord.iret :
    Sys2Proof.Laws.OneWord.Statement .iret := fun _ => ⟨_, rfl, rfl⟩
end

