-- ==== Sys2Proof/Tests/Slice0.lean ====
section
/-! SUPPORT. The model's own tests: the words of the decode table written out bit by bit from 30_encoding.md R52,
R53 and R55; ill-formed configurations and programs refused; vectors of 95_test_vectors.md (their numbers stand in
the comments); and for each statement with hypotheses a state and operands that meet them. -/

namespace Sys2Proof.Tests

open Sys2Proof.Machine

/-! The decode table. The bits are `W`, `RGN`, `OFF` (R52), or the CORE word (R53). -/

theorem test_decode_ld_clk_timer : decode 0b0011000000000000#16 0x89ABCDEF#32 = .instr .ldClkTimer := by decide
theorem test_decode_st_clk_timer :
    decode 0b1011000000000000#16 0x89ABCDEF#32 = .instr (.stClkTimer 0x89ABCDEF#32) := by decide
theorem test_decode_ld_tctrl : decode 0b0000000000000000#16 0x89ABCDEF#32 = .instr .ldTctrl := by decide
theorem test_decode_st_tctrl :
    decode 0b1000000000000000#16 0x89ABCDEF#32 = .instr (.stTctrl 0x89ABCDEF#32) := by decide
theorem test_decode_ld_tcount : decode 0b0000000000000100#16 0x89ABCDEF#32 = .instr .ldTcount := by decide
theorem test_decode_st_tcount :
    decode 0b1000000000000100#16 0x89ABCDEF#32 = .instr (.stTcount 0x89ABCDEF#32) := by decide
theorem test_decode_ld_tload : decode 0b0000000000001000#16 0x89ABCDEF#32 = .instr .ldTload := by decide
theorem test_decode_st_tload :
    decode 0b1000000000001000#16 0x89ABCDEF#32 = .instr (.stTload 0x89ABCDEF#32) := by decide
theorem test_decode_ld_tisr : decode 0b0000000000001100#16 0x89ABCDEF#32 = .instr .ldTisr := by decide
theorem test_decode_st_tisr :
    decode 0b1000000000001100#16 0x89ABCDEF#32 = .instr (.stTisr 0x89ABCDEF#32) := by decide
theorem test_decode_ld_tier : decode 0b0000000000010000#16 0x89ABCDEF#32 = .instr .ldTier := by decide
theorem test_decode_st_tier :
    decode 0b1000000000010000#16 0x89ABCDEF#32 = .instr (.stTier 0x89ABCDEF#32) := by decide
theorem test_decode_ld_ic_mask_clr : decode 0b0001000000000000#16 0x89ABCDEF#32 = .instr .ldIcMaskClr := by decide
theorem test_decode_st_ic_mask_clr :
    decode 0b1001000000000000#16 0x89ABCDEF#32 = .instr (.stIcMaskClr 0x89ABCDEF#32) := by decide
theorem test_decode_ld_ic_prio : decode 0b0001000000000100#16 0x89ABCDEF#32 = .instr .ldIcPrio := by decide
theorem test_decode_st_ic_prio :
    decode 0b1001000000000100#16 0x89ABCDEF#32 = .instr (.stIcPrio 0x89ABCDEF#32) := by decide
theorem test_decode_ld_ic_ack : decode 0b0001000000001000#16 0x89ABCDEF#32 = .instr .ldIcAck := by decide
theorem test_decode_st_ic_ack :
    decode 0b1001000000001000#16 0x89ABCDEF#32 = .instr (.stIcAck 0x89ABCDEF#32) := by decide
theorem test_decode_ld_udata : decode 0b0010000000000000#16 0x89ABCDEF#32 = .instr .ldUdata := by decide
theorem test_decode_st_udata :
    decode 0b1010000000000000#16 0x89ABCDEF#32 = .instr (.stUdata 0x89ABCDEF#32) := by decide
theorem test_decode_ld_ustat : decode 0b0010000000000100#16 0x89ABCDEF#32 = .instr .ldUstat := by decide
theorem test_decode_st_ustat :
    decode 0b1010000000000100#16 0x89ABCDEF#32 = .instr (.stUstat 0x89ABCDEF#32) := by decide
theorem test_decode_ie : decode 0b1111000000000000#16 0x89ABCDEF#32 = .instr .ie := by decide
theorem test_decode_id : decode 0b1111000000000100#16 0x89ABCDEF#32 = .instr .id := by decide
theorem test_decode_iret : decode 0b1111000000001000#16 0x89ABCDEF#32 = .instr .iret := by decide

/-- G6, G7, and the words next to a register's. -/
theorem test_decode_rejects :
    decode 0xF00C#16 0#32 = .reserved ∧ decode 0x7000#16 0#32 = .reserved ∧ decode 0x4000#16 0#32 = .reserved ∧
    decode 0xE000#16 0#32 = .reserved ∧ decode 0x0014#16 0#32 = .unmapped ∧ decode 0x3004#16 0#32 = .unmapped ∧
    decode 0x100C#16 0#32 = .unmapped ∧ decode 0x2001#16 0#32 = .unmapped ∧ decode 0x0FFF#16 0#32 = .unmapped := by
  decide

/-- The opcode table's numbering: the word alone leaves a write's data word 0; a data word stands above it. -/
theorem test_table_word :
    decodeTableWord 16 0x8004 = some (.stTcount 0#32) ∧ decodeTableWord 48 0x000000058008 = some (.stTload 5#32) ∧
    decodeTableWord 16 0x7000 = none ∧ decodeTableWord 16 0x0014 = none := by
  decide

/-! Well-formed configurations and programs, and one ill-formed for each check. -/

/-- A configuration with one parameter replaced is refused. -/
def refuses (f : Config → Config) : Bool := !(f Config.vectors).wf

theorem test_wf_config : Config.vectors.wf = true := by decide
theorem test_wf_base_timer : refuses (fun c => { c with baseTimer := 0x40000004#32 }) = true := by decide
theorem test_wf_base_intc : refuses (fun c => { c with baseIntc := 0x40001004#32 }) = true := by decide
theorem test_wf_base_uart : refuses (fun c => { c with baseUart := 0x40002004#32 }) = true := by decide
theorem test_wf_base_clk : refuses (fun c => { c with baseClk := 0x40003004#32 }) = true := by decide
theorem test_wf_disjoint : refuses (fun c => { c with baseClk := 0x40000000#32 }) = true := by decide
theorem test_wf_clock : refuses (fun c => { c with clockHz := 0 }) = true := by decide
theorem test_wf_period : refuses (fun c => { c with periodNum := 0 }) = true := by decide
theorem test_wf_period_den : refuses (fun c => { c with periodDen := 0 }) = true := by decide
theorem test_wf_tx_depth : refuses (fun c => { c with txDepth := 0 }) = true := by decide
theorem test_wf_rx_depth : refuses (fun c => { c with rxDepth := 0 }) = true := by decide
theorem test_wf_prio_bits_low : refuses (fun c => { c with prioBits := 0 }) = true := by decide
theorem test_wf_prio_bits_high : refuses (fun c => { c with prioBits := 33 }) = true := by decide
theorem test_wf_prio_value : refuses (fun c => { c with prioValue := 256 }) = true := by decide
theorem test_wf_ring_cap : refuses (fun c => { c with rbCap := 63 }) = true := by decide
theorem test_wf_diag_empty : refuses (fun c => { c with diagLine := [] }) = true := by decide
theorem test_wf_diag_long : refuses (fun c => { c with rbCap := 4 }) = true := by decide
theorem test_wf_ring_top : refuses (fun c => { c with rbBase := 0xFFFFFFF0#32 }) = true := by decide
theorem test_wf_ring_timer : refuses (fun c => { c with rbBase := 0x40000FFF#32 }) = true := by decide
theorem test_wf_ring_intc : refuses (fun c => { c with rbBase := 0x40001800#32 }) = true := by decide
theorem test_wf_ring_uart : refuses (fun c => { c with rbBase := 0x40002800#32 }) = true := by decide
theorem test_wf_ring_clk : refuses (fun c => { c with rbBase := 0x40003FFF#32 }) = true := by decide

/-- The driver operations' lines are programs. -/
theorem test_wf_drivers :
    [pollClrLines 0x2004#16 1#32, pollSetLines 0x2004#16 1#32, putByteLines, getByteLines, putStringLines,
      readLineLines Config.vectors 8, initLines Config.vectors, handlerLines Config.vectors,
      ringPushLines Config.vectors, ringDrainLines Config.vectors, csEnterLines, csExitLines, mainLineLines,
      bootLines, glueLines].all codeWf = true := by
  decide

theorem test_wf_reserved_word : codeWf [.op 0x7000#16 (.lit 0#32) none] = false := by decide
theorem test_wf_unmapped_word : codeWf [.op 0x0014#16 (.lit 0#32) none] = false := by decide
theorem test_wf_goto : codeWf [.goto 2] = false := by decide
theorem test_wf_if_goto : codeWf [.ifGoto (.eq (.lit 0#32) (.lit 0#32)) 2] = false := by decide
theorem test_wf_read_line : codeWf [.call (.readLine 0 0 none)] = false := by decide

/-! One operation on a small state. -/

/-- The next state meets a test. -/
def ends (r : Result) (p : State → Bool) : Bool :=
  match r with
  | .next t => p t
  | .fault _ => false
  | .refused _ => false

/-- Reset, with the gate on. -/
def gateOn : State := { State.reset with clkEn := true }

/-- `n` bytes. -/
def bytes (n : Nat) : List Byte := List.replicate n 0x55#8

/-- The state holds this fault. -/
def holds (f : Fault) (t : State) : Bool := t.fault.any fun r => r.fault == f

/-- T2. -/
theorem test_ld_clk_timer : ends (exec .ldClkTimer gateOn) (fun t => t.rdata == 1#32) = true := by decide
/-- T1. -/
theorem test_st_clk_timer : ends (exec (.stClkTimer 1#32) State.reset) (fun t => t.clkEn) = true := by decide
/-- T8. -/
theorem test_ld_tctrl :
    ends (exec .ldTctrl { gateOn with tSt := true, tAr := true }) (fun t => t.rdata == 3#32) = true := by decide
/-- T8 with `AR` alone: bit 1. -/
theorem test_ld_tctrl_ar : ends (exec .ldTctrl { gateOn with tAr := true }) (fun t => t.rdata == 2#32) = true := by decide
/-- T6. -/
theorem test_st_tctrl :
    ends (exec (.stTctrl 3#32) { gateOn with tCount := 7#32 })
      (fun t => t.tSt && t.tAr && t.tCount == 7#32) = true := by decide
/-- T7. -/
theorem test_st_tctrl_reserved :
    ends (exec (.stTctrl 0xFFFFFFFC#32) { gateOn with tSt := true, tAr := true })
      (fun t => !t.tSt && !t.tAr) = true := by decide
/-- T10. -/
theorem test_ld_tcount :
    ends (exec .ldTcount (ticks 5 { gateOn with tSt := true, tCount := 48000000#32 }))
      (fun t => t.rdata == 0x02DC6BFB#32) = true := by decide
/-- T3. -/
theorem test_ld_tcount_ungated : ends (exec .ldTcount State.reset) (holds .ungated) = true := by decide
/-- T9. -/
theorem test_st_tcount :
    ends (exec (.stTcount 0x02DC6C00#32) gateOn) (fun t => t.tCount == 48000000#32 && t.tLoad == 0#32) = true := by
  decide
/-- F5. -/
theorem test_st_tcount_ungated : ends (exec (.stTcount 1#32) State.reset) (holds .ungated) = true := by decide
/-- T12. -/
theorem test_ld_tload : ends (exec .ldTload { gateOn with tLoad := 5#32 }) (fun t => t.rdata == 5#32) = true := by decide
/-- T11. -/
theorem test_st_tload :
    ends (exec (.stTload 5#32) { gateOn with tCount := 9#32 })
      (fun t => t.tLoad == 5#32 && t.tCount == 9#32) = true := by decide
/-- T16. -/
theorem test_ld_tisr :
    ends (exec .ldTisr { gateOn with tOvf := true }) (fun t => t.rdata == 1#32 && t.tOvf) = true := by decide
/-- T15. -/
theorem test_st_tisr_one :
    ends (exec (.stTisr 0xFFFFFFFF#32) { gateOn with tOvf := true }) (fun t => !t.tOvf) = true := by decide
/-- T14, with the other bits written 1. -/
theorem test_st_tisr_zero :
    ends (exec (.stTisr 0xFFFFFFFE#32) { gateOn with tOvf := true }) (fun t => t.tOvf) = true := by decide
/-- T19. -/
theorem test_ld_tier : ends (exec .ldTier { gateOn with tIe := true }) (fun t => t.rdata == 1#32) = true := by decide
/-- T17. -/
theorem test_st_tier_on :
    ends (exec (.stTier 1#32) { gateOn with tOvf := true }) (fun t => t.tIe && t.line) = true := by decide
/-- T18. -/
theorem test_st_tier_off :
    ends (exec (.stTier 0#32) { gateOn with tOvf := true, tIe := true }) (fun t => !t.line && t.tOvf) = true := by decide
/-- I3. -/
theorem test_ld_ic_mask_clr : ends (exec .ldIcMaskClr gateOn) (holds .woRead) = true := by decide
/-- T5, I2. -/
theorem test_st_ic_mask_clr :
    ends (exec (.stIcMaskClr 1#32) { State.reset with icMasked := true }) (fun t => !t.icMasked) = true := by decide
/-- I1. -/
theorem test_st_ic_mask_clr_zero :
    ends (exec (.stIcMaskClr 0#32) { State.reset with icMasked := true }) (fun t => t.icMasked) = true := by decide
/-- I5. -/
theorem test_ld_ic_prio :
    ends (exec .ldIcPrio { State.reset with icPrio := 0xFF#32 }) (fun t => t.rdata == 0xFF#32) = true := by decide
/-- I4. -/
theorem test_st_ic_prio :
    ends (exec (.stIcPrio 0x1FF#32) State.reset) (fun t => t.icPrio == 0xFF#32 && t.icPrioValid) = true := by decide
/-- I9, F4. -/
theorem test_ld_ic_ack : ends (exec .ldIcAck State.reset) (holds .woRead) = true := by decide
/-- I6. -/
theorem test_st_ic_ack :
    ends (exec (.stIcAck 1#32) { State.reset with icActive := true })
      (fun t => !t.icActive && !t.icRearm) = true := by decide
/-- I8. -/
theorem test_st_ic_ack_idle :
    ends (exec (.stIcAck 1#32) { State.reset with tOvf := true, tIe := true })
      (fun t => t == { State.reset with tOvf := true, tIe := true, trace := [.acc .normal 0x9008#16 1#32] }) = true := by
  decide
/-- U1. -/
theorem test_ld_udata :
    ends (exec .ldUdata { State.reset with rxFifo := [0x68#8, 0x69#8] }) (fun t => t.rxFifo == [0x69#8]) = true := by
  decide
/-- U2. -/
theorem test_ld_udata_empty :
    ends (exec .ldUdata State.reset) (fun t => holds .rxUnderflow t && t.trace == []) = true := by decide
/-- U3. -/
theorem test_st_udata :
    ends (exec (.stUdata 0x141#32) State.reset) (fun t => t.txFifo == [0x41#8]) = true := by decide
/-- U4, F6. -/
theorem test_st_udata_full :
    ends (exec (.stUdata 0x41#32) { State.reset with txFifo := bytes 16 }) (holds .txOverflow) = true := by decide
/-- U6, U8, U9. -/
theorem test_ld_ustat :
    ends (exec .ldUstat State.reset) (fun t => t.rdata == 6#32) = true ∧
    ends (exec .ldUstat { State.reset with txFifo := bytes 3, rxFifo := bytes 2 }) (fun t => t.rdata == 8#32) = true ∧
    ends (exec .ldUstat { State.reset with rxFifo := bytes 1 }) (fun t => t.rdata == 0xC#32) = true := by decide
/-- U7, U10. -/
theorem test_ld_ustat_full :
    ends (exec .ldUstat { State.reset with txFifo := bytes 16 }) (fun t => t.rdata == 3#32) = true ∧
    ends (exec .ldUstat { State.reset with txFifo := bytes 16, rxFifo := bytes 16 })
      (fun t => t.rdata == 9#32) = true := by decide
/-- U11. -/
theorem test_st_ustat : ends (exec (.stUstat 0#32) State.reset) (holds .roWrite) = true := by decide
/-- G1. -/
theorem test_ie : ends (exec .ie State.reset) (fun t => t.cpuIe) = true := by decide
/-- G2. -/
theorem test_id : ends (exec .id { State.reset with cpuIe := true }) (fun t => !t.cpuIe) = true := by decide
/-- G3. -/
theorem test_iret :
    ends (exec .iret { State.reset with ctx := .handler, saved := some [Frame.start glueLines] })
      (fun t => t.ctx == .normal && t.cont == [Frame.start glueLines] && t.saved.isNone && t.trace == [.iret]) = true := by
  decide
/-- G4. -/
theorem test_iret_outside : ends (exec .iret State.reset) (holds .iretOutside) = true := by decide

/-! The other agents, the delivery, the admission order. -/

/-- K1 to K6, K12: counting down. -/
theorem test_tick_down :
    ({ gateOn with tCount := 5#32, tAr := true, tLoad := 9#32 }.tick).tCount = 4#32 ∧
    ({ gateOn with tCount := 1#32, tAr := true, tLoad := 9#32 }.tick).tCount = 9#32 ∧
    ({ gateOn with tCount := 1#32, tSt := true, tLoad := 9#32 }.tick).tCount = 0#32 ∧
    ({ gateOn with tCount := 1#32, tSt := true, tLoad := 9#32 }.tick).tSt = false ∧
    ({ gateOn with tCount := 0#32, tAr := true, tLoad := 9#32 }.tick).tCount = 0xFFFFFFFF#32 ∧
    ({ gateOn with tCount := 0#32, tAr := true, tLoad := 9#32 }.tick).tOvf = false ∧
    ({ gateOn with tCount := 1#32, tAr := true }.tick).tOvf = true := by decide

/-- Reset, the gate on, counting up. -/
def countingUp : State := { gateOn with cfg := { Config.vectors with timerDir := .up } }

/-- K7 to K10: counting up. -/
theorem test_tick_up :
    ({ countingUp with tCount := 0xFFFFFFFE#32, tLoad := 10#32 }.tick).tCount = 0xFFFFFFFF#32 ∧
    ({ countingUp with tCount := 0xFFFFFFFF#32, tAr := true, tLoad := 10#32 }.tick).tCount = 10#32 ∧
    ({ countingUp with tCount := 0xFFFFFFFF#32, tSt := true, tLoad := 10#32 }.tick).tCount = 0#32 ∧
    ({ countingUp with tCount := 0xFFFFFFFF#32 }.tick).trace = [.evt] := by decide

/-- U12. -/
theorem test_drain :
    ({ State.reset with txFifo := [0x41#8, 0x42#8] }.drain) =
      { State.reset with txFifo := [0x42#8], txOut := [0x41#8], trace := [.tx 0x41#8] } := by decide

/-- U13, U14. -/
theorem test_arrive :
    ({ State.reset with rxScript := [0x0A#8] }.arrive) =
      { State.reset with rxFifo := [0x0A#8], trace := [.rx 0x0A#8] } ∧
    ({ State.reset with rxScript := [0x55#8], rxFifo := bytes 16 }.arrive) =
      { State.reset with rxFifo := bytes 16, trace := [.rxDrop 0x55#8] } := by decide

/-- U15. -/
theorem test_arrive_hold :
    { State.reset with cfg := { Config.vectors with rxOverrun := .hold }
                       rxScript := [0x55#8]
                       rxFifo := bytes 16 }.enabled .rxArrival = false := by decide

/-- A request pends: line, priority written, unmasked. -/
def requesting : State :=
  { gateOn with tOvf := true, tIe := true, icMasked := false, icPrioValid := true, cpuIe := true }

/-- E1, E2, E3. -/
theorem test_deliverable :
    requesting.deliverable = true ∧ { requesting with cpuIe := false }.deliverable = false ∧
    { requesting with ctx := .handler }.deliverable = false := by decide

/-- E1. -/
theorem test_delivery :
    ends (step { requesting with schedule := [.delivery] })
      (fun t => t.icActive && !t.icRearm && t.ctx == .handler && t.saved == some [] && t.trace == [.deliver]) = true := by
  decide

/-- F7. -/
theorem test_delivery_unrouted :
    ends (step { requesting with icPrioValid := false, schedule := [.delivery] }) (holds .unrouted) = true := by decide

/-- The `pending` table of L2.5. -/
theorem test_pending :
    { requesting with icRearm := true }.pending = true ∧
    { requesting with tOvf := false, icRearm := true }.pending = true ∧
    { requesting with tIe := false }.pending = false ∧ { requesting with tOvf := false }.pending = false ∧
    { requesting with icMasked := true }.pending = false ∧
    { requesting with icRearm := true, icActive := true }.pending = false := by decide

/-- F1 to F4, T20 to T23. -/
theorem test_admission :
    ends (procAccess .read .w8 0x40001009#32 0#32 State.reset) (holds .width) = true ∧
    ends (procAccess .read .w32 0x4000100A#32 0#32 State.reset) (holds .misaligned) = true ∧
    ends (procAccess .read .w32 0x4000100C#32 0#32 State.reset) (holds .unmapped) = true ∧
    ends (procAccess .read .w32 0x40001008#32 0#32 State.reset) (holds .woRead) = true ∧
    ends (procAccess .write .w32 0x40000006#32 0#32 State.reset) (holds .misaligned) = true ∧
    ends (procAccess .write .w16 0x40000006#32 0#32 State.reset) (holds .width) = true ∧
    ends (procAccess .read .w32 0x40000014#32 0#32 State.reset) (holds .unmapped) = true := by decide

/-- R1 to R5. -/
theorem test_reload :
    reload .down 24000000 2 1 = 0x02DC6C00#32 ∧ reload .up 24000000 2 1 = 0xFD239400#32 ∧
    reload .down 24000000 0 1 = 0#32 ∧ reload .down 10 15 100 = 1#32 ∧ reload .up 4294967296 1 1 = 0#32 := by decide

/-- An operation placed after reset is what the next step runs. -/
theorem test_fetch_word :
    ends (step (State.reset.withFetchWord 16 0xF000)) (fun t => t.cpuIe) = true ∧
    ends (step (State.reset.withFetchWord 48 0x00000001B000)) (fun t => t.clkEn) = true := by decide

/-- The machine stops with the fault (R114). -/
theorem test_fault_stops : step { State.reset with fault := some ⟨.fetch, .fetch 0x40000000#32⟩ } = .fault .fetch := rfl

/-! For each statement with hypotheses, concrete values that meet them all; where it has clauses, values at the
boundary of each. -/

/-- A line of the program runs, with the processor's turn. -/
def running (ad : AdWord) (dst : Option Name) : State :=
  { State.reset with cont := [Frame.start [.op ad (.lit 1#32) dst]], schedule := [.processor] }

/-- What is left of its continuation. -/
def ran (ad : AdWord) (dst : Option Name) : List Frame := [{ Frame.start [.op ad (.lit 1#32) dst] with pos := 1 }]

theorem witness_StepRunsDecodedWord :
    ((running 0x2004#16 (some 0)).fault = none ∧ (running 0x2004#16 (some 0)).mover = .processor ∧
      fetchLine (running 0x2004#16 (some 0)).chosen.cont =
        some (.op 0x2004#16 (.lit 1#32) (some 0), ran 0x2004#16 (some 0)) ∧
      Expr.eval { (running 0x2004#16 (some 0)).chosen with cont := ran 0x2004#16 (some 0) } (.lit 1#32) = .known 1#32 ∧
      decode 0x2004#16 1#32 = .instr .ldUstat) ∧
    (fetchLine (running 0xB000#16 none).chosen.cont = some (.op 0xB000#16 (.lit 1#32) none, ran 0xB000#16 none) ∧
      decode 0xB000#16 1#32 = .instr (.stClkTimer 1#32)) := by decide

theorem witness_StepStopsOnOtherWords :
    [0x7000#16, 0x0014#16, 0x8006#16].Forall (fun ad => (running ad none).fault = none ∧
      (running ad none).mover = .processor ∧
      fetchLine (running ad none).chosen.cont = some (.op ad (.lit 1#32) none, ran ad none) ∧
      Expr.eval { (running ad none).chosen with cont := ran ad none } (.lit 1#32) = .known 1#32 ∧
      (decode ad 1#32 = .reserved ∨ decode ad 1#32 = .unmapped)) := by
  simp only [List.forall_cons]
  decide

/-- The same with a name for the data word. -/
theorem witness_StepStopsOnOtherWords_named :
    (running 0x0014#16 (some 0)).fault = none ∧ (running 0x0014#16 (some 0)).mover = .processor ∧
    fetchLine (running 0x0014#16 (some 0)).chosen.cont =
      some (.op 0x0014#16 (.lit 1#32) (some 0), ran 0x0014#16 (some 0)) ∧
    Expr.eval { (running 0x0014#16 (some 0)).chosen with cont := ran 0x0014#16 (some 0) } (.lit 1#32) = .known 1#32 ∧
    decode 0x0014#16 1#32 = .unmapped := by decide

theorem witness_PlacedWordRuns : State.reset.fault = none := rfl

theorem witness_FaultEndsRun :
    ({ State.reset with fault := some ⟨.fetch, .fetch 0#32⟩ } : State).fault = some ⟨.fetch, .fetch 0#32⟩ := rfl

/-- For every statement about a TIMER-window access, with the gate on and off. -/
theorem witness_TimerWindow : gateOn.clkEn = true ∧ State.reset.clkEn = false := by decide

theorem witness_AcknowledgeWrite :
    State.reset.icActive = false ∧
    ({ State.reset with icActive := true }.icActive = true ∧
      ({ State.reset with icActive := true }.tOvf && { State.reset with icActive := true }.tIe) = false) ∧
    ({ requesting with icActive := true }.icActive = true ∧ (requesting.tOvf && requesting.tIe) = true) := by decide

theorem witness_ReceiveRead :
    State.reset.rxFifo = [] ∧ { State.reset with rxFifo := [0x68#8] }.rxFifo = 0x68#8 :: [] := by decide

theorem witness_TransmitWrite :
    { State.reset with txFifo := bytes 16 }.txFifo.length = State.reset.cfg.txDepth ∧
    { State.reset with txFifo := bytes 15 }.txFifo.length ≠ State.reset.cfg.txDepth := by decide

/-- The handler runs over an empty saved continuation. -/
def handling : State := { State.reset with ctx := .handler, saved := some [] }

theorem witness_HandlerReturn :
    (handling.ctx = .handler ∧ handling.saved = some []) ∧ State.reset.ctx = .normal := by decide

/-- A started counter with the tick's turn. -/
def ticking (s : State) (count : Word) (ar : Bool) : State :=
  { s with tSt := true, tCount := count, tAr := ar, schedule := [.tick] }

theorem witness_TickStep :
    ∀ s ∈ [ticking gateOn 1#32 true, ticking gateOn 1#32 false, ticking gateOn 0#32 true,
        ticking countingUp 0xFFFFFFFF#32 true, ticking countingUp 0xFFFFFFFF#32 false, ticking countingUp 0#32 true],
      s.fault = none ∧ s.mover = .tick ∧ s.clkEn = true ∧ s.tSt = true := by decide

theorem witness_TickStep_off :
    ∀ s ∈ [ticking State.reset 1#32 true, { ticking gateOn 1#32 true with tSt := false }],
      s.fault = none ∧ s.mover = .tick ∧ (s.clkEn = false ∨ s.tSt = false) := by decide

theorem witness_PeriodLaw :
    ∀ s ∈ [ticking gateOn 1#32 true, ticking countingUp 0xFFFFFFFF#32 false],
      s.clkEn = true ∧ s.tSt = true ∧ 0 < ticksToEvent s.cfg.timerDir s.tCount := by decide

theorem witness_AutoReloadEvents :
    { ticking gateOn 3#32 true with tLoad := 3#32 }.clkEn = true ∧ (ticking gateOn 3#32 true).tSt = true ∧
    (ticking gateOn 3#32 true).tAr = true ∧
    { ticking gateOn 3#32 true with tLoad := 3#32 }.tCount = { ticking gateOn 3#32 true with tLoad := 3#32 }.tLoad := by
  decide

/-- A byte waits to leave, with the transmitter's turn. -/
def draining : State := { State.reset with txFifo := [0x41#8], schedule := [.txDrain] }

theorem witness_DrainStep :
    draining.fault = none ∧ draining.mover = .txDrain ∧ draining.txFifo = 0x41#8 :: [] ∧
    { draining with txFifo := [] }.mover = .txDrain ∧ { draining with txFifo := [] }.txFifo = [] := by decide

/-- The host has a byte to send, with the receiver's turn. -/
def arriving (n : Nat) (r : RxOverrun) : State :=
  { State.reset with cfg := { Config.vectors with rxOverrun := r }, rxFifo := bytes n, rxScript := [0x0A#8]
                     schedule := [.rxArrival] }

theorem witness_ArrivalStep :
    (∀ s ∈ [arriving 15 .dropNew, arriving 16 .dropNew, arriving 16 .hold],
      s.fault = none ∧ s.mover = .rxArrival ∧ s.rxScript = 0x0A#8 :: []) ∧
    ({ arriving 15 .hold with rxScript := [] }.mover = .rxArrival ∧
      { arriving 15 .hold with rxScript := [] }.rxScript = []) ∧
    (arriving 15 .dropNew).rxFifo.length < (arriving 15 .dropNew).cfg.rxDepth ∧
    ((arriving 16 .dropNew).cfg.rxDepth ≤ (arriving 16 .dropNew).rxFifo.length ∧
      (arriving 16 .dropNew).cfg.rxOverrun = .dropNew) ∧
    ((arriving 16 .hold).cfg.rxDepth ≤ (arriving 16 .hold).rxFifo.length ∧
      (arriving 16 .hold).cfg.rxOverrun = .hold) := by decide

theorem witness_DecodeInvertsEncode : decode 0x8004#16 5#32 = .instr (.stTcount 5#32) := by decide

theorem witness_OperationFrame : Instr.ie ≠ .iret := by decide

/-- A step that faults. -/
theorem witness_TraceGrows : ends (step (running 0x1000#16 none)) (fun t => t.fault ≠ none) = true := by decide

/-- For StepKeepsInv, TraceGrows, TransmitOrderKept, ReceiveOrderKept: a step of each agent that changes
something, the last four not the processor's. -/
theorem witness_StepStatements :
    step { running 0xA000#16 none with txFifo := [0x41#8] } = exec (.stUdata 1#32) { (running 0xA000#16 none).chosen with
      cont := ran 0xA000#16 none, txFifo := [0x41#8] } ∧
    step draining = .next draining.chosen.drain ∧
    step (arriving 15 .hold) = .next (arriving 15 .hold).chosen.arrive ∧
    step (ticking gateOn 1#32 true) = .next (ticking gateOn 1#32 true).chosen.tick ∧
    step { requesting with schedule := [.delivery] } = .next { requesting with schedule := [] }.takeInterrupt :=
  ⟨rfl, rfl, rfl, rfl, rfl⟩

/-- The oldest byte taken; a byte stored at the last free place; a byte lost. -/
theorem witness_ReceiveOrderKept :
    ends (step { running 0x2000#16 none with rxFifo := [0x68#8] }) (fun t => t.rxFifo == []) = true ∧
    ends (step (arriving 15 .hold)) (fun t => t.rxFifo.length == 16) = true ∧
    ends (step (arriving 16 .dropNew)) (fun t => t.rxFifo.length == 16 && t.rxScript == []) = true := by decide

theorem witness_DeliveryStep :
    (∀ s ∈ [{ requesting with schedule := [.delivery] },
        { requesting with tOvf := false, icRearm := true, schedule := [.delivery] },
        { requesting with icPrioValid := false, schedule := [.delivery] }],
      s.fault = none ∧ s.mover = .delivery ∧ s.ctx = .normal ∧ s.cpuIe = true ∧
      ((s.tOvf && s.tIe) || s.icRearm) = true ∧ s.icMasked = false ∧ s.icActive = false) ∧
    requesting.icPrioValid = true := by decide

/-- A handler whose next line is `IRET`. -/
def returning : State := { handling with cont := [Frame.start [iretLine]], schedule := [.processor] }

theorem witness_NoNesting :
    returning.ctx = .handler ∧ ends (step returning) (fun t => t.ctx == .normal) = true ∧
    ends (step { ticking gateOn 1#32 true with ctx := .handler }) (fun t => t.ctx == .handler) = true := by decide

theorem witness_EntryIsDelivery :
    step { requesting with schedule := [.delivery] } = .next { requesting with schedule := [] }.takeInterrupt ∧
    requesting.ctx = .normal ∧ { requesting with schedule := [] }.takeInterrupt.ctx = .handler :=
  ⟨rfl, rfl, rfl⟩

theorem witness_Inv : Inv State.reset ∧ Inv { handling with icActive := true, icPrioValid := true } :=
  ⟨⟨by decide, by unfold FifosFit; decide, by unfold PrioFits; decide, by unfold SavedInHandler; decide,
      by unfold ServiceRouted; decide⟩,
    ⟨by decide, by unfold FifosFit; decide, by unfold PrioFits; decide, by unfold SavedInHandler; decide,
      by unfold ServiceRouted; decide⟩⟩

theorem witness_LaunchHasInv : Launch State.reset ∧ Config.vectors.wf = true := by
  unfold Launch
  decide

theorem witness_MaskNeverSetAgain :
    ends (step (ticking gateOn 1#32 true)) (fun t => t.icMasked) = true ∧ (ticking gateOn 1#32 true).mover ≠ .processor ∧
    requesting.icPrioValid = true := by decide

theorem witness_OverflowSetByEventOnly :
    (ticking gateOn 1#32 true).tOvf = false ∧ ends (step (ticking gateOn 1#32 true)) (fun t => t.tOvf) = true ∧
    (ticking gateOn 1#32 true).mover ≠ .processor := by decide

theorem witness_RamWriteRead :
    Memory.wf [(1, 5#8), (3, 7#8)] = true ∧ Memory.wf (Memory.write [(1, 5#8), (3, 7#8)] 3 0#8) = true ∧
    Memory.wf [(1, 5#8)] = true ∧ (2 : Nat) ≠ 3 := by decide

/-- The bytes on either side of the windows. -/
theorem witness_RamByteAccess :
    [0x3FFFFFFF#32, 0x40004000#32, 0#32, 0xFFFFFFFF#32].Forall (fun a =>
      Memory.wf State.reset.mem = true ∧ Expr.eval State.reset (.lit a) = .known a ∧
      Expr.eval State.reset (.lit 0x155#32) = .known 0x155#32 ∧ windowAt State.reset.cfg a = none) := by
  simp only [List.forall_cons]
  decide

/-- A read with a name, in a frame that takes it. -/
theorem witness_RamByteAccess_named :
    { State.reset with cont := [Frame.start []] }.fault = none ∧
    { State.reset with cont := [Frame.start []] }.cont = Frame.start [] :: [] := by decide

theorem witness_WindowsDisjoint :
    Config.vectors.wf = true ∧
    ∀ w ∈ [Window.timer, .intc, .uart, .clk],
      (Config.vectors.base w).toNat < (Config.vectors.base w).toNat + 0x1000 ∧
      (Config.vectors.base w).toNat ≤ (Config.vectors.base w + 0xFFF#32).toNat ∧
      (Config.vectors.base w + 0xFFF#32).toNat < (Config.vectors.base w).toNat + 0x1000 := by decide

theorem witness_AdmissionOrder :
    windowAt State.reset.cfg 0x4000100A#32 = some .intc ∧ windowAt State.reset.cfg 0x4000100C#32 = some .intc ∧
    windowAt State.reset.cfg 0x40001008#32 = some .intc ∧
    Width.w8 ≠ Width.w32 ∧ (0x4000100A#32).toNat % 4 ≠ 0 ∧
    ((0x4000100C#32).toNat % 4 = 0 ∧
      ((0x4000100C#32 - State.reset.cfg.base .intc).setWidth 12).toNat % 4 = 0 ∧
      registerAt .intc ((0x4000100C#32 - State.reset.cfg.base .intc).setWidth 12) = none) ∧
    ((0x40001008#32).toNat % 4 = 0 ∧
      registerAt .intc ((0x40001008#32 - State.reset.cfg.base .intc).setWidth 12) = some .icAck) := by decide

theorem witness_WindowFetchFaults :
    Expr.eval State.reset (.lit 0x40003FFF#32) = .known 0x40003FFF#32 ∧
    windowAt State.reset.cfg 0x40003FFF#32 = some .clk ∧ windowAt State.reset.cfg 0x40004000#32 = none := by decide

theorem witness_ReloadValue :
    (1 ≤ 3 * 1 / 2 ∧ 3 * 1 / 2 < 2 ^ 32) ∧ (1 ≤ 4294967295 * 1 / 1 ∧ 4294967295 * 1 / 1 < 2 ^ 32) := by decide

theorem witness_InitSequence :
    { State.reset with cont := [Frame.start (initLines Config.vectors)] }.fault = none ∧
    { State.reset with cont := [Frame.start (initLines Config.vectors)] }.cont =
      Frame.start (initLines State.reset.cfg) :: [] := by decide

theorem witness_HandlerSequence :
    { requesting with cont := [Frame.start (handlerLines Config.vectors)] }.fault = none ∧ requesting.clkEn = true ∧
    { requesting with cont := [Frame.start (handlerLines Config.vectors)] }.cont =
      Frame.start (handlerLines requesting.cfg) :: [] := by decide

theorem witness_AcknowledgeBeforeClear :
    requesting.fault = none ∧ requesting.clkEn = true ∧ { requesting with icActive := true }.icActive = true ∧
    requesting.icMasked = false ∧ requesting.tOvf = true ∧ requesting.tIe = true := by decide

theorem witness_EnableIsNoCriticalSection :
    { requesting with icRearm := true }.clkEn = true ∧ { requesting with icRearm := true }.icRearm = true ∧
    { requesting with icRearm := true }.icMasked = false ∧ { requesting with icRearm := true }.icActive = false ∧
    { requesting with icRearm := true }.ctx = .normal ∧ { requesting with icRearm := true }.cpuIe = true := by
  decide

theorem witness_UnclearedStatusRedelivers :
    requesting.fault = none ∧ requesting.deliverable = true ∧ requesting.line = true ∧ requesting.icPrioValid = true := by
  decide

/-- The handler's acknowledge, with an interrupt in service. -/
def acknowledging : State := { running 0x9008#16 none with icActive := true }

theorem witness_ServiceBlocksDelivery :
    acknowledging.icActive = true ∧ ends (step acknowledging) (fun t => !t.icActive) = true := by decide

/-- `put_byte` called with `n` bytes in the transmit FIFO. -/
def putting (n : Nat) : State :=
  { State.reset with txFifo := bytes n
                     cont := [Frame.call putByteLines [(nB, (0x41#8).setWidth 32)] [] none none] }

theorem witness_PutBytePolls :
    (∀ n ∈ [15, 16], (putting n).fault = none ∧
      (putting n).cont = Frame.call putByteLines [(nB, (0x41#8).setWidth 32)] [] none none :: []) ∧
    (putting 15).txFifo.length ≠ (putting 15).cfg.txDepth ∧
    (putting 16).txFifo.length = (putting 16).cfg.txDepth := by decide

/-- `put_byte` past its poll, the FIFO full by then. -/
def overtaken : State :=
  { State.reset with txFifo := bytes 16
                     cont := [{ Frame.call putByteLines [(nB, (0x41#8).setWidth 32)] [] none none with pos := 2 }] }

theorem witness_PutBytePolls_overtaken :
    overtaken.fault = none ∧ overtaken.frame.code = putByteLines ∧ overtaken.frame.pos = 2 ∧
    overtaken.frame.words.lookup nB = some ((0x41#8).setWidth 32) ∧ overtaken.cont = overtaken.frame :: [] ∧
    overtaken.txFifo.length = overtaken.cfg.txDepth := by decide

/-- A frame that waits for what a call gives back. -/
def caller : Frame := Frame.start []

/-- `get_byte` called with `l` in the receive FIFO. -/
def getting (l : List Byte) : State :=
  { State.reset with rxFifo := l, cont := [Frame.call getByteLines [] [] (some 4) none, caller] }

theorem witness_GetByteMasks :
    (∀ l ∈ [[], [0x41#8]], (getting l).fault = none ∧ (getting l).rxFifo = l ∧
      (getting l).cont = Frame.call getByteLines [] [] (some 4) none :: caller :: []) := by decide

/-- `read_line` called. -/
def reading (maxLen : Nat) (rx : List Byte) (n : Nat) : State :=
  { State.reset with rxFifo := rx, txFifo := bytes n
                     cont := [Frame.call (readLineLines Config.vectors maxLen) [] [] (some 4) (some 5), caller] }

theorem witness_ReadLineLimits :
    ∀ m ∈ [0, 1], (reading m [] 0).fault = none ∧
      (reading m [] 0).cont =
        Frame.call (readLineLines (reading m [] 0).cfg m) [] [] (some 4) (some 5) :: caller :: [] := by decide

/-- P3, at the largest line and the fullest FIFO: `max_len` 4, 13 bytes waiting to leave. -/
theorem witness_ReadLineReturnsLine :
    (reading 4 [0x68#8, 0x69#8, 0x0A#8, 0x78#8] 13).fault = none ∧
    (reading 4 [0x68#8, 0x69#8, 0x0A#8, 0x78#8] 13).cont =
      Frame.call (readLineLines (reading 4 [] 0).cfg 4) [] [] (some 4) (some 5) :: caller :: [] ∧
    [0x68#8, 0x69#8].length + 1 < 4 ∧ (∀ b ∈ [0x68#8, 0x69#8], b ≠ 0x0A#8 ∧ b ≠ 0x0D#8) ∧
    (reading 4 [0x68#8, 0x69#8, 0x0A#8, 0x78#8] 13).rxFifo = [0x68#8, 0x69#8] ++ 0x0A#8 :: [0x78#8] ∧
    (reading 4 [] 13).txFifo.length + [0x68#8, 0x69#8].length + (reading 4 [] 13).cfg.echoNl.length ≤
      (reading 4 [] 13).cfg.txDepth := by decide

/-- P3b at the fullest FIFO: `max_len` 4 and three bytes before any terminator. -/
theorem witness_ReadLineReturnsLine_truncated :
    (reading 4 [0x68#8, 0x65#8, 0x6C#8, 0x0A#8] 13).fault = none ∧
    [0x68#8, 0x65#8, 0x6C#8].length + 1 = 4 ∧ (∀ b ∈ [0x68#8, 0x65#8, 0x6C#8], b ≠ 0x0A#8 ∧ b ≠ 0x0D#8) ∧
    (reading 4 [0x68#8, 0x65#8, 0x6C#8, 0x0A#8] 13).rxFifo = [0x68#8, 0x65#8, 0x6C#8] ++ [0x0A#8] ∧
    (reading 4 [] 13).txFifo.length + [0x68#8, 0x65#8, 0x6C#8].length ≤ (reading 4 [] 13).cfg.txDepth := by decide

/-- `ring_push` of a line with the ring's counts as given. -/
def pushing (head tail : Word) (txt : List Byte) : State :=
  { State.reset with rbHead := head, rbTail := tail
                     cont := [Frame.call (ringPushLines Config.vectors) [] [(nS, txt)] none none, caller] }

/-- S3 fits exactly, S2 does not, S4 wraps. -/
theorem witness_RingPushWholeOrDropped :
    (∀ s ∈ [pushing 59#32 0#32 (bytes 5), pushing 60#32 0#32 (bytes 5), pushing 0xFFFFFFFE#32 0xFFFFFFFE#32 (bytes 5)],
      s.fault = none ∧ Memory.wf s.mem = true ∧
      s.cont = Frame.call (ringPushLines s.cfg) [] [(nS, bytes 5)] none none :: caller :: []) ∧
    Config.vectors.wf = true ∧
    (bytes 5).length + (pushing 59#32 0#32 (bytes 5)).rbOcc.toNat ≤ Config.vectors.rbCap ∧
    Config.vectors.rbCap < (bytes 5).length + (pushing 60#32 0#32 (bytes 5)).rbOcc.toNat := by decide

/-- S5's counts, with just room for the five bytes. -/
def drainingRing : State :=
  { State.reset with rbHead := 3#32, rbTail := 0xFFFFFFFE#32, txFifo := bytes 11
                     cont := [Frame.call (ringDrainLines Config.vectors) [] [] none none] }

theorem witness_RingDrainSends :
    drainingRing.fault = none ∧ drainingRing.cfg.wf = true ∧
    drainingRing.cont = Frame.call (ringDrainLines drainingRing.cfg) [] [] none none :: [] ∧
    drainingRing.txFifo.length + drainingRing.rbOcc.toNat ≤ drainingRing.cfg.txDepth := by decide

/-- S8, S9. -/
theorem witness_CriticalSectionRestores :
    ∀ b ∈ [true, false],
      { State.reset with cpuIe := b, cont := [Frame.call csEnterLines [] [] (some 4) none, caller] }.fault = none ∧
      { State.reset with cpuIe := b, cont := [Frame.call csEnterLines [] [] (some 4) none, caller] }.cont =
        Frame.call csEnterLines [] [] (some 4) none :: caller :: [] := by decide

/-- A program that sends one byte, and the drain of it. -/
def sending : State :=
  State.launch Config.vectors [stImm 0xA000#16 0x41#32] [] [.processor, .txDrain]

/-- R129: no end while the byte waits; the end at the second step, with the byte out, though more steps are
allowed. -/
theorem witness_RunEndsAtFirst :
    State.endWithin 1 sending = none ∧
    (State.endWithin 5 sending).any (fun t => t.observe.txOut == [0x41#8] && t.schedule == [] && t.observe.ustat == 6#32) = true := by
  decide

/-- A line that reads a name nothing has written, in a frame with nothing bound. -/
def unwritten (l : Line) : State := { State.reset with cont := [Frame.start [l]], schedule := [.processor] }

/-- The line runs, with the free value and one more counted: an assignment, an access's data word, the first byte of
no bytes. -/
theorem test_unwritten_name :
    step (unwritten (.assign 0 (.var 5))) = .next { State.reset with
      cont := [{ Frame.start [.assign 0 (.var 5)] with pos := 1, words := [(0, Config.freeWord 0 5)] }], draws := 1 } ∧
    step (unwritten (stLine 0x9004#16 (.var 5))) =
      exec (.stIcPrio (Config.freeWord 0 5)) { State.reset with
        cont := [{ Frame.start [stLine 0x9004#16 (.var 5)] with pos := 1 }], draws := 1 } ∧
    step (unwritten (.setCount .drops (.first (.lit [])))) = .next { State.reset with
      cont := [{ Frame.start [.setCount .drops (.first (.lit []))] with pos := 1 }]
      rbDrops := zextByte (Config.freeByte 0), draws := 1 } := ⟨rfl, rfl, rfl⟩

/-- Such a line, a register word that faults, a byte of RAM and a wide access to a window. -/
theorem witness_DataNeverStopsAStep :
    ∀ l ∈ [Line.assign 0 (.var 5), .op 0x1000#16 (.lit 0#32) none, .readAt .w8 (.lit 0#32) none,
        .writeAt .w64 (.lit 0x40000000#32) (.lit 0#32)],
      (unwritten l).fault = none ∧ (unwritten l).mover = .processor ∧
      fetchLine (unwritten l).chosen.cont = some (l, [{ Frame.start [l] with pos := 1 }]) ∧
      windowAt (unwritten l).cfg 0x40000000#32 ≠ none := by decide


end Sys2Proof.Tests
end

section
/-! SUPPORT. What a step of the processor does with a line, one equation per case, for the statements of
00_scope.md: the line fetched, the operation word decoded, the data word received, the byte of RAM accessed. -/

namespace Sys2Proof.Machine

/-- Choosing who moves counts no free value. -/
@[simp] theorem State.chosen_draws (s : State) : s.chosen.draws = s.draws := by
  obtain ⟨l, n, h⟩ := s.chosen_cases
  rw [h]

/-- Choosing who moves writes no parameter. -/
@[simp] theorem State.chosen_cfg (s : State) : s.chosen.cfg = s.cfg := by
  obtain ⟨l, n, h⟩ := s.chosen_cases
  rw [h]

/-- Without a fault a step is the mover's. -/
theorem step_of_no_fault {s : State} (hf : s.fault = none) : step s = stepAgent s.mover s.chosen := by
  simp only [step, hf]

/-- With the processor to move, a step runs the line fetched, in the state whose continuation is past it. -/
theorem step_processor {s : State} {l : Line} {fs : List Frame} (hf : s.fault = none)
    (hm : s.mover = .processor) (hl : fetchLine s.chosen.cont = some (l, fs)) :
    step s = runLine l { s.chosen with cont := fs } := by
  rw [step_of_no_fault hf, hm]
  simp only [stepAgent, stepProcessor, hl]

/-- A word that spells an operation runs it. -/
theorem runWord_instr {ad : AdWord} {w : Word} {i : Instr} (h : decode ad w = .instr i) (s : State) :
    runWord ad w s = exec i s := by
  simp only [runWord, h]

/-- A reserved word is refused. -/
theorem runWord_reserved {ad : AdWord} {w : Word} (h : decode ad w = .reserved) (s : State) :
    runWord ad w s = .refused .reservedWord := by
  simp only [runWord, h]

/-- The access of a word whose offset names no register raises a fault: misaligned before unmapped (20_memory.md
R43, log entry 9). -/
theorem runWord_unmapped {ad : AdWord} {w : Word} (h : decode ad w = .unmapped) (s : State) :
    ∃ c, runWord ad w s =
      .next (s.raise (if (adOffset ad).toNat % 4 = 0 then .unmapped else .misaligned) c) := by
  simp only [runWord, h, aligned4, beq_iff_eq]
  exact ⟨_, rfl⟩

/-- A line without a name for a read's data word binds nothing. -/
@[simp] theorem received_none (r : Result) : received none r = r := by
  cases r with
  | next t => cases h : t.fault <;> simp only [received, State.bindWord?, h]
  | fault f => rfl
  | refused x => rfl

/-- A read that completes binds its data word to the line's name. -/
theorem received_next {t : State} (h : t.fault = none) (dst : Option Name) :
    received dst (.next t) = .next (t.bindWord? dst t.rdata) := by
  simp only [received, h]

/-- The name is bound in the running operation's frame, and nothing else changes. -/
theorem received_name {t : State} {f : Frame} {fs : List Frame} (hf : t.fault = none) (hc : t.cont = f :: fs)
    (n : Name) : received (some n) (.next t) =
      .next { t with cont := { f with words := bindName n t.rdata f.words } :: fs } := by
  rw [received_next hf]
  simp only [State.bindWord?, State.bindWord, hc]

/-- A read that faults binds no name. -/
@[simp] theorem received_raise (dst : Option Name) (s : State) (f : Fault) (c : Culprit) :
    received dst (.next (s.raise f c)) = .next (s.raise f c) := rfl

/-- A refused read binds no name. -/
@[simp] theorem received_refused (dst : Option Name) (x : Refusal) :
    received dst (.refused x) = .refused x := rfl

/-- A read that answers a next state still does when its data word is received. -/
theorem received_answers (dst : Option Name) {r : Result} (h : ∃ t, r = .next t) :
    ∃ t, received dst r = .next t := by
  obtain ⟨t, rfl⟩ := h
  cases hf : t.fault with
  | none => exact ⟨_, received_next hf dst⟩
  | some _ => exact ⟨t, by simp only [received, hf]⟩

/-- A read's data word goes to the line's name. -/
theorem runOp_read {ad : AdWord} (h : adDir ad = .read) (w : Word) (dst : Option Name) (s : State) :
    runOp ad w dst s = received dst (runWord ad w s) := by
  simp only [runOp, h]

/-- A write does not look at the line's name. -/
theorem runOp_write {ad : AdWord} (h : adDir ad = .write) (w : Word) (dst : Option Name) (s : State) :
    runOp ad w dst s = runWord ad w s := by
  simp only [runOp, h]

/-- Where the line gives no name, an operation word of a program is the word run. -/
theorem runOp_none (ad : AdWord) (w : Word) (s : State) : runOp ad w none s = runWord ad w s := by
  cases hdir : adDir ad with
  | read => rw [runOp_read hdir, received_none]
  | write => rw [runOp_write hdir]

/-- A reserved word is refused whatever name the line gives. -/
theorem runOp_reserved {ad : AdWord} {w : Word} (h : decode ad w = .reserved) (dst : Option Name) (s : State) :
    runOp ad w dst s = .refused .reservedWord := by
  cases hdir : adDir ad with
  | read => rw [runOp_read hdir, runWord_reserved h, received_refused]
  | write => rw [runOp_write hdir, runWord_reserved h]

/-- An operation word that names no register faults whatever name the line gives, and binds none. -/
theorem runOp_unmapped {ad : AdWord} {w : Word} (h : decode ad w = .unmapped) (dst : Option Name) (s : State) :
    ∃ c, runOp ad w dst s =
      .next (s.raise (if (adOffset ad).toNat % 4 = 0 then .unmapped else .misaligned) c) := by
  obtain ⟨c, hc⟩ := runWord_unmapped h s
  refine ⟨c, ?_⟩
  cases hdir : adDir ad with
  | read => rw [runOp_read hdir, hc, received_raise]
  | write => rw [runOp_write hdir, hc]

/-- An operation word runs with its expression's value, the free value it took counted. -/
theorem runLine_op {s : State} {ad : AdWord} {e : Expr} {dst : Option Name} {w : Word} {free : Bool}
    (h : e.eval s = ⟨w, free⟩) : runLine (.op ad e dst) s = runOp ad w dst (s.took free) := by
  rw [runLine, withValue_eq h]

/-- A step of the processor at an operation word. -/
theorem step_op {s : State} {ad : AdWord} {e : Expr} {dst : Option Name} {fs : List Frame} {w : Word}
    {free : Bool} (hf : s.fault = none) (hm : s.mover = .processor)
    (hl : fetchLine s.chosen.cont = some (.op ad e dst, fs))
    (he : e.eval { s.chosen with cont := fs } = ⟨w, free⟩) :
    step s = runOp ad w dst { s.chosen with cont := fs, draws := s.draws + free.toNat } := by
  rw [step_processor hf hm hl, runLine_op he, State.took, State.chosen_draws]

/-- The encoder's word with the encoder's data word decodes to the operation encoded. -/
theorem decode_encode (i : Instr) : decode (encode i).ad (encode i).wdata = .instr i := by
  cases i <;> simp only [encode] <;> rfl

/-- Outside the windows an access goes to RAM. -/
theorem procAccess_ram {s : State} {a : Word} (h : windowAt s.cfg a = none) (d : Dir) (n : Width) (w : Word) :
    procAccess d n a w s = ramAccess d n a w s := by
  simp only [procAccess, h]

/-- A byte just written is read back. -/
theorem State.readByte_writeByte_same {s : State} (h : Memory.wf s.mem = true) (a : Word) (v : Byte) :
    (s.writeByte a v).readByte a = v :=
  Memory.read_write_same a.toNat v h

/-- A byte written leaves every other address alone. -/
theorem State.readByte_writeByte_other (s : State) {a c : Word} (v : Byte) (h : c ≠ a) :
    (s.writeByte a v).readByte c = s.readByte c :=
  Memory.read_write_other v fun e => h (BitVec.eq_of_toNat_eq e)

/-- A byte write at an address outside the windows. -/
theorem runLine_writeAt_ram {s : State} {addr val : Expr} {a v : Word} {af vf : Bool}
    (ha : addr.eval s = ⟨a, af⟩) (hv : val.eval s = ⟨v, vf⟩) (hw : windowAt s.cfg a = none) :
    runLine (.writeAt .w8 addr val) s = .next ((s.took (af || vf)).writeByte a (lowByte v)) := by
  have both : Computed.both Prod.mk (addr.eval s) (val.eval s) = ⟨(a, v), af || vf⟩ := by rw [ha, hv]; rfl
  rw [runLine, withValue_eq both, procAccess_ram (s := s.took (af || vf)) hw]
  rfl

/-- A byte read at an address outside the windows. -/
theorem runLine_readAt_ram {s : State} {addr : Expr} {a : Word} {af : Bool} (ha : addr.eval s = ⟨a, af⟩)
    (hw : windowAt s.cfg a = none) (dst : Option Name) :
    runLine (.readAt .w8 addr dst) s =
      received dst (.next { s.took af with rdata := zextByte (s.readByte a) }) := by
  rw [runLine, withValue_eq ha, procAccess_ram (s := s.took af) hw]
  rfl

end Sys2Proof.Machine
end

section
/-! SUPPORT. What no step refuses: a word that is not reserved, and an access that is of a byte or lies in a
window. Each lemma says that one function of the interpreter answers a next state. -/

namespace Sys2Proof.Machine

/-- The four lower `RGN` values name a window (30_encoding.md R52). -/
theorem windowOf_of_le {r : BitVec 3} (h : r.toNat ≤ 3) : ∃ w, windowOf r = some w := by
  have named : ∀ r : BitVec 3, r.toNat ≤ 3 → (windowOf r).isSome = true := by decide
  exact Option.isSome_iff_exists.1 (named r h)

/-- A word of a window's region is not reserved (30_encoding.md R55). -/
theorem decode_ne_reserved_of_region {ad : AdWord} (h : (adRegion ad).toNat ≤ 3) (w : Word) :
    decode ad w ≠ .reserved := by
  obtain ⟨win, hw⟩ := windowOf_of_le h
  cases hr : registerAt win (adOffset ad) <;> simp [decode, hw, hr]

/-- A word of the decode table lies in a window's region or is one of the three CORE words. -/
theorem tableWords_region_or_core :
    ∀ ad ∈ tableWords, (adRegion ad).toNat ≤ 3 ∨ ad = 0xF000#16 ∨ ad = 0xF004#16 ∨ ad = 0xF008#16 := by
  simp [tableWords, adRegion]

/-- A word of the decode table is not reserved (30_encoding.md R55). -/
theorem decode_ne_reserved_of_table {ad : AdWord} (h : ad ∈ tableWords) (w : Word) :
    decode ad w ≠ .reserved := by
  obtain hr | rfl | rfl | rfl := tableWords_region_or_core ad h
  · exact decode_ne_reserved_of_region hr w
  · simp
  · simp
  · simp

/-- The word of an access at an address of a window is not reserved. -/
theorem decode_adAt_ne_reserved (c : Config) (d : Dir) (win : Window) (a w : Word) :
    decode (adAt c d win a) w ≠ .reserved := by
  rw [adAt, decode_mkAd]
  cases registerAt win ((a - c.base win).setWidth 12) <;> simp

/-- A word that is not reserved is run. -/
theorem runWord_answers {ad : AdWord} {w : Word} (h : decode ad w ≠ .reserved) (s : State) :
    ∃ t, runWord ad w s = .next t := by
  cases hd : decode ad w with
  | instr i =>
    obtain ⟨t, ht, -⟩ := exec_change i s
    exact ⟨t, by rw [runWord_instr hd, ht]⟩
  | unmapped =>
    obtain ⟨c, hc⟩ := runWord_unmapped hd s
    exact ⟨_, hc⟩
  | reserved => exact absurd hd h

/-- The same of an operation word of a program. -/
theorem runOp_answers {ad : AdWord} {w : Word} (h : decode ad w ≠ .reserved) (dst : Option Name) (s : State) :
    ∃ t, runOp ad w dst s = .next t := by
  cases hdir : adDir ad with
  | read =>
    rw [runOp_read hdir]
    exact received_answers dst (runWord_answers h s)
  | write =>
    rw [runOp_write hdir]
    exact runWord_answers h s

/-- An access to a window answers a next state: the access's, or a fault of its admission (20_memory.md R43). -/
theorem busAccess_answers (win : Window) (d : Dir) (n : Width) (a w : Word) (s : State) :
    ∃ t, busAccess win d n a w s = .next t := by
  unfold busAccess
  split
  · exact ⟨_, rfl⟩
  · split
    · exact runWord_answers (decode_adAt_ne_reserved s.cfg d win a w) s
    · exact ⟨_, rfl⟩

/-- A byte access to RAM completes. -/
theorem ramAccess_byte_answers (d : Dir) (a w : Word) (s : State) :
    ∃ t, ramAccess d .w8 a w s = .next t := by
  cases d with
  | read => exact ⟨_, rfl⟩
  | write => exact ⟨_, rfl⟩

/-- A processor access of a byte, or to a window, answers a next state. -/
theorem procAccess_answers {n : Width} {a : Word} {s : State} (h : n = .w8 ∨ windowAt s.cfg a ≠ none) (d : Dir)
    (w : Word) : ∃ t, procAccess d n a w s = .next t := by
  cases hw : windowAt s.cfg a with
  | some win =>
    obtain ⟨t, ht⟩ := busAccess_answers win d n a w s
    exact ⟨t, by simp only [procAccess, hw, ht]⟩
  | none =>
    obtain rfl | hne := h
    · rw [procAccess_ram hw]
      exact ramAccess_byte_answers d a w s
    · exact absurd hw hne

/-- A fetch answers a next state: the fault inside a window, the state as it is outside. -/
theorem fetchAccess_answers (a : Word) (s : State) : ∃ t, fetchAccess a s = .next t := by
  unfold fetchAccess
  split
  · exact ⟨_, rfl⟩
  · exact ⟨_, rfl⟩

/-- What no run of a line refuses: a word that spells an operation or an access, and an access at an address that
is of a byte or lies in a window; every other line. -/
def Line.Answerable (s : State) : Line → Prop
  | .op ad _ _ => ∀ w, decode ad w ≠ .reserved
  | .readAt n addr _ => n = .w8 ∨ windowAt s.cfg (addr.eval s).val ≠ none
  | .writeAt n addr _ => n = .w8 ∨ windowAt s.cfg (addr.eval s).val ≠ none
  | _ => True

/-- Such a line answers a next state, whatever its expressions compute. -/
theorem runLine_answers {l : Line} {s : State} (h : l.Answerable s) : ∃ t, runLine l s = .next t := by
  cases l with
  | op ad val dst => exact runOp_answers (h _) dst _
  | readAt n addr dst => exact received_answers dst (procAccess_answers (s := s.took _) h .read 0#32)
  | writeAt n addr val => exact procAccess_answers (s := s.took _) h .write _
  | fetchAt addr => exact fetchAccess_answers _ _
  | goto n => exact ⟨_, rfl⟩
  | ifGoto c n => exact ⟨_, rfl⟩
  | assign n e => exact ⟨_, rfl⟩
  | assignStr n e => exact ⟨_, rfl⟩
  | setCount c e => exact ⟨_, rfl⟩
  | call c => exact ⟨_, rfl⟩
  | ret w b => exact ⟨_, rfl⟩
  | driverArg => exact ⟨_, rfl⟩

/-- Every agent but the processor answers a next state. -/
theorem stepAgent_answers {a : Agent} (h : a ≠ .processor) (s : State) : ∃ t, stepAgent a s = .next t := by
  cases a with
  | processor => exact absurd rfl h
  | delivery => exact ⟨_, rfl⟩
  | tick => exact ⟨_, rfl⟩
  | txDrain => exact ⟨_, rfl⟩
  | rxArrival => exact ⟨_, rfl⟩

/-- A step answers a next state where the line the processor would run does. -/
theorem step_answers {s : State} (hf : s.fault = none)
    (h : ∀ l fs, s.mover = .processor → fetchLine s.chosen.cont = some (l, fs) →
      l.Answerable { s.chosen with cont := fs }) : ∃ t, step s = .next t := by
  by_cases hm : s.mover = .processor
  · cases hl : fetchLine s.chosen.cont with
    | some p =>
      rw [step_processor hf hm hl]
      exact runLine_answers (h p.1 p.2 hm hl)
    | none => exact ⟨s.chosen, by rw [step_of_no_fault hf, hm]; simp only [stepAgent, stepProcessor, hl]⟩
  · rw [step_of_no_fault hf]
    exact stepAgent_answers hm s.chosen

end Sys2Proof.Machine
end

section
/-! CERTIFICATE. The statements of 00_scope.md settled: how a step runs an operation word, what a byte access to
RAM does, and that no value a line computes makes a step refuse. -/

namespace Sys2Proof.Machine

/-- Settles O6: the placed line is fetched past, its data word is a literal and no name waits for a read's data. -/
theorem placedWordRuns : Obligations.PlacedWordRuns := by
  unfold Obligations.PlacedWordRuns
  intro s i hf
  have hs := step_op (s := s.placeWord (encode i)) hf rfl (fetchLine_some rfl) rfl
  rw [hs, runOp_none, runWord_instr (decode_encode i)]
  rfl

/-- Settles O41: the write and the read in RAM after the free values were counted, by the laws of RAM. -/
theorem ramByteAccess : Obligations.RamByteAccess := by
  unfold Obligations.RamByteAccess
  intro s addr val a v af vf hwf ha hv hw
  refine ⟨⟨_, runLine_writeAt_ram ha hv hw, ?_, ?_, rfl⟩, ?_, ?_⟩
  · exact State.readByte_writeByte_same (s := s.took (af || vf)) hwf a (lowByte v)
  · intro c hc
    exact State.readByte_writeByte_other (s.took (af || vf)) (lowByte v) hc
  · rw [runLine_readAt_ram ha hw, received_none]
    rfl
  · intro n f fs hf hcont
    rw [runLine_readAt_ram ha hw]
    exact received_name (t := { s.took af with rdata := zextByte (s.readByte a) }) hf hcont n

/-- Settles O60: the line's premises are those under which no run of a line is refused, in the state past it. -/
theorem dataNeverStopsAStep : Obligations.DataNeverStopsAStep := by
  unfold Obligations.DataNeverStopsAStep
  intro s hf hlines
  refine step_answers hf fun l fs hm hl => ?_
  obtain ⟨hop, hread, hwrite⟩ := hlines l fs hm hl
  cases l with
  | op ad e dst =>
    intro w
    obtain hr | ht := hop ad e dst rfl
    · exact decode_ne_reserved_of_region hr w
    · exact decode_ne_reserved_of_table ht w
  | readAt n addr dst => simpa only [Line.Answerable, State.chosen_cfg] using hread n addr dst rfl
  | writeAt n addr val => simpa only [Line.Answerable, State.chosen_cfg] using hwrite n addr val rfl
  | _ => trivial

/-- Settles O4: the fetched word runs with the value its expression has. -/
theorem stepRunsDecodedWord : Obligations.StepRunsDecodedWord := by
  unfold Obligations.StepRunsDecodedWord
  intro s ad e dst fs w free i hf hm hl he hd
  rw [step_op hf hm hl he]
  cases hdir : adDir ad with
  | read => rw [runOp_read hdir, runWord_instr hd]
  | write => rw [runOp_write hdir, runWord_instr hd]

/-- Settles O5: a reserved word is refused before its data is received, and a faulting access binds no name. -/
theorem stepStopsOnOtherWords : Obligations.StepStopsOnOtherWords := by
  unfold Obligations.StepStopsOnOtherWords
  intro s ad e dst fs w free hf hm hl he
  rw [step_op hf hm hl he]
  exact ⟨fun hd => runOp_reserved hd dst _, fun hd => runOp_unmapped hd dst _⟩

end Sys2Proof.Machine
end

section
/-! SUPPORT. A step in two layers, for the statements of 10_state.md: bookkeeping that leaves the block as it is
(`BlockSame`), and around it at most one change of the block by the agent whose turn it is (`BlockChange`). -/

namespace Sys2Proof.Machine

/-- `t` is `s` but for what lies outside the block: who moves, the processor's continuation, free values and last
data word, and the contents of RAM with the ring, RAM staying canonical. -/
inductive BlockSame (s : State) : State → Prop
  | mk (sched : List Agent) (n d : Nat) (c : List Frame) (v : Word) (m : Memory) (head tail drops : Word)
      (hm : Memory.wf s.mem = true → Memory.wf m = true) :
      BlockSame s { s with schedule := sched, choices := n, draws := d, cont := c, rdata := v, mem := m
                           rbHead := head, rbTail := tail, rbDrops := drops }

/-- What an agent does to the block in its turn: an operation, where it is the processor's; for the others their
one step, where it is enabled. -/
inductive BlockChange (s : State) : Agent → State → Prop
  | operation (i : Instr) {t : State} (h : Change s i t) : BlockChange s .processor t
  | delivery (h : s.deliverable = true) : BlockChange s .delivery s.takeInterrupt
  | tick (h : s.tickEnabled = true) : BlockChange s .tick s.tick
  | drain (h : s.drainEnabled = true) : BlockChange s .txDrain s.drain
  | arrival (h : s.arrivalEnabled = true) : BlockChange s .rxArrival s.arrive

theorem BlockSame.refl (s : State) : BlockSame s s :=
  .mk s.schedule s.choices s.draws s.cont s.rdata s.mem s.rbHead s.rbTail s.rbDrops id

theorem BlockSame.trans {s t u : State} (h : BlockSame s t) (k : BlockSame t u) : BlockSame s u := by
  obtain ⟨_, _, _, _, _, _, _, _, _, hm⟩ := h
  obtain ⟨_, _, _, _, _, _, _, _, _, km⟩ := k
  exact .mk _ _ _ _ _ _ _ _ _ (km ∘ hm)

theorem BlockSame.cont (s : State) (c : List Frame) : BlockSame s { s with cont := c } :=
  .mk s.schedule s.choices s.draws c s.rdata s.mem s.rbHead s.rbTail s.rbDrops id

theorem BlockSame.chosen (s : State) : BlockSame s s.chosen := by
  obtain ⟨l, n, h⟩ := s.chosen_cases
  rw [h]
  exact .mk l n s.draws s.cont s.rdata s.mem s.rbHead s.rbTail s.rbDrops id

/-- The state a line runs in: the choice made, the line fetched, its free values counted. -/
theorem BlockSame.fetched (s : State) (c : List Frame) (d : Nat) :
    BlockSame s { s.chosen with cont := c, draws := d } :=
  (BlockSame.chosen s).trans (.mk _ _ d c _ _ _ _ _ id)

theorem BlockSame.writeByte (s : State) (a : Word) (v : Byte) : BlockSame s (s.writeByte a v) :=
  .mk s.schedule s.choices s.draws s.cont s.rdata (Memory.write s.mem a.toNat v) s.rbHead s.rbTail s.rbDrops
    (Memory.wf_write a.toNat v)

theorem BlockSame.putCount (s : State) (k : Count) (v : Word) : BlockSame s (s.putCount k v) := by
  obtain h | h | h := s.putCount_cases k v
  all_goals
    rw [h]
    exact .mk s.schedule s.choices s.draws s.cont s.rdata s.mem _ _ _ id

/-- A line touches nothing of the block, or makes one operation's change and moves the continuation. -/
theorem LineEffect.same_or_change {s t : State} (h : LineEffect s t) :
    BlockSame s t ∨ ∃ i w, Change s i w ∧ BlockSame w t := by
  cases h with
  | move c => exact .inl (.cont s c)
  | change i t h => exact .inr ⟨i, t, h, .refl t⟩
  | bound i w h c => exact .inr ⟨i, w, h, .cont w c⟩
  | load v c => exact .inl (.mk _ _ _ c v _ _ _ _ id)
  | store a v => exact .inl (.writeByte s a v)
  | count k v => exact .inl (.putCount s k v)

/-- Every step leaves the block as it is, or is the mover's one change of it between bookkeeping. -/
theorem step_same_or_change {s t : State} (h : step s = .next t) :
    BlockSame s t ∨ ∃ u w, BlockSame s u ∧ BlockChange u s.mover w ∧ BlockSame w t := by
  obtain ⟨-, rfl | ⟨hm, l, c, -, hr⟩ | ⟨hm, he, rfl⟩ | ⟨hm, he, rfl⟩ | ⟨hm, he, rfl⟩ | ⟨hm, he, rfl⟩⟩ := step_cases h
  · exact .inl (.chosen s)
  · obtain ⟨d, hl⟩ := runLine_cases hr
    obtain hsame | ⟨i, w, hi, hw⟩ := hl.same_or_change
    · exact .inl ((BlockSame.fetched s c d).trans hsame)
    · exact .inr ⟨_, w, .fetched s c d, hm ▸ .operation i hi, hw⟩
  · exact .inr ⟨_, _, .chosen s, hm ▸ .delivery he, .refl _⟩
  · exact .inr ⟨_, _, .chosen s, hm ▸ .tick he, .refl _⟩
  · exact .inr ⟨_, _, .chosen s, hm ▸ .drain he, .refl _⟩
  · exact .inr ⟨_, _, .chosen s, hm ▸ .arrival he, .refl _⟩

end Sys2Proof.Machine
end

section
/-! SUPPORT. What an operation and each agent's change of the block keep: the invariant, the parameters and the
handler's code; the order of the trace; the mask and the routing; the timer's overflow flag. -/

namespace Sys2Proof.Machine

/-! The invariant. -/

theorem BlockSame.inv {s t : State} (h : BlockSame s t) (hi : Inv s) : Inv t := by
  obtain ⟨hmem, hfifos, hprio, hsaved, hrouted⟩ := hi
  obtain ⟨_, _, _, _, _, _, _, _, _, hm⟩ := h
  exact ⟨hm hmem, hfifos, hprio, hsaved, hrouted⟩

/-- Ending a service keeps the invariant: a re-arm it latches was routed, for the service was. -/
theorem State.acknowledge_inv {s : State} (hi : Inv s) : Inv s.acknowledge := by
  obtain ⟨-, h⟩ | ⟨-, -, h⟩ | ⟨hact, -, h⟩ := s.acknowledge_cases
  · rwa [h]
  · rw [h]
    exact ⟨hi.memory, hi.fifos, hi.prio, hi.saved, fun hr => hi.routed (.inr (hr.resolve_left Bool.false_ne_true))⟩
  · rw [h]
    exact ⟨hi.memory, hi.fifos, hi.prio, hi.saved, fun _ => hi.routed (.inl hact)⟩

/-- A return empties the saved continuation as it leaves the handler; the fault changes neither. -/
theorem State.returnFromInterrupt_inv {s : State} (hi : Inv s) : Inv s.returnFromInterrupt := by
  obtain ⟨-, h⟩ | ⟨-, h⟩ := s.returnFromInterrupt_cases
  · rw [h]
    exact ⟨hi.memory, hi.fifos, hi.prio, hi.saved, hi.routed⟩
  · rw [h]
    exact ⟨hi.memory, hi.fifos, hi.prio, by simp [SavedInHandler], hi.routed⟩

/-- A delivery saves the continuation as it enters the handler, and only after routing. -/
theorem State.takeInterrupt_inv {s : State} (hi : Inv s) : Inv s.takeInterrupt := by
  obtain ⟨-, h⟩ | ⟨hv, h⟩ := s.takeInterrupt_cases
  · rw [h]
    exact ⟨hi.memory, hi.fifos, hi.prio, hi.saved, hi.routed⟩
  · rw [h]
    exact ⟨hi.memory, hi.fifos, hi.prio, by simp [SavedInHandler], fun _ => hv⟩

/-- Every operation keeps the invariant. A byte is sent only where the transmit FIFO is not at its depth, and a
priority is cut to its field. -/
theorem Change.inv {i : Instr} {s t : State} (h : Change s i t) (hi : Inv s) : Inv t := by
  have ⟨hmem, hfifos, hprio, hsaved, hrouted⟩ := hi
  obtain ⟨htx, hrx⟩ := hfifos
  cases h with
  | priority v => exact ⟨hmem, ⟨htx, hrx⟩, prioField_lt s.cfg v, hsaved, fun _ => rfl⟩
  | ack v =>
    have ha := State.acknowledge_inv hi
    exact ⟨ha.memory, ha.fifos, ha.prio, ha.saved, ha.routed⟩
  | receive b rest hb v =>
    have hrest : rest.length ≤ s.cfg.rxDepth := by
      rw [hb, List.length_cons] at hrx
      omega
    exact ⟨hmem, ⟨htx, hrest⟩, hprio, hsaved, hrouted⟩
  | send hroom v =>
    have hlen : (s.txFifo ++ [lowByte v]).length ≤ s.cfg.txDepth := by
      have hne : s.txFifo.length ≠ s.cfg.txDepth := by simpa [State.txff] using hroom
      rw [List.length_append, List.length_singleton]
      omega
    exact ⟨hmem, ⟨hlen, hrx⟩, hprio, hsaved, hrouted⟩
  | leave => exact State.returnFromInterrupt_inv hi
  | _ => exact ⟨hmem, ⟨htx, hrx⟩, hprio, hsaved, hrouted⟩

/-- Every agent's change keeps it: a byte leaves a FIFO, or joins one with room. -/
theorem BlockChange.inv {a : Agent} {s t : State} (h : BlockChange s a t) (hi : Inv s) : Inv t := by
  have ⟨hmem, hfifos, hprio, hsaved, hrouted⟩ := hi
  obtain ⟨htx, hrx⟩ := hfifos
  cases h with
  | operation i h => exact h.inv hi
  | delivery => exact State.takeInterrupt_inv hi
  | tick =>
    obtain ⟨-, h⟩ | ⟨-, -, h⟩ | ⟨-, -, h⟩ := s.tick_cases
    all_goals
      rw [h]
      exact ⟨hmem, ⟨htx, hrx⟩, hprio, hsaved, hrouted⟩
  | drain =>
    obtain ⟨-, h⟩ | ⟨b, rest, hb, h⟩ := s.drain_cases
    · rwa [h]
    · rw [h]
      have hrest : rest.length ≤ s.cfg.txDepth := by
        rw [hb, List.length_cons] at htx
        omega
      exact ⟨hmem, ⟨hrest, hrx⟩, hprio, hsaved, hrouted⟩
  | arrival =>
    obtain ⟨-, h⟩ | ⟨b, rest, -, hroom, h⟩ | ⟨b, rest, -, -, h⟩ := s.arrive_cases
    · rwa [h]
    · rw [h]
      have hlen : (s.rxFifo ++ [b]).length ≤ s.cfg.rxDepth := by
        rw [List.length_append, List.length_singleton]
        omega
      exact ⟨hmem, ⟨htx, hlen⟩, hprio, hsaved, hrouted⟩
    · rw [h]
      exact ⟨hmem, ⟨htx, hrx⟩, hprio, hsaved, hrouted⟩

theorem step_inv {s t : State} (h : step s = .next t) (hi : Inv s) : Inv t := by
  obtain hst | ⟨u, w, hu, hc, hw⟩ := step_same_or_change h
  · exact hst.inv hi
  · exact hw.inv (hc.inv (hu.inv hi))

/-! What an agent other than the processor never writes, and what no operation writes. Bookkeeping does not
disturb these relations, so a step has them where the change of the block has. -/

/-- The parameters and the lines the trap vector leads to are as they were. -/
def SetupKept (s t : State) : Prop := t.cfg = s.cfg ∧ t.isr = s.isr

/-- The mask and the routing are as they were. -/
def RoutingKept (s t : State) : Prop := t.icMasked = s.icMasked ∧ t.icPrioValid = s.icPrioValid

/-- The gate, the mode, the reload value and the interrupt enable of the timer are as they were. -/
def TimerSettingsKept (s t : State) : Prop :=
  t.tLoad = s.tLoad ∧ t.tIe = s.tIe ∧ t.clkEn = s.clkEn ∧ t.tAr = s.tAr

/-- A masked line was masked before, and a priority written before is written still. -/
def RoutingForward (s t : State) : Prop :=
  (t.icMasked = true → s.icMasked = true) ∧ (s.icPrioValid = true → t.icPrioValid = true)

/-- Nothing was recorded; or one event, at the end of the trace, and no fault. -/
def Recorded (s t : State) : Prop := t.trace = s.trace ∨ t.fault = s.fault ∧ ∃ e, t.trace = s.trace ++ [e]

/-- An acknowledge writes the service, the re-arm latch and the counter of free values. -/
theorem State.acknowledge_fields (s : State) :
    ∃ a r d, s.acknowledge = { s with icActive := a, icRearm := r, draws := d } := by
  obtain ⟨-, h⟩ | ⟨-, -, h⟩ | ⟨-, -, h⟩ := s.acknowledge_cases
  · exact ⟨s.icActive, s.icRearm, s.draws, h⟩
  · exact ⟨false, s.icRearm, s.draws, h⟩
  · exact ⟨_, _, _, h⟩

theorem BlockChange.settingsKept {a : Agent} {s t : State} (h : BlockChange s a t) (ha : a ≠ .processor) :
    SetupKept s t ∧ RoutingKept s t ∧ TimerSettingsKept s t := by
  have same : ∀ u, SetupKept u u ∧ RoutingKept u u ∧ TimerSettingsKept u u :=
    fun _ => ⟨⟨rfl, rfl⟩, ⟨rfl, rfl⟩, rfl, rfl, rfl, rfl⟩
  cases h with
  | operation => exact absurd rfl ha
  | delivery => obtain ⟨-, h⟩ | ⟨-, h⟩ := s.takeInterrupt_cases <;> rw [h] <;> exact same s
  | tick => obtain ⟨-, h⟩ | ⟨-, -, h⟩ | ⟨-, -, h⟩ := s.tick_cases <;> rw [h] <;> exact same s
  | drain => obtain ⟨-, h⟩ | ⟨_, _, -, h⟩ := s.drain_cases <;> rw [h] <;> exact same s
  | arrival => obtain ⟨-, h⟩ | ⟨_, _, -, -, h⟩ | ⟨_, _, -, -, h⟩ := s.arrive_cases <;> rw [h] <;> exact same s

theorem Change.setupKept {i : Instr} {s t : State} (h : Change s i t) : SetupKept s t := by
  cases h with
  | ack v =>
    obtain ⟨_, _, _, h⟩ := s.acknowledge_fields
    rw [h]
    exact ⟨rfl, rfl⟩
  | leave => obtain ⟨-, h⟩ | ⟨-, h⟩ := s.returnFromInterrupt_cases <;> rw [h] <;> exact ⟨rfl, rfl⟩
  | _ => exact ⟨rfl, rfl⟩

/-- A bit still set after a write that can only clear it was set before. -/
theorem set_of_cleared_set {clear bit : Bool} (h : (if clear then false else bit) = true) : bit = true := by
  cases clear with
  | false => exact h
  | true => cases h

/-- A write of `IC_MASK_CLR` can only unmask, and one of `IC_PRIO` can only route. -/
theorem Change.routingForward {i : Instr} {s t : State} (h : Change s i t) : RoutingForward s t := by
  cases h with
  | unmask v => exact ⟨set_of_cleared_set, id⟩
  | priority v => exact ⟨id, fun _ => rfl⟩
  | ack v =>
    obtain ⟨_, _, _, h⟩ := s.acknowledge_fields
    rw [h]
    exact ⟨id, id⟩
  | leave => obtain ⟨-, h⟩ | ⟨-, h⟩ := s.returnFromInterrupt_cases <;> rw [h] <;> exact ⟨id, id⟩
  | _ => exact ⟨id, id⟩

/-- An operation records its access, a return, or nothing; a fault it raises records nothing. -/
theorem Change.recorded {i : Instr} {s t : State} (h : Change s i t) : Recorded s t := by
  cases h with
  | fault | accept => exact .inl rfl
  | ack v =>
    obtain ⟨_, _, _, h⟩ := s.acknowledge_fields
    rw [h]
    exact .inr ⟨rfl, _, rfl⟩
  | leave =>
    obtain ⟨-, h⟩ | ⟨-, h⟩ := s.returnFromInterrupt_cases
    · rw [h]
      exact .inl rfl
    · rw [h]
      exact .inr ⟨rfl, _, rfl⟩
  | _ => exact .inr ⟨rfl, _, rfl⟩

/-- No operation raises the flag: a write of `TISR` only clears it. -/
theorem Change.ovf_before {i : Instr} {s t : State} (h : Change s i t) (ht : t.tOvf = true) : s.tOvf = true := by
  cases h with
  | status v => exact set_of_cleared_set ht
  | ack v =>
    obtain ⟨_, _, _, h⟩ := s.acknowledge_fields
    rwa [h] at ht
  | leave => obtain ⟨-, h⟩ | ⟨-, h⟩ := s.returnFromInterrupt_cases <;> rwa [h] at ht
  | _ => exact ht

theorem BlockChange.setupKept {a : Agent} {s t : State} (h : BlockChange s a t) : SetupKept s t := by
  by_cases ha : a = .processor
  · subst ha
    obtain ⟨i, hi⟩ := h
    exact hi.setupKept
  · exact (h.settingsKept ha).1

theorem BlockChange.routingForward {a : Agent} {s t : State} (h : BlockChange s a t) : RoutingForward s t := by
  by_cases ha : a = .processor
  · subst ha
    obtain ⟨i, hi⟩ := h
    exact hi.routingForward
  · obtain ⟨-, ⟨hmask, hvalid⟩, -⟩ := h.settingsKept ha
    exact ⟨fun hm => hmask ▸ hm, fun hv => hvalid ▸ hv⟩

/-- Each agent's change records the one event it makes, or nothing: the delivery that faults, the tick that completes
no period. -/
theorem BlockChange.recorded {a : Agent} {s t : State} (h : BlockChange s a t) : Recorded s t := by
  cases h with
  | operation i h => exact h.recorded
  | delivery =>
    obtain ⟨-, h⟩ | ⟨-, h⟩ := s.takeInterrupt_cases
    · exact .inl (by rw [h]; rfl)
    · exact .inr (by rw [h]; exact ⟨rfl, _, rfl⟩)
  | tick =>
    obtain ⟨-, h⟩ | ⟨-, -, h⟩ | ⟨-, -, h⟩ := s.tick_cases
    · exact .inl (by rw [h])
    · exact .inr (by rw [h]; exact ⟨rfl, _, rfl⟩)
    · exact .inr (by rw [h]; exact ⟨rfl, _, rfl⟩)
  | drain =>
    obtain ⟨-, h⟩ | ⟨b, _, -, h⟩ := s.drain_cases
    · exact .inl (by rw [h])
    · exact .inr (by rw [h]; exact ⟨rfl, _, rfl⟩)
  | arrival =>
    obtain ⟨-, h⟩ | ⟨b, _, -, -, h⟩ | ⟨b, _, -, -, h⟩ := s.arrive_cases
    · exact .inl (by rw [h])
    · exact .inr (by rw [h]; exact ⟨rfl, _, rfl⟩)
    · exact .inr (by rw [h]; exact ⟨rfl, _, rfl⟩)

/-- The flag goes up in a tick that completes a period, with the gate on and the counter started, and the event is
recorded (42_timer.md R85). -/
theorem BlockChange.ovf_raised {a : Agent} {s t : State} (h : BlockChange s a t) (hs : s.tOvf = false)
    (ht : t.tOvf = true) : a = .tick ∧ s.clkEn = true ∧ s.tSt = true ∧ t.trace = s.trace ++ [.evt] := by
  have unraised : s.tOvf ≠ true := by simp [hs]
  cases h with
  | operation i h => exact absurd (h.ovf_before ht) unraised
  | delivery =>
    obtain ⟨-, h⟩ | ⟨-, h⟩ := s.takeInterrupt_cases <;> rw [h] at ht <;> exact absurd ht unraised
  | tick he =>
    obtain ⟨hclk, hst⟩ : s.clkEn = true ∧ s.tSt = true := by simpa [State.tickEnabled] using he
    obtain ⟨-, h⟩ | ⟨-, -, h⟩ | ⟨-, -, h⟩ := s.tick_cases
    · rw [h] at ht
      exact absurd ht unraised
    · exact ⟨rfl, hclk, hst, by rw [h]⟩
    · exact ⟨rfl, hclk, hst, by rw [h]⟩
  | drain =>
    obtain ⟨-, h⟩ | ⟨_, _, -, h⟩ := s.drain_cases <;> rw [h] at ht <;> exact absurd ht unraised
  | arrival =>
    obtain ⟨-, h⟩ | ⟨_, _, -, -, h⟩ | ⟨_, _, -, -, h⟩ := s.arrive_cases <;>
      rw [h] at ht <;> exact absurd ht unraised

/-! The same of a step. -/

theorem step_setupKept {s t : State} (h : step s = .next t) : SetupKept s t := by
  obtain hst | ⟨u, w, ⟨⟩, hc, ⟨⟩⟩ := step_same_or_change h
  · cases hst
    exact ⟨rfl, rfl⟩
  · exact hc.setupKept

theorem step_recorded {s t : State} (h : step s = .next t) : Recorded s t := by
  obtain hst | ⟨u, w, ⟨⟩, hc, ⟨⟩⟩ := step_same_or_change h
  · cases hst
    exact .inl rfl
  · exact hc.recorded

theorem step_routingForward {s t : State} (h : step s = .next t) : RoutingForward s t := by
  obtain hst | ⟨u, w, ⟨⟩, hc, ⟨⟩⟩ := step_same_or_change h
  · cases hst
    exact ⟨id, id⟩
  · exact hc.routingForward

theorem step_settingsKept {s t : State} (h : step s = .next t) (hm : s.mover ≠ .processor) :
    RoutingKept s t ∧ TimerSettingsKept s t := by
  obtain hst | ⟨u, w, ⟨⟩, hc, ⟨⟩⟩ := step_same_or_change h
  · cases hst
    exact ⟨⟨rfl, rfl⟩, rfl, rfl, rfl, rfl⟩
  · exact (hc.settingsKept hm).2

theorem step_ovf_raised {s t : State} (h : step s = .next t) (hs : s.tOvf = false) (ht : t.tOvf = true) :
    s.mover = .tick ∧ s.clkEn = true ∧ s.tSt = true ∧ t.trace = s.trace ++ [.evt] := by
  obtain hst | ⟨u, w, ⟨⟩, hc, ⟨⟩⟩ := step_same_or_change h
  · cases hst
    exact absurd ht (by simp [hs])
  · exact hc.ovf_raised hs ht

/-! Launch states. -/

/-- Empty FIFOs fit, nothing is saved in normal context and nothing is in service. -/
theorem Launch.inv {s : State} (h : Launch s) : Inv s := by
  obtain ⟨-, -, hactive, hrearm, htx, hrx, -, hctx, hsaved, -, -, -, hmem, hprio⟩ := h
  refine ⟨hmem, ⟨?_, ?_⟩, hprio, ?_, ?_⟩
  · rw [htx]
    exact Nat.zero_le _
  · rw [hrx]
    exact Nat.zero_le _
  · simp [SavedInHandler, hctx, hsaved]
  · simp [ServiceRouted, hactive, hrearm]

/-- Reset under a legal configuration is a launch state (70_reset_and_hazards.md R132, R133). -/
theorem launch_resetWith {c : Config} (h : c.wf = true) : Launch (State.resetWith c) :=
  ⟨h, rfl, rfl, rfl, rfl, rfl, rfl, rfl, rfl, rfl, rfl, rfl, rfl, Nat.two_pow_pos _⟩

end Sys2Proof.Machine
end

section
/-! CERTIFICATE. The statements of 10_state.md settled: the invariant, the trace, the mask and the routing, the
overflow flag, and the launch. -/

namespace Sys2Proof.Machine

/-- Settles O35: bookkeeping and each agent's change of the block keep the invariant, and neither writes the
parameters or the handler's code. -/
theorem stepKeepsInv : Obligations.StepKeepsInv := by
  unfold Obligations.StepKeepsInv
  intro s t h
  exact ⟨step_inv h, step_setupKept h⟩

/-- Settles O37: a step that records an event leaves the fault field as it found it, empty. -/
theorem traceGrows : Obligations.TraceGrows := by
  unfold Obligations.TraceGrows
  intro s t h
  obtain ⟨hnone, -⟩ := step_cases h
  obtain htrace | ⟨hfault, hevent⟩ := step_recorded h
  · exact ⟨.inl htrace, fun _ => htrace⟩
  · exact ⟨.inr hevent, fun hf => absurd (hfault.trans hnone) hf⟩

/-- Settles O38: an operation moves mask and routing forward, and no other agent writes them. -/
theorem maskNeverSetAgain : Obligations.MaskNeverSetAgain := by
  unfold Obligations.MaskNeverSetAgain
  intro s t h
  obtain ⟨hmask, hvalid⟩ := step_routingForward h
  exact ⟨hmask, hvalid, fun hm => (step_settingsKept h hm).1⟩

/-- Settles O39: of all changes of the block only the tick that completes a period raises the flag. -/
theorem overflowSetByEventOnly : Obligations.OverflowSetByEventOnly := by
  unfold Obligations.OverflowSetByEventOnly
  intro s t h
  exact ⟨step_ovf_raised h, fun hm => (step_settingsKept h hm).2⟩

/-- Settles O36: the invariant follows from what a launch fixes, and reset is a launch. -/
theorem launchHasInv : Obligations.LaunchHasInv := by
  unfold Obligations.LaunchHasInv
  refine ⟨fun s h => h.inv, (launch_resetWith (by decide)).inv, ?_⟩
  rintro c t hc rfl
  exact ⟨launch_resetWith hc, rfl, rfl, rfl, rfl, rfl, rfl, rfl, rfl, rfl, rfl, rfl, rfl⟩

end Sys2Proof.Machine
end

section
/-! SUPPORT. For the statements of 20_memory.md: what the cells of a canonical RAM say of its reads, the windows
an address lies in, the checks of an access and of a fetch one by one, and what no operation writes. -/

namespace Sys2Proof.Machine

/-! Canonical RAM (log entry 6). -/

/-- The first cell's address reads that cell's byte. -/
@[simp] theorem Memory.read_cons_self (k : Nat) (b : Byte) (m : Memory) : Memory.read ((k, b) :: m) k = b := by
  rw [Memory.read_cons, if_pos rfl]

/-- No address below a canonical memory's first cell is listed. -/
theorem Memory.head_le_of_read_ne {k a : Nat} {b : Byte} {m : Memory} (h : Memory.wf ((k, b) :: m) = true)
    (ha : Memory.read ((k, b) :: m) a ≠ ramReset) : k ≤ a := by
  obtain ⟨-, habove, -⟩ := (Memory.wf_cons ..).1 h
  by_contra hlt
  have hcons : Memory.above a ((k, b) :: m) = true :=
    (Memory.above_cons ..).2 ⟨by omega, Memory.above_mono (by omega) habove⟩
  exact ha (Memory.read_of_above hcons)

/-- A canonical memory's first cell is told from its reads, so one that reads the same does not begin above it. -/
theorem Memory.head_le_head {k j : Nat} {b c : Byte} {m n : Memory} (hm : Memory.wf ((k, b) :: m) = true)
    (hn : Memory.wf ((j, c) :: n) = true)
    (h : ∀ a, Memory.read ((k, b) :: m) a = Memory.read ((j, c) :: n) a) : j ≤ k := by
  obtain ⟨hb, -⟩ := (Memory.wf_cons ..).1 hm
  refine Memory.head_le_of_read_ne hn ?_
  rw [← h k, Memory.read_cons_self]
  exact hb

/-- A canonical memory that reads as unlisted everywhere lists nothing. -/
theorem Memory.eq_nil_of_read {m : Memory} (hm : Memory.wf m = true) (h : ∀ a, Memory.read m a = ramReset) :
    m = [] := by
  cases m with
  | nil => rfl
  | cons c m =>
    obtain ⟨k, b⟩ := c
    obtain ⟨hb, -⟩ := (Memory.wf_cons ..).1 hm
    exact absurd ((Memory.read_cons_self k b m).symm.trans (h k)) hb

/-- Canonical memories that read the same are the same. The first cells have the least address that reads as
listed, hence agree, and the memories behind them read the same. -/
theorem Memory.eq_of_read_eq {m n : Memory} (hm : Memory.wf m = true) (hn : Memory.wf n = true)
    (h : ∀ a, Memory.read m a = Memory.read n a) : m = n := by
  induction m generalizing n with
  | nil => exact (Memory.eq_nil_of_read hn fun a => (h a).symm).symm
  | cons c m ih =>
    cases n with
    | nil => exact Memory.eq_nil_of_read hm h
    | cons d n =>
      obtain ⟨k, b⟩ := c
      obtain ⟨j, e⟩ := d
      obtain ⟨-, -, hm'⟩ := (Memory.wf_cons ..).1 hm
      obtain ⟨-, -, hn'⟩ := (Memory.wf_cons ..).1 hn
      have hkj : k = j := le_antisymm (Memory.head_le_head hn hm fun a => (h a).symm) (Memory.head_le_head hm hn h)
      subst hkj
      have hbe : b = e := by simpa only [Memory.read_cons_self] using h k
      have hmn : m = n := ih hm' hn' fun a => by
        rw [Memory.read_of_above_cons hm, Memory.read_of_above_cons hn, h a]
      rw [hbe, hmn]

/-! The windows of a legal configuration (20_memory.md R38). -/

theorem inWindow_iff {c : Config} {w : Window} {a : Word} :
    inWindow c w a = true ↔ (c.base w).toNat ≤ a.toNat ∧ a.toNat < (c.base w).toNat + 0x1000 := by
  rw [inWindow, Bool.and_eq_true, decide_eq_true_iff, decide_eq_true_iff]

/-- The window found for an address holds it. -/
theorem inWindow_of_windowAt {c : Config} {w : Window} {a : Word} (h : windowAt c a = some w) :
    inWindow c w a = true := by
  unfold windowAt at h
  split_ifs at h <;> cases h <;> assumption

/-- An address for which no window is found lies in none. -/
theorem not_inWindow_of_windowAt {c : Config} {a : Word} (h : windowAt c a = none) (w : Window) :
    ¬ inWindow c w a = true := by
  unfold windowAt at h
  split_ifs at h
  cases w <;> assumption

/-- What a legal configuration says of the windows: their bases are multiples of the windows' size, and differ. -/
theorem Config.bases_of_wf {c : Config} (h : c.wf = true) :
    (∀ w, (c.base w).toNat % 0x1000 = 0) ∧ Function.Injective c.base := by
  simp only [Config.wf, Config.baseOk, Config.disjoint, Bool.and_eq_true, and_assoc, beq_iff_eq] at h
  obtain ⟨htimer, hintc, huart, hclk, hdisjoint, -⟩ := h
  have hnodup : ([Window.timer, .intc, .uart, .clk].map c.base).Nodup := of_decide_eq_true hdisjoint
  have hall : ∀ w : Window, w ∈ [Window.timer, .intc, .uart, .clk] := fun w => by cases w <;> decide
  refine ⟨fun w => ?_, fun v w hvw => List.inj_on_of_nodup_map hnodup (hall v) (hall w) hvw⟩
  cases w with
  | timer => exact htimer
  | intc => exact hintc
  | uart => exact huart
  | clk => exact hclk

/-- Two windows of a legal configuration share no address. -/
theorem window_unique {c : Config} (h : c.wf = true) {v w : Window} {a : Word} (hv : inWindow c v a = true)
    (hw : inWindow c w a = true) : v = w := by
  obtain ⟨hmul, hinj⟩ := Config.bases_of_wf h
  obtain ⟨hv1, hv2⟩ := inWindow_iff.1 hv
  obtain ⟨hw1, hw2⟩ := inWindow_iff.1 hw
  have hvm := hmul v
  have hwm := hmul w
  exact hinj (BitVec.eq_of_toNat_eq (by omega))

/-- So the window found for an address is the one that holds it. -/
theorem windowAt_of_inWindow {c : Config} (h : c.wf = true) {w : Window} {a : Word} (hw : inWindow c w a = true) :
    windowAt c a = some w := by
  cases hv : windowAt c a with
  | none => exact absurd hw (not_inWindow_of_windowAt hv w)
  | some v => rw [window_unique h (inWindow_of_windowAt hv) hw]

/-! The checks of an access to a window (20_memory.md R43), in their order, and of a fetch (R50). -/

/-- An address of a window is accessed over the bus. -/
theorem procAccess_window {s : State} {w : Window} {a : Word} (h : windowAt s.cfg a = some w) (d : Dir) (n : Width)
    (v : Word) : procAccess d n a v s = busAccess w d n a v s := by
  simp only [procAccess, h]

/-- The width is checked first. -/
theorem busAccess_width {n : Width} (h : n ≠ .w32) (w : Window) (d : Dir) (a v : Word) (s : State) :
    ∃ c, busAccess w d n a v s = .next (s.raise .width c) := by
  simp only [busAccess, if_pos h]
  exact ⟨_, rfl⟩

/-- Then the alignment. -/
theorem busAccess_misaligned {a : Word} (h : a.toNat % 4 ≠ 0) (w : Window) (d : Dir) (v : Word) (s : State) :
    ∃ c, busAccess w d .w32 a v s = .next (s.raise .misaligned c) := by
  have ha : aligned4 a = false := beq_eq_false_iff_ne.2 h
  simp only [busAccess, ha]
  exact ⟨_, rfl⟩

/-- An aligned access of 32 bits runs its descriptor. -/
theorem busAccess_aligned {a : Word} (h : a.toNat % 4 = 0) (w : Window) (d : Dir) (v : Word) (s : State) :
    busAccess w d .w32 a v s = runWord (adAt s.cfg d w a) v s := by
  have ha : aligned4 a = true := beq_iff_eq.2 h
  simp only [busAccess, ha, ne_eq, not_true_eq_false, if_false, if_true]

/-- A descriptor at an aligned offset that names no register faults. -/
theorem runWord_adAt_unmapped {c : Config} {w : Window} {a : Word}
    (ha : ((a - c.base w).setWidth 12 : BitVec 12).toNat % 4 = 0)
    (h : registerAt w ((a - c.base w).setWidth 12) = none) (d : Dir) (v : Word) (s : State) :
    ∃ k, runWord (adAt c d w a) v s = .next (s.raise .unmapped k) := by
  obtain ⟨-, -, hoff⟩ := mkAd_fields d w ((a - c.base w).setWidth 12)
  have hd : decode (adAt c d w a) v = .unmapped := by rw [adAt, decode_mkAd, h]
  obtain ⟨k, hk⟩ := runWord_unmapped hd s
  rw [adAt, hoff, if_pos ha] at hk
  exact ⟨k, hk⟩

/-- A descriptor at a register's offset runs that register's operation. -/
theorem runWord_adAt_register {c : Config} {w : Window} {a : Word} {r : Reg}
    (h : registerAt w ((a - c.base w).setWidth 12) = some r) (d : Dir) (v : Word) (s : State) :
    runWord (adAt c d w a) v s = exec (accessOf d r v) s :=
  runWord_instr (by rw [adAt, decode_mkAd, h]) s

/-- A fetch from a window faults. -/
theorem fetchAccess_window {s : State} {w : Window} {a : Word} (h : windowAt s.cfg a = some w) :
    fetchAccess a s = .next (s.raise .fetch (.fetch a)) := by
  simp only [fetchAccess, h]

/-- A fetch from elsewhere is none of the block's. -/
theorem fetchAccess_outside {s : State} {a : Word} (h : windowAt s.cfg a = none) : fetchAccess a s = .next s := by
  simp only [fetchAccess, h]

/-- The line fetches from the address its expression has, the free value it took counted. -/
theorem runLine_fetchAt {s : State} {addr : Expr} {a : Word} {free : Bool} (h : addr.eval s = ⟨a, free⟩) :
    runLine (.fetchAt addr) s = fetchAccess a (s.took free) := by
  rw [runLine, withValue_eq h]

/-! What no operation writes. -/

/-- What lies around the block is as it was: RAM and the ring's counts, the host's side of the UART, and the
interleaving. -/
structure SurroundingsKept (s t : State) : Prop where
  mem : t.mem = s.mem
  rbHead : t.rbHead = s.rbHead
  rbTail : t.rbTail = s.rbTail
  rbDrops : t.rbDrops = s.rbDrops
  rxScript : t.rxScript = s.rxScript
  txOut : t.txOut = s.txOut
  schedule : t.schedule = s.schedule
  choices : t.choices = s.choices

/-- The context and both continuations are as they were. -/
def ControlKept (s t : State) : Prop := t.ctx = s.ctx ∧ t.cont = s.cont ∧ t.saved = s.saved

/-- RAM that is as it was reads as it did. -/
theorem SurroundingsKept.readByte {s t : State} (h : SurroundingsKept s t) (a : Word) :
    t.readByte a = s.readByte a := by
  rw [State.readByte, State.readByte, h.mem]

/-- An operation reaches the registers only, of the UART its FIFOs: the other ends are the line agents'. -/
theorem Change.surroundingsKept {i : Instr} {s t : State} (h : Change s i t) : SurroundingsKept s t := by
  cases h with
  | ack v =>
    obtain ⟨_, _, _, h⟩ := s.acknowledge_fields
    rw [h]
    exact ⟨rfl, rfl, rfl, rfl, rfl, rfl, rfl, rfl⟩
  | leave =>
    obtain ⟨-, h⟩ | ⟨-, h⟩ := s.returnFromInterrupt_cases <;> rw [h] <;>
      exact ⟨rfl, rfl, rfl, rfl, rfl, rfl, rfl, rfl⟩
  | _ => exact ⟨rfl, rfl, rfl, rfl, rfl, rfl, rfl, rfl⟩

/-- Of the operations only the return moves control. -/
theorem Change.controlKept {i : Instr} {s t : State} (h : Change s i t) (hi : i ≠ .iret) : ControlKept s t := by
  cases h with
  | ack v =>
    obtain ⟨_, _, _, h⟩ := s.acknowledge_fields
    rw [h]
    exact ⟨rfl, rfl, rfl⟩
  | leave => exact absurd rfl hi
  | _ => exact ⟨rfl, rfl, rfl⟩

/-- An operation adds at most one event to the trace, at its end. -/
theorem Change.trace_grows {i : Instr} {s t : State} (h : Change s i t) :
    t.trace = s.trace ∨ ∃ e, t.trace = s.trace ++ [e] :=
  h.recorded.imp_right fun ⟨_, he⟩ => he

end Sys2Proof.Machine
end

section
/-! CERTIFICATE. The statements of 20_memory.md settled: the frame of the operations, RAM, the windows, the
admission of an access, and the fetch. -/

namespace Sys2Proof.Machine

/-- Settles O24: every operation makes one of the changes of `Change`; each keeps the surroundings, and all but
the return keep control. -/
theorem operationFrame : Obligations.OperationFrame := by
  unfold Obligations.OperationFrame
  intro i s
  obtain ⟨t, ht, hc⟩ := exec_change i s
  have hk := hc.surroundingsKept
  obtain ⟨hcfg, hisr⟩ := hc.setupKept
  exact ⟨t, ht, hk.readByte, hk.rbHead, hk.rbTail, hk.rbDrops, hk.rxScript, hk.txOut, hcfg, hisr, hk.schedule,
    hk.choices, hc.controlKept, hc.trace_grows⟩

/-- Settles O40: the laws of RAM, and the canonical form as the one list of cells with its reads. -/
theorem ramWriteRead : Obligations.RamWriteRead := by
  unfold Obligations.RamWriteRead
  exact ⟨fun m a c v h => ⟨Memory.read_write_same a v h, Memory.read_write_other v, Memory.wf_write a v h⟩,
    fun m n => Memory.eq_of_read_eq⟩

/-- Settles O42: different multiples of a window's size begin windows that share no address. -/
theorem windowsDisjoint : Obligations.WindowsDisjoint := by
  unfold Obligations.WindowsDisjoint
  intro c w a h hlow hhigh
  exact windowAt_of_inWindow h (inWindow_iff.2 ⟨hlow, hhigh⟩)

/-- Settles O43: the checks in turn; a raised fault changes the field `fault` only. -/
theorem admissionOrder : Obligations.AdmissionOrder := by
  unfold Obligations.AdmissionOrder
  rintro s d n a v w off hw rfl
  rw [procAccess_window hw]
  refine ⟨fun hn => busAccess_width hn w d a v s, ?_, ?_, ?_⟩
  · rintro rfl ha
    exact busAccess_misaligned ha w d v s
  · rintro rfl ha hoff hreg
    rw [busAccess_aligned ha]
    exact runWord_adAt_unmapped hoff hreg d v s
  · rintro r rfl ha hreg
    rw [busAccess_aligned ha, runWord_adAt_register hreg]

/-- Settles O44: the line's fetch is from the address computed, inside a window or outside. -/
theorem windowFetchFaults : Obligations.WindowFetchFaults := by
  unfold Obligations.WindowFetchFaults
  intro s addr a free ha
  rw [runLine_fetchAt ha]
  exact ⟨fun w hw => fetchAccess_window (s := s.took free) hw, fun hw => fetchAccess_outside (s := s.took free) hw⟩

end Sys2Proof.Machine
end

section
/-! SUPPORT. For the statements of 30_encoding.md: the fields of a word, the registers' places in the windows, and
which words the decoder takes; what a machine that faulted answers. -/

namespace Sys2Proof

/-- The window a register lies in (10_state.md R14). -/
def Reg.window : Reg → Window
  | .clkTimer => .clk
  | .tctrl | .tcount | .tload | .tisr | .tier => .timer
  | .icMaskClr | .icPrio | .icAck => .intc
  | .udata | .ustat => .uart

/-- The register's offset in its window (10_state.md R14). -/
def Reg.offset : Reg → BitVec 12
  | .clkTimer | .tctrl | .icMaskClr | .udata => 0x000#12
  | .tcount | .icPrio | .ustat => 0x004#12
  | .tload | .icAck => 0x008#12
  | .tisr => 0x00C#12
  | .tier => 0x010#12

/-- Each register has one place, and no other offset names it. -/
theorem registerAt_eq_some_iff {w : Window} {off : BitVec 12} {r : Reg} :
    registerAt w off = some r ↔ r.window = w ∧ r.offset = off := by
  constructor
  · intro h
    cases w <;> simp only [registerAt] at h <;> split_ifs at h <;> cases h <;> exact ⟨rfl, ‹off = _›.symm⟩
  · rintro ⟨rfl, rfl⟩
    cases r <;> rfl

/-- The `RGN` value that names a window is the window's own (30_encoding.md R52). -/
theorem region_of_windowOf {rgn : BitVec 3} {w : Window} (h : windowOf rgn = some w) : rgn = regionId w := by
  unfold windowOf at h
  split_ifs at h with htimer hintc huart hclk <;> cases h <;> assumption

/-- A window's `RGN` value is one of the four lower ones (30_encoding.md R52). -/
theorem regionId_le (w : Window) : (regionId w).toNat ≤ 3 := by cases w <;> decide

/-- The four upper `RGN` values name no window (30_encoding.md R52). -/
theorem windowOf_of_ge {rgn : BitVec 3} (h : 4 ≤ rgn.toNat) : windowOf rgn = none := by
  cases hw : windowOf rgn with
  | none => rfl
  | some w =>
    have hle := regionId_le w
    rw [← region_of_windowOf hw] at hle
    omega

/-- Field `W` as the bit it is (30_encoding.md R52). -/
theorem ofBool_bit15 (ad : AdWord) :
    BitVec.ofBool (ad.getLsbD 15) = match adDir ad with | .read => 0#1 | .write => 1#1 := by
  unfold adDir
  cases ad.getLsbD 15 <;> rfl

/-- A word of a window's region is the access descriptor of its fields (30_encoding.md R52). -/
theorem eq_mkAd {ad : AdWord} {w : Window} (h : adRegion ad = regionId w) :
    ad = mkAd (adDir ad) w (adOffset ad) :=
  calc
    ad = BitVec.ofBool (ad.getLsbD 15) ++ adRegion ad ++ adOffset ad := Machine.adWord_fields ad
    _ = mkAd (adDir ad) w (adOffset ad) := by rw [ofBool_bit15, h]; rfl

/-- A word with `W` 1 and `RGN` 111 is the CORE word of its operation select (30_encoding.md R53). -/
theorem eq_mkCore {ad : AdWord} (hrgn : adRegion ad = 7#3) (hdir : adDir ad = .write) :
    ad = mkCore (adOffset ad) :=
  calc
    ad = BitVec.ofBool (ad.getLsbD 15) ++ adRegion ad ++ adOffset ad := Machine.adWord_fields ad
    _ = mkCore (adOffset ad) := by rw [ofBool_bit15, hrgn, hdir]; rfl

/-- The three operation selects (30_encoding.md R53). -/
theorem coreOf_cases {off : BitVec 12} {i : Instr} (h : coreOf off = .instr i) :
    off = 0x000#12 ∧ i = .ie ∨ off = 0x004#12 ∧ i = .id ∨ off = 0x008#12 ∧ i = .iret := by
  unfold coreOf at h
  split_ifs at h with hie hid hiret <;> cases h
  · exact .inl ⟨hie, rfl⟩
  · exact .inr (.inl ⟨hid, rfl⟩)
  · exact .inr (.inr ⟨hiret, rfl⟩)

/-- An operation select spells an operation or is reserved (30_encoding.md R53). -/
theorem coreOf_ne_unmapped (off : BitVec 12) : coreOf off ≠ .unmapped := by
  unfold coreOf
  split_ifs <;> simp

/-- A word spells an operation in one of two ways: as the access descriptor of a register, or as a CORE word
(30_encoding.md R53, R55). -/
theorem decode_instr_cases {ad : AdWord} {v : Word} {i : Instr} (h : decode ad v = .instr i) :
    ((adRegion ad).toNat ≤ 3 ∧ ∃ r : Reg,
      ad = mkAd (adDir ad) r.window r.offset ∧ i = accessOf (adDir ad) r v) ∨
    (adRegion ad = 7#3 ∧ ad = mkCore (adOffset ad) ∧ coreOf (adOffset ad) = .instr i) := by
  unfold decode at h
  cases hw : windowOf (adRegion ad) with
  | some w =>
    have hrgn := region_of_windowOf hw
    cases hr : registerAt w (adOffset ad) with
    | some r =>
      obtain ⟨hwin, hoff⟩ := registerAt_eq_some_iff.1 hr
      simp only [hw, hr, Decoded.instr.injEq] at h
      refine .inl ⟨hrgn ▸ regionId_le w, r, ?_, h.symm⟩
      rw [hwin, hoff]
      exact eq_mkAd hrgn
    | none => simp [hw, hr] at h
  | none =>
    simp only [hw] at h
    split_ifs at h with hcore
    exact .inr ⟨hcore.1, eq_mkCore hcore.1 hcore.2, h⟩

/-- What the encoder gives an access to a register: its place's descriptor, and a write's data word
(30_encoding.md R52). -/
theorem encode_accessOf (d : Dir) (r : Reg) (v : Word) :
    encode (accessOf d r v) = ⟨mkAd d r.window r.offset, if d = .write then v else 0#32⟩ := by
  cases d <;> cases r <;> rfl

/-- What it gives a CORE operation: its word, and no data word (30_encoding.md R53). -/
theorem encode_of_coreOf {off : BitVec 12} {i : Instr} (h : coreOf off = .instr i) :
    encode i = ⟨mkCore off, 0#32⟩ := by
  obtain ⟨rfl, rfl⟩ | ⟨rfl, rfl⟩ | ⟨rfl, rfl⟩ := coreOf_cases h <;> rfl

/-- The encoder gives a decoded word back, with the data word of a bus write. -/
theorem encode_of_decode {ad : AdWord} {v : Word} {i : Instr} (h : decode ad v = .instr i) :
    encode i = ⟨ad, if adDir ad = .write ∧ (adRegion ad).toNat ≤ 3 then v else 0#32⟩ := by
  obtain ⟨hle, r, had, rfl⟩ | ⟨hrgn, had, hcore⟩ := decode_instr_cases h
  · rw [encode_accessOf, ← had]
    simp only [hle, and_true]
  · rw [encode_of_coreOf hcore, ← had]
    simp [hrgn]

end Sys2Proof

namespace Sys2Proof.Machine

/-! The words of the decode table (30_encoding.md R55) whose decoding is not among the laws of program lines. -/

@[simp] theorem decode_ldClkTimer (v : Word) : decode 0x3000#16 v = .instr .ldClkTimer := rfl
@[simp] theorem decode_ldTctrl (v : Word) : decode 0x0000#16 v = .instr .ldTctrl := rfl
@[simp] theorem decode_ldTcount (v : Word) : decode 0x0004#16 v = .instr .ldTcount := rfl
@[simp] theorem decode_ldTload (v : Word) : decode 0x0008#16 v = .instr .ldTload := rfl
@[simp] theorem decode_ldTisr (v : Word) : decode 0x000C#16 v = .instr .ldTisr := rfl
@[simp] theorem decode_ldTier (v : Word) : decode 0x0010#16 v = .instr .ldTier := rfl
@[simp] theorem decode_ldIcMaskClr (v : Word) : decode 0x1000#16 v = .instr .ldIcMaskClr := rfl
@[simp] theorem decode_ldIcPrio (v : Word) : decode 0x1004#16 v = .instr .ldIcPrio := rfl
@[simp] theorem decode_ldIcAck (v : Word) : decode 0x1008#16 v = .instr .ldIcAck := rfl
@[simp] theorem decode_stUstat (v : Word) : decode 0xA004#16 v = .instr (.stUstat v) := rfl

/-- Every operation's word is in the decode table. -/
theorem encode_mem_tableWords (i : Instr) : (encode i).ad ∈ tableWords := by
  cases i <;> exact List.elem_iff.1 rfl

/-- The decode table holds the words that spell an operation, whatever the data word (30_encoding.md R55). -/
theorem mem_tableWords_iff {ad : AdWord} (v : Word) : ad ∈ tableWords ↔ ∃ i, decode ad v = .instr i := by
  constructor
  · have hall : ∀ ad ∈ tableWords, ∃ i, decode ad v = .instr i := by simp [tableWords]
    exact hall ad
  · rintro ⟨i, h⟩
    have hmem := encode_mem_tableWords i
    rwa [encode_of_decode h] at hmem

/-- A word outside the windows' regions is no access (30_encoding.md R53). -/
theorem decode_ne_unmapped_of_region {ad : AdWord} (h : 4 ≤ (adRegion ad).toNat) (v : Word) :
    decode ad v ≠ .unmapped := by
  simp only [decode, windowOf_of_ge h]
  split_ifs
  · exact coreOf_ne_unmapped _
  · simp

/-- A machine that holds a fault answers it (60_exceptions.md R114). -/
theorem step_of_fault {s : State} {r : FaultRecord} (h : s.fault = some r) : step s = .fault r.fault := by
  simp only [step, h]

/-- After an operation that raises a fault, which changes the field `fault` only, the machine stops with that fault
whoever is to move. -/
theorem exec_raise_stops {i : Instr} {s : State} {f : Fault} {c : Culprit} (h : exec i s = .next (s.raise f c)) :
    ∃ t : State, exec i s = .next t ∧ t = { s with fault := some ⟨f, c⟩ } ∧
      ∀ (l : List Agent) (n : Nat), step { t with schedule := l, choices := n } = .fault f :=
  ⟨s.raise f c, h, rfl, fun _ _ => step_of_fault (r := ⟨f, c⟩) rfl⟩

/-- A read of `IC_MASK_CLR` only faults (30_encoding.md R56). -/
theorem exec_ldIcMaskClr (s : State) : exec .ldIcMaskClr s = .next (s.raise .woRead (.access 0x1000#16 none)) := rfl

/-- A read of `IC_ACK` only faults (30_encoding.md R56). -/
theorem exec_ldIcAck (s : State) : exec .ldIcAck s = .next (s.raise .woRead (.access 0x1008#16 none)) := rfl

/-- A write of `USTAT` only faults (30_encoding.md R57). -/
theorem exec_stUstat (v : Word) (s : State) :
    exec (.stUstat v) s = .next (s.raise .roWrite (.access 0xA004#16 (some v))) := rfl

end Sys2Proof.Machine
end

section
/-! CERTIFICATE. The statements of 30_encoding.md settled: decode and encode agree, the words of the table and the
words outside it, and the accesses that only fault. -/

namespace Sys2Proof.Machine

/-- Settles O1: decoding the encoder's word by each operation, and the converse by the two ways a word spells an
operation. -/
theorem decodeInvertsEncode : Obligations.DecodeInvertsEncode := by
  unfold Obligations.DecodeInvertsEncode
  intro i
  refine ⟨decode_encode i, fun ad v h => ?_⟩
  rw [encode_of_decode h]
  exact ⟨rfl, rfl⟩

/-- Settles O3: what is in the table spells an operation, and `RGN` tells the two rejections apart. -/
theorem otherWordsRejected : Obligations.OtherWordsRejected := by
  unfold Obligations.OtherWordsRejected
  intro ad v
  rw [mem_tableWords_iff v]
  cases hd : decode ad v with
  | instr i => simp
  | unmapped =>
    have hupper : ¬ 4 ≤ (adRegion ad).toNat := fun h => decode_ne_unmapped_of_region h v hd
    have hlower : (adRegion ad).toNat ≤ 3 := by omega
    simp [hlower, hupper]
  | reserved =>
    have hlower : ¬ (adRegion ad).toNat ≤ 3 := fun h => decode_ne_reserved_of_region h v hd
    have hupper : 4 ≤ (adRegion ad).toNat := by omega
    simp [hlower, hupper]

/-- Settles O2: the table's words one by one. -/
theorem tableWordsDecode : Obligations.TableWordsDecode := by
  unfold Obligations.TableWordsDecode
  intro v
  exact ⟨decode_ldClkTimer v, decode_stClkTimer v, decode_ldTcount v, decode_stTisr v, decode_stTier v,
    decode_ldIcPrio v, decode_stIcAck v, decode_ldUdata v, decode_stUdata v, decode_ldUstat v, decode_ie v,
    decode_id v, decode_iret v⟩

/-- Settles O17: each of the two reads raises the fault and does nothing else. -/
theorem writeOnlyReadFaults : Obligations.WriteOnlyReadFaults := by
  unfold Obligations.WriteOnlyReadFaults
  intro s
  simp only [List.forall_mem_cons]
  exact ⟨⟨decode_ldIcMaskClr, exec_raise_stops (exec_ldIcMaskClr s)⟩,
    ⟨decode_ldIcAck, exec_raise_stops (exec_ldIcAck s)⟩, by simp⟩

/-- Settles O18: the write raises the fault with its data word and does nothing else. -/
theorem statusWriteFaults : Obligations.StatusWriteFaults := by
  unfold Obligations.StatusWriteFaults
  intro s v
  exact ⟨decode_stUstat v, exec_raise_stops (exec_stUstat v s)⟩

end Sys2Proof.Machine
end

section
/-! SUPPORT. For the statements of 40_uart.md: what the three accesses of the UART answer, when its two line agents
have a step and what that step is, and what any step does to the UART. -/

namespace Sys2Proof.Machine

/-! The accesses. -/

/-- A read of `UDATA` from an empty FIFO only faults (40_uart.md R62). -/
theorem exec_ldUdata_nil {s : State} (h : s.rxFifo = []) :
    exec .ldUdata s = .next (s.raise .rxUnderflow (.access 0x2000#16 none)) := by
  simp only [exec, execLdUdata, h]

/-- Else it takes the oldest byte, under drawn bits. -/
theorem exec_ldUdata_cons {s : State} {b : Byte} {rest : List Byte} (h : s.rxFifo = b :: rest) :
    exec .ldUdata s = .next ({ s with rxFifo := rest, draws := s.draws + 1 }.readDone 0x2000#16
      (udataWord (Config.drawUpper s.draws) b)) := by
  simp only [exec, execLdUdata, h]

theorem State.txff_iff {s : State} : s.txff = true ↔ s.txFifo.length = s.cfg.txDepth := by
  rw [State.txff, beq_iff_eq]

/-- A write of `UDATA` into a full FIFO only faults (40_uart.md R63). -/
theorem exec_stUdata_full {s : State} (h : s.txFifo.length = s.cfg.txDepth) (v : Word) :
    exec (.stUdata v) s = .next (s.raise .txOverflow (.access 0xA000#16 (some v))) := by
  simp only [exec, execStUdata, if_pos (State.txff_iff.2 h)]

/-- Else its low byte joins the FIFO. -/
theorem exec_stUdata_room {s : State} (h : s.txFifo.length ≠ s.cfg.txDepth) (v : Word) :
    exec (.stUdata v) s = .next ({ s with txFifo := s.txFifo ++ [lowByte v] }.writeDone 0xA000#16 v) := by
  simp only [exec, execStUdata, if_neg (mt State.txff_iff.1 h)]

/-- A one-bit field shifted up is that bit, and every other bit is 0. -/
theorem zextBit_shiftLeft_getLsbD (b : Bool) {n : Nat} (hn : n < 32) (k : Nat) :
    (zextBit b <<< n).getLsbD k = (decide (k = n) && b) := by
  rw [BitVec.getLsbD_shiftLeft, zextBit_getLsbD]
  by_cases hk : k = n
  · simp [hk, hn]
  · have hshift : k < n ∨ k - n ≠ 0 := by omega
    obtain h | h := hshift <;> simp [hk, h]

/-- `USTAT`'s data word, bit by bit (40_uart.md R64). -/
theorem State.ustat_getLsbD (s : State) (k : Nat) :
    s.ustat.getLsbD k =
      ((decide (k = 0) && s.txff) || (decide (k = 1) && s.rxfe) || (decide (k = 2) && s.txfe) ||
        (decide (k = 3) && s.rxne)) := by
  simp only [State.ustat, BitVec.getLsbD_or, zextBit_getLsbD, zextBit_shiftLeft_getLsbD _ (show 1 < 32 by decide),
    zextBit_shiftLeft_getLsbD _ (show 2 < 32 by decide), zextBit_shiftLeft_getLsbD _ (show 3 < 32 by decide)]
  ac_rfl

/-! The line agents. -/

/-- Choosing who moves changes neither what an agent reads nor what it writes. -/
@[simp] theorem State.chosen_enabled (s : State) (a : Agent) : s.chosen.enabled a = s.enabled a := by
  obtain ⟨l, n, h⟩ := s.chosen_cases
  rw [h]
  cases a <;> rfl

@[simp] theorem State.chosen_txFifo (s : State) : s.chosen.txFifo = s.txFifo := by
  obtain ⟨l, n, h⟩ := s.chosen_cases
  rw [h]

@[simp] theorem State.chosen_txOut (s : State) : s.chosen.txOut = s.txOut := by
  obtain ⟨l, n, h⟩ := s.chosen_cases
  rw [h]

@[simp] theorem State.chosen_rxFifo (s : State) : s.chosen.rxFifo = s.rxFifo := by
  obtain ⟨l, n, h⟩ := s.chosen_cases
  rw [h]

@[simp] theorem State.chosen_rxScript (s : State) : s.chosen.rxScript = s.rxScript := by
  obtain ⟨l, n, h⟩ := s.chosen_cases
  rw [h]

@[simp] theorem State.chosen_trace (s : State) : s.chosen.trace = s.trace := by
  obtain ⟨l, n, h⟩ := s.chosen_cases
  rw [h]

/-- An agent without a step leaves the state alone (log entry 3). -/
theorem stepAgent_disabled {a : Agent} {s : State} (h : s.enabled a = false) : stepAgent a s = .next s := by
  cases a with
  | processor =>
    have hnone : fetchLine s.cont = none := by simpa [State.enabled, State.processorEnabled] using h
    simp only [stepAgent, stepProcessor, hnone]
  | _ =>
    simp only [State.enabled] at h
    simp [stepAgent, h]

/-- A turn of an agent without a step changes nothing but the turn. -/
theorem step_disabled {s : State} {a : Agent} (hf : s.fault = none) (hm : s.mover = a) (he : s.enabled a = false) :
    step s = .next s.chosen := by
  rw [step_of_no_fault hf, hm]
  exact stepAgent_disabled (by rwa [State.chosen_enabled])

theorem step_txDrain {s : State} (hf : s.fault = none) (hm : s.mover = .txDrain) (he : s.enabled .txDrain = true) :
    step s = .next s.chosen.drain := by
  rw [← State.chosen_enabled, State.enabled] at he
  rw [step_of_no_fault hf, hm, stepAgent, if_pos he]

theorem step_rxArrival {s : State} (hf : s.fault = none) (hm : s.mover = .rxArrival)
    (he : s.enabled .rxArrival = true) : step s = .next s.chosen.arrive := by
  rw [← State.chosen_enabled, State.enabled] at he
  rw [step_of_no_fault hf, hm, stepAgent, if_pos he]

/-- The transmitter has a step where a byte waits (40_uart.md R65). -/
theorem State.enabled_txDrain {s : State} : s.enabled .txDrain = true ↔ s.txFifo ≠ [] := by
  simp [State.enabled, State.drainEnabled, List.length_pos_iff]

/-- The receiver has a step where the host has a byte and the FIFO room, or leave to drop it (40_uart.md R66). -/
theorem State.enabled_rxArrival {s : State} :
    s.enabled .rxArrival = true ↔
      s.rxScript ≠ [] ∧ (s.rxFifo.length < s.cfg.rxDepth ∨ s.cfg.rxOverrun = .dropNew) := by
  cases hr : s.cfg.rxOverrun <;> simp [State.enabled, State.arrivalEnabled, List.length_pos_iff, hr]

theorem State.drain_cons {s : State} {b : Byte} {rest : List Byte} (h : s.txFifo = b :: rest) :
    s.drain = { s with txFifo := rest, txOut := s.txOut ++ [b], trace := s.trace ++ [.tx b] } := by
  simp only [State.drain, h, State.emit]

theorem State.arrive_room {s : State} {b : Byte} {rest : List Byte} (h : s.rxScript = b :: rest)
    (hroom : s.rxFifo.length < s.cfg.rxDepth) :
    s.arrive = { s with rxScript := rest, rxFifo := s.rxFifo ++ [b], trace := s.trace ++ [.rx b] } := by
  simp only [State.arrive, h, if_pos hroom, State.emit]

theorem State.arrive_full {s : State} {b : Byte} {rest : List Byte} (h : s.rxScript = b :: rest)
    (hfull : s.cfg.rxDepth ≤ s.rxFifo.length) :
    s.arrive = { s with rxScript := rest, trace := s.trace ++ [.rxDrop b] } := by
  simp only [State.arrive, h, if_neg (Nat.not_lt.2 hfull), State.emit]

/-! What any step does to the UART. -/

/-- The UART of 10_state.md R27 and R28: its FIFOs and the two ends of the line. -/
structure UartSide where
  txOut : List Byte
  txFifo : List Byte
  rxFifo : List Byte
  rxScript : List Byte

/-- The UART of a state. -/
def State.uart (s : State) : UartSide := ⟨s.txOut, s.txFifo, s.rxFifo, s.rxScript⟩

/-- The ways the UART changes, each with the agent that does it: not at all; a byte read or written by the
processor; a byte sent; a byte received, or lost at a full FIFO under `DROP_NEW`. -/
inductive UartChange (c : Config) (u : UartSide) : Agent → UartSide → Prop
  | kept (a : Agent) : UartChange c u a u
  | taken (b : Byte) (rest : List Byte) (h : u.rxFifo = b :: rest) :
      UartChange c u .processor { u with rxFifo := rest }
  | queued (b : Byte) : UartChange c u .processor { u with txFifo := u.txFifo ++ [b] }
  | sent (b : Byte) (rest : List Byte) (h : u.txFifo = b :: rest) :
      UartChange c u .txDrain { u with txFifo := rest, txOut := u.txOut ++ [b] }
  | received (b : Byte) (rest : List Byte) (h : u.rxScript = b :: rest) (hroom : u.rxFifo.length < c.rxDepth) :
      UartChange c u .rxArrival { u with rxScript := rest, rxFifo := u.rxFifo ++ [b] }
  | dropped (b : Byte) (rest : List Byte) (h : u.rxScript = b :: rest) (hfull : c.rxDepth ≤ u.rxFifo.length)
      (hdrop : c.rxOverrun = .dropNew) : UartChange c u .rxArrival { u with rxScript := rest }

/-- Of the operations only the two accesses of `UDATA` reach the UART. -/
theorem Change.uartChange {i : Instr} {s t : State} (h : Change s i t) :
    UartChange s.cfg s.uart .processor t.uart := by
  cases h with
  | receive b rest hb v => exact .taken b rest hb
  | send hroom v => exact .queued (lowByte v)
  | ack v =>
    obtain ⟨_, _, _, h⟩ := s.acknowledge_fields
    rw [h]
    exact .kept _
  | leave => obtain ⟨-, h⟩ | ⟨-, h⟩ := s.returnFromInterrupt_cases <;> rw [h] <;> exact .kept _
  | _ => exact .kept _

/-- Of the other agents only the two of the line do; a byte is lost only where the agent has a step at a full FIFO. -/
theorem BlockChange.uartChange {a : Agent} {s t : State} (h : BlockChange s a t) :
    UartChange s.cfg s.uart a t.uart := by
  cases h with
  | operation i h => exact h.uartChange
  | delivery => obtain ⟨-, h⟩ | ⟨-, h⟩ := s.takeInterrupt_cases <;> rw [h] <;> exact .kept _
  | tick => obtain ⟨-, h⟩ | ⟨-, -, h⟩ | ⟨-, -, h⟩ := s.tick_cases <;> rw [h] <;> exact .kept _
  | drain =>
    obtain ⟨-, h⟩ | ⟨b, rest, hb, h⟩ := s.drain_cases
    · rw [h]
      exact .kept _
    · rw [h]
      exact .sent b rest hb
  | arrival he =>
    obtain ⟨-, h⟩ | ⟨b, rest, hb, hroom, h⟩ | ⟨b, rest, hb, hfull, h⟩ := s.arrive_cases
    · rw [h]
      exact .kept _
    · rw [h]
      exact .received b rest hb hroom
    · rw [h]
      obtain ⟨-, hdrop⟩ := State.enabled_rxArrival.1 he
      exact .dropped b rest hb (Nat.not_lt.1 hfull) (hdrop.resolve_left hfull)

theorem step_uartChange {s t : State} (h : step s = .next t) : UartChange s.cfg s.uart s.mover t.uart := by
  obtain hst | ⟨u, w, ⟨⟩, hc, ⟨⟩⟩ := step_same_or_change h
  · cases hst
    exact .kept _
  · exact hc.uartChange

/-- Bytes sent and bytes waiting, in one list: a byte moves from the second to the first without changing it, and
only a write adds one. -/
theorem UartChange.transmit_grows {c : Config} {a : Agent} {u w : UartSide} (h : UartChange c u a w) :
    ∃ b : List Byte, w.txOut ++ w.txFifo = (u.txOut ++ u.txFifo) ++ b ∧ b.length ≤ 1 ∧ (a ≠ .processor → b = []) := by
  cases h with
  | queued b => exact ⟨[b], (List.append_assoc ..).symm, le_rfl, fun ha => absurd rfl ha⟩
  | sent b rest hb => exact ⟨[], by simp [hb], Nat.zero_le 1, fun _ => rfl⟩
  | _ => exact ⟨[], (List.append_nil _).symm, Nat.zero_le 1, fun _ => rfl⟩

/-- The receive FIFO and the host's script: as they were; the oldest byte read; the host's next byte stored or lost. -/
theorem UartChange.receive_cases {c : Config} {a : Agent} {u w : UartSide} (h : UartChange c u a w) :
    (w.rxScript = u.rxScript ∧
      (w.rxFifo = u.rxFifo ∨ (a = .processor ∧ ∃ b, u.rxFifo = b :: w.rxFifo))) ∨
    (a = .rxArrival ∧ ∃ b, u.rxScript = b :: w.rxScript ∧
      ((u.rxFifo.length < c.rxDepth ∧ w.rxFifo = u.rxFifo ++ [b]) ∨
        (c.rxDepth ≤ u.rxFifo.length ∧ c.rxOverrun = .dropNew ∧ w.rxFifo = u.rxFifo))) := by
  cases h with
  | taken b rest hb => exact .inl ⟨rfl, .inr ⟨rfl, b, hb⟩⟩
  | received b rest hb hroom => exact .inr ⟨rfl, b, hb, .inl ⟨hroom, rfl⟩⟩
  | dropped b rest hb hfull hdrop => exact .inr ⟨rfl, b, hb, .inr ⟨hfull, hdrop, rfl⟩⟩
  | _ => exact .inl ⟨rfl, .inl rfl⟩

end Sys2Proof.Machine
end

section
/-! CERTIFICATE. The statements of 40_uart.md settled: the order of the bytes in both directions, the accesses, and
the steps of the two line agents. -/

namespace Sys2Proof.Machine

/-- Settles O30: by the ways a step changes the UART. -/
theorem transmitOrderKept : Obligations.TransmitOrderKept := by
  unfold Obligations.TransmitOrderKept
  intro s t h
  exact (step_uartChange h).transmit_grows

/-- Settles O31: by the ways a step changes the UART. -/
theorem receiveOrderKept : Obligations.ReceiveOrderKept := by
  unfold Obligations.ReceiveOrderKept
  intro s t h
  exact (step_uartChange h).receive_cases

/-- Settles O19: the data word is the drawn bits over the oldest byte. -/
theorem receiveRead : Obligations.ReceiveRead := by
  unfold Obligations.ReceiveRead
  intro s
  refine ⟨decode_ldUdata, exec_ldUdata_nil, fun b rest h => ?_⟩
  exact ⟨udataWord (Config.drawUpper s.draws) b, udataWord_low _ b, udataWord_high _ b, exec_ldUdata_cons h⟩

/-- Settles O20: the access of a full FIFO and of one with room. -/
theorem transmitWrite : Obligations.TransmitWrite := by
  unfold Obligations.TransmitWrite
  intro s v
  exact ⟨decode_stUdata v, fun h => exec_stUdata_full h v, fun h => exec_stUdata_room h v⟩

/-- Settles O21: the data word is the four flags, each at its bit. -/
theorem occupancyRead : Obligations.OccupancyRead := by
  unfold Obligations.OccupancyRead
  intro s
  exact ⟨decode_ldUstat, s.ustat, s.ustat_getLsbD, rfl⟩

/-- Settles O28: the agent has a step exactly where a byte waits. -/
theorem drainStep : Obligations.DrainStep := by
  unfold Obligations.DrainStep
  intro s hf hm
  constructor
  · intro hnil
    have hoff : s.enabled .txDrain = false := Bool.eq_false_iff.2 fun he => State.enabled_txDrain.1 he hnil
    exact ⟨hoff, step_disabled hf hm hoff⟩
  · intro b rest hb
    have hon : s.enabled .txDrain = true := State.enabled_txDrain.2 (by simp [hb])
    rw [step_txDrain hf hm hon, State.drain_cons (s := s.chosen) (by rwa [State.chosen_txFifo]), State.chosen_txOut,
      State.chosen_trace]

/-- Settles O29: with a byte to send the agent has a step where there is room or `DROP_NEW`, and none under `HOLD`
at a full FIFO. -/
theorem arrivalStep : Obligations.ArrivalStep := by
  unfold Obligations.ArrivalStep
  intro s hf hm
  have idle : ¬ s.enabled .rxArrival = true → s.enabled .rxArrival = false ∧ step s = .next s.chosen :=
    fun he => ⟨Bool.eq_false_iff.2 he, step_disabled hf hm (Bool.eq_false_iff.2 he)⟩
  refine ⟨fun hnil => idle fun he => (State.enabled_rxArrival.1 he).1 hnil, fun b rest hb => ?_⟩
  have hsome : s.rxScript ≠ [] := by simp [hb]
  have hchosen : s.chosen.rxScript = b :: rest := by rwa [State.chosen_rxScript]
  refine ⟨fun hroom => ?_, fun hfull hdrop => ?_, fun hfull hhold => ?_⟩
  · rw [step_rxArrival hf hm (State.enabled_rxArrival.2 ⟨hsome, .inl hroom⟩),
      State.arrive_room hchosen (by simpa using hroom), State.chosen_rxFifo, State.chosen_trace]
  · rw [step_rxArrival hf hm (State.enabled_rxArrival.2 ⟨hsome, .inr hdrop⟩),
      State.arrive_full hchosen (by simpa using hfull), State.chosen_trace]
  · refine idle fun he => ?_
    obtain ⟨-, hroom | hdrop⟩ := State.enabled_rxArrival.1 he
    · exact absurd hroom (Nat.not_lt.2 hfull)
    · rw [hhold] at hdrop
      cases hdrop

end Sys2Proof.Machine
end

section
/-! SUPPORT. Running a driver operation line by line: the processor at a line, what each kind of line does to the
innermost frame, and the polls of `USTAT`. -/

namespace Sys2Proof.Machine

/-! The names of a frame. -/

@[simp] theorem lookup_bindName_self {α : Type} (n : Name) (v : α) (l : List (Name × α)) :
    (bindName n v l).lookup n = some v := by
  simp [bindName]

/-! The continuation of a state. -/

/-- The state with another continuation. -/
def State.withCont (s : State) (c : List Frame) : State := { s with cont := c }

/-- The frame `f` at line `n`. -/
def Frame.atLine (f : Frame) (n : Nat) : Frame := { f with pos := n }

/-! The processor at a line. An operation that has run its last line leaves its frame behind until the next line is
fetched, so where a caller's line is next is said by what `fetchLine` finds. -/

/-- The processor runs the line that the innermost frame with lines left stands at. -/
theorem stepProcessor_at {s : State} {f : Frame} {fs : List Frame} {l : Line}
    (hc : fetchLine s.cont = fetchLine (f :: fs)) (hl : f.code[f.pos]? = some l) :
    stepProcessor s = runLine l (s.withCont (f.atLine (f.pos + 1) :: fs)) := by
  simp only [stepProcessor, hc, fetchLine_some hl]
  rfl

/-- A run that begins with that line. -/
theorem cpuSteps_line {s t : State} {f : Frame} {fs : List Frame} {l : Line} (n : Nat)
    (hc : fetchLine s.cont = fetchLine (f :: fs)) (hl : f.code[f.pos]? = some l)
    (hr : runLine l (s.withCont (f.atLine (f.pos + 1) :: fs)) = .next t) :
    cpuSteps (n + 1) s = cpuSteps n t :=
  cpuSteps_succ n ((stepProcessor_at hc hl).trans hr)

/-! The lines that make no access: what each does to the innermost frame. -/

section Lines

variable {s : State} {f g : Frame} {fs : List Frame}

theorem runLine_goto (n : Nat) :
    runLine (.goto n) (s.withCont (f :: fs)) = .next (s.withCont (f.atLine n :: fs)) := rfl

theorem runLine_ifGoto_true {c : Cond} (h : c.eval (s.withCont (f :: fs)) = .known true) (n : Nat) :
    runLine (.ifGoto c n) (s.withCont (f :: fs)) = .next (s.withCont (f.atLine n :: fs)) := by
  rw [runLine, h]
  rfl

theorem runLine_ifGoto_false {c : Cond} (h : c.eval s = .known false) (n : Nat) :
    runLine (.ifGoto c n) s = .next s := by
  rw [runLine, h]
  rfl

theorem runLine_assign {e : Expr} {v : Word} (h : e.eval (s.withCont (f :: fs)) = .known v) (n : Name) :
    runLine (.assign n e) (s.withCont (f :: fs)) =
      .next (s.withCont ({ f with words := bindName n v f.words } :: fs)) := by
  rw [runLine, h]
  rfl

theorem runLine_assignStr {e : StrExpr} {b : List Byte} (h : e.eval (s.withCont (f :: fs)) = .known b) (n : Name) :
    runLine (.assignStr n e) (s.withCont (f :: fs)) =
      .next (s.withCont ({ f with strs := bindName n b f.strs } :: fs)) := by
  rw [runLine, h]
  rfl

theorem runLine_call {c : Call} (h : c.frame (s.withCont fs) = .known g) :
    runLine (.call c) (s.withCont fs) = .next (s.withCont (g :: fs)) := by
  rw [runLine, h]
  rfl

/-- A return of a word binds it for the caller. -/
theorem runLine_ret_word {e : Expr} {v : Word} {dst : Name} (hdst : g.retWord = some dst)
    (h : e.eval (s.withCont (g :: f :: fs)) = .known v) :
    runLine (.ret (some e) none) (s.withCont (g :: f :: fs)) =
      .next (s.withCont ({ f with words := bindName dst v f.words } :: fs)) := by
  have hpop : (s.withCont (g :: f :: fs)).pop (some v) none =
      s.withCont ({ f with words := bindName dst v f.words } :: fs) := by
    simp only [State.pop, State.withCont, hdst]
    rfl
  rw [← hpop, runLine, returned, returned, h]
  rfl

/-- A return of a word and a byte string binds both for the caller, the word only where the caller takes it. -/
theorem runLine_ret_both {e : Expr} {b : StrExpr} {v : Word} {txt : List Byte} {dst : Name}
    (hdst : g.retStr = some dst) (he : e.eval (s.withCont (g :: f :: fs)) = .known v)
    (hb : b.eval (s.withCont (g :: f :: fs)) = .known txt) :
    runLine (.ret (some e) (some b)) (s.withCont (g :: f :: fs)) =
      .next (s.withCont
        ({ f with
            words := g.retWord.elim f.words fun n => bindName n v f.words
            strs := bindName dst txt f.strs } :: fs)) := by
  have hpop : (s.withCont (g :: f :: fs)).pop (some v) (some txt) = s.withCont
        ({ f with
            words := g.retWord.elim f.words fun n => bindName n v f.words
            strs := bindName dst txt f.strs } :: fs) := by
    simp only [State.pop, State.withCont, hdst]
    cases g.retWord <;> rfl
  rw [← hpop, runLine, returned, returned, he, hb]
  rfl

end Lines

/-! The polls of `USTAT`. -/

/-- The mask of a flag's bit is a test of that bit. -/
theorem and_twoPow_eq_zero_iff (v : Word) {n : Nat} (hn : n < 32) :
    v &&& BitVec.twoPow 32 n = 0#32 ↔ v.getLsbD n = false := by
  have hbit : BitVec.twoPow 32 n ≠ 0#32 := by
    intro h
    simpa [hn] using congrArg (BitVec.getLsbD · n) h
  rw [BitVec.and_twoPow]
  cases v.getLsbD n <;> simp [hbit]

/-- Bit 0 of `USTAT` says that the transmit FIFO is full (40_uart.md R64). -/
theorem State.ustat_room_iff (s : State) : s.ustat &&& 0x1#32 = 0#32 ↔ s.txFifo.length ≠ s.cfg.txDepth := by
  rw [show 0x1#32 = BitVec.twoPow 32 0 from rfl, and_twoPow_eq_zero_iff _ (by decide), State.ustat_getLsbD,
    Ne, ← State.txff_iff]
  simp

/-- Bit 1 says that the receive FIFO is empty. -/
theorem State.ustat_waiting_iff (s : State) : s.ustat &&& 0x2#32 = 0#32 ↔ s.rxFifo ≠ [] := by
  rw [show 0x2#32 = BitVec.twoPow 32 1 from rfl, and_twoPow_eq_zero_iff _ (by decide), State.ustat_getLsbD]
  simp [State.rxfe]

/-- The condition of a poll, on the word it read. -/
theorem maskSet_eval {s : State} {v : Word} (h : s.frame.words.lookup nV = some v) (m : Word) :
    (maskSet m).eval s = .known (decide (v &&& m ≠ 0#32)) := by
  simp only [maskSet, Cond.eval, Expr.eval, h]
  rfl

/-- The state after a poll of `USTAT` by the frame `f`, which then stands at `pos`. -/
def State.polled (s : State) (f : Frame) (fs : List Frame) (pos : Nat) : State :=
  (s.readDone 0x2004#16 s.ustat).withCont ({ f with pos := pos, words := bindName nV s.ustat f.words } :: fs)

section Poll

variable {s : State} {f : Frame} {fs : List Frame} {m : Word} {ls : List Line}

/-- The first line of a poll reads `USTAT` into the name `v`. -/
theorem cpuSteps_ldUstat (n : Nat) (hf : s.fault = none) (hc : s.cont = f :: fs) (hpos : f.pos = 0)
    (hcode : f.code = ldLine 0x2004#16 nV :: ls) :
    cpuSteps (n + 1) s = cpuSteps n (s.polled f fs 1) := by
  refine cpuSteps_line n (congrArg fetchLine hc) (by rw [hcode, hpos]; rfl) ?_
  rw [runLine_ldLine rfl (decode_ldUstat 0#32), hpos]
  exact received_name (t := (s.readDone 0x2004#16 s.ustat).withCont (f.atLine 1 :: fs)) hf rfl nV

/-- A poll whose flag is clear goes on behind its two lines. -/
theorem cpuSteps_poll_clear (hf : s.fault = none) (hc : s.cont = f :: fs) (hpos : f.pos = 0)
    (hcode : f.code = ldLine 0x2004#16 nV :: .ifGoto (maskSet m) 0 :: ls) (hm : s.ustat &&& m = 0#32) :
    cpuSteps 2 s = .next (s.polled f fs 2) := by
  rw [cpuSteps_ldUstat 1 hf hc hpos hcode]
  refine cpuSteps_line 0 rfl (congrArg (·[1]?) hcode) (runLine_ifGoto_false ?_ 0)
  rw [maskSet_eval (lookup_bindName_self ..), decide_eq_false (not_not.2 hm)]

/-- A poll whose flag is set leads back to its first line. -/
theorem cpuSteps_poll_set (hf : s.fault = none) (hc : s.cont = f :: fs) (hpos : f.pos = 0)
    (hcode : f.code = ldLine 0x2004#16 nV :: .ifGoto (maskSet m) 0 :: ls) (hm : s.ustat &&& m ≠ 0#32) :
    cpuSteps 2 s = .next (s.polled f fs 0) := by
  rw [cpuSteps_ldUstat 1 hf hc hpos hcode]
  refine cpuSteps_line 0 rfl (congrArg (·[1]?) hcode) (runLine_ifGoto_true ?_ 0)
  rw [maskSet_eval (lookup_bindName_self ..), decide_eq_true hm]

end Poll

end Sys2Proof.Machine
end

section
/-! SUPPORT. `put_byte` and `get_byte` (41_uart_driver.md): what one byte sent and one byte received leave behind. -/

namespace Sys2Proof.Machine

/-! `put_byte` (41_uart_driver.md R68). -/

/-- The frame of `put_byte(b)`. -/
def putByteFrame (b : Byte) : Frame := Frame.call putByteLines [(nB, b.setWidth 32)] [] none none

/-- The write of `put_byte`, its poll behind it. -/
theorem stepProcessor_putByte_write {s : State} {f : Frame} {fs : List Frame} {v : Word}
    (hc : s.cont = f :: fs) (hcode : f.code = putByteLines) (hpos : f.pos = 2) (hb : f.words.lookup nB = some v) :
    stepProcessor s = exec (.stUdata v) (s.withCont (f.atLine 3 :: fs)) := by
  rw [stepProcessor_at (congrArg fetchLine hc) (by rw [hcode, hpos]; rfl), hpos]
  exact runLine_stLine rfl (Expr.eval_var hb) (decode_stUdata v)

/-- There, with room, the byte joins the FIFO. -/
theorem putByte_write_room {s : State} {f : Frame} {fs : List Frame} {b : Byte} (hc : s.cont = f :: fs)
    (hcode : f.code = putByteLines) (hpos : f.pos = 2) (hb : f.words.lookup nB = some (zextByte b))
    (hroom : s.txFifo.length ≠ s.cfg.txDepth) :
    stepProcessor s =
      .next (({ s with txFifo := s.txFifo ++ [b] }.writeDone 0xA000#16 (zextByte b)).withCont (f.atLine 3 :: fs)) := by
  rw [stepProcessor_putByte_write hc hcode hpos hb, exec_stUdata_room (s := s.withCont (_ :: _)) hroom,
    lowByte_zextByte]
  rfl

/-- There, with the FIFO full, the write faults. -/
theorem putByte_write_full {s : State} {f : Frame} {fs : List Frame} {v : Word} (hc : s.cont = f :: fs)
    (hcode : f.code = putByteLines) (hpos : f.pos = 2) (hb : f.words.lookup nB = some v)
    (hfull : s.txFifo.length = s.cfg.txDepth) :
    stepProcessor s =
      .next ((s.withCont (f.atLine 3 :: fs)).raise .txOverflow (.access 0xA000#16 (some v))) := by
  rw [stepProcessor_putByte_write hc hcode hpos hb, exec_stUdata_full (s := s.withCont (_ :: _)) hfull]

/-- With room it reads `USTAT` once and its byte joins the FIFO; the caller's line is next. -/
theorem putByte_room {s : State} {fs : List Frame} {b : Byte} (hf : s.fault = none)
    (hc : s.cont = putByteFrame b :: fs) (hroom : s.txFifo.length ≠ s.cfg.txDepth) :
    ∃ t : State, cpuSteps 3 s = .next t ∧ fetchLine t.cont = fetchLine fs ∧
      t = { s with
        txFifo := s.txFifo ++ [b], rdata := s.ustat, cont := t.cont
        trace := s.trace ++ [.acc s.ctx 0x2004#16 s.ustat, .acc s.ctx 0xA000#16 (b.setWidth 32)] } := by
  have hpoll := cpuSteps_poll_clear hf hc rfl rfl (s.ustat_room_iff.2 hroom)
  have hwrite := putByte_write_room (s := s.polled (putByteFrame b) fs 2) (b := b) rfl rfl rfl rfl hroom
  refine ⟨_, (cpuSteps_add 1 hpoll).trans (cpuSteps_succ 0 hwrite), rfl, ?_⟩
  simp only [State.withCont, State.polled, State.readDone, State.writeDone, List.append_assoc, List.cons_append,
    List.nil_append]
  rfl

/-! `get_byte` (41_uart_driver.md R69). -/

/-- The mask `0xFF` leaves the byte, whatever the drawn bits are. -/
theorem udataWord_and_mask (u : BitVec 24) (b : Byte) : udataWord u b &&& 0xFF#32 = b.setWidth 32 := by
  have hmask : 0xFF#32 = (0#24 ++ BitVec.allOnes 8 : Word) := rfl
  have hbyte : b.setWidth 32 = (0#24 ++ b : Word) := by simp [BitVec.setWidth_eq_append]
  rw [hmask, hbyte, udataWord, BitVec.and_append, BitVec.and_zero, BitVec.and_allOnes]

/-- A line that reads `UDATA` with a byte waiting takes it and binds it under the drawn bits. -/
theorem runLine_ldUdata {s : State} {b : Byte} {rest : List Byte} (hf : s.fault = none) (hrx : s.rxFifo = b :: rest)
    (f : Frame) (fs : List Frame) (n : Name) :
    runLine (ldLine 0x2000#16 n) (s.withCont (f :: fs)) =
      .next (({ s with rxFifo := rest, draws := s.draws + 1 }.readDone 0x2000#16
          (udataWord (Config.drawUpper s.draws) b)).withCont
        ({ f with words := bindName n (udataWord (Config.drawUpper s.draws) b) f.words } :: fs)) := by
  rw [runLine_ldLine rfl (decode_ldUdata 0#32), exec_ldUdata_cons (s := s.withCont (f :: fs)) hrx]
  exact received_name (t := ({ s with rxFifo := rest, draws := s.draws + 1 }.readDone 0x2000#16
    (udataWord (Config.drawUpper s.draws) b)).withCont (f :: fs)) hf rfl n

/-- With a byte waiting it reads `USTAT` and `UDATA` and binds the oldest byte for the caller. -/
theorem getByte_waiting {s : State} {f : Frame} {fs : List Frame} {dst : Name} {b : Byte} {rest : List Byte}
    (hf : s.fault = none) (hc : s.cont = Frame.call getByteLines [] [] (some dst) none :: f :: fs)
    (hrx : s.rxFifo = b :: rest) :
    ∃ (t : State) (v : Word), cpuSteps 5 s = .next t ∧ v.setWidth 8 = b ∧
      t = { s with
        rxFifo := rest, rdata := v, draws := s.draws + 1
        cont := { f with words := bindName dst (b.setWidth 32) f.words } :: fs
        trace := s.trace ++ [.acc s.ctx 0x2004#16 s.ustat, .acc s.ctx 0x2000#16 v] } := by
  have hpoll := cpuSteps_poll_clear hf hc rfl rfl (s.ustat_waiting_iff.2 (by simp [hrx]))
  refine ⟨_, udataWord (Config.drawUpper s.draws) b, (cpuSteps_add 3 hpoll).trans ?_, udataWord_low .., rfl⟩
  refine (cpuSteps_line 2 rfl rfl (runLine_ldUdata (s := s.polled _ (f :: fs) 2) hf hrx ..)).trans ?_
  refine (cpuSteps_line 1 rfl rfl (runLine_assign (v := b.setWidth 32) ?_ nC)).trans ?_
  · exact congrArg Computed.known (udataWord_and_mask (Config.drawUpper s.draws) b)
  refine (cpuSteps_line 0 rfl rfl (runLine_ret_word rfl (Expr.eval_var (lookup_bindName_self ..)))).trans ?_
  simp only [cpuSteps, State.withCont, State.polled, State.readDone, List.append_assoc, List.cons_append,
    List.nil_append]

end Sys2Proof.Machine
end

section
/-! SUPPORT. Bytes exchanged with the UART along a run of the processor, and the loops of 41_uart_driver.md that
exchange them: `put_string` and `read_line`. -/

namespace Sys2Proof.Machine

/-! Exchanges. -/

/-- Some number of steps of the processor alone lead from `s` to `t` without a fault; along them the bytes `got` leave
the receive FIFO and the bytes `sent` join the transmit FIFO. -/
structure Exchange (s : State) (got sent : List Byte) (t : State) : Prop where
  steps : ∃ k, cpuSteps k s = .next t
  fault : t.fault = none
  cfg : t.cfg = s.cfg
  rx : s.rxFifo = got ++ t.rxFifo
  tx : t.txFifo = s.txFifo ++ sent

theorem Exchange.refl {s : State} (hf : s.fault = none) : Exchange s [] [] s :=
  ⟨⟨0, rfl⟩, hf, rfl, rfl, (List.append_nil _).symm⟩

/-- A run that changes nothing but the continuation. -/
theorem Exchange.of_cont {s : State} {c : List Frame} {k : Nat} (hf : s.fault = none)
    (h : cpuSteps k s = .next (s.withCont c)) : Exchange s [] [] (s.withCont c) :=
  ⟨⟨k, h⟩, hf, rfl, rfl, (List.append_nil _).symm⟩

theorem Exchange.trans {s t u : State} {g₁ g₂ o₁ o₂ : List Byte} (h₁ : Exchange s g₁ o₁ t) (h₂ : Exchange t g₂ o₂ u) :
    Exchange s (g₁ ++ g₂) (o₁ ++ o₂) u := by
  obtain ⟨k, hk⟩ := h₁.steps
  obtain ⟨j, hj⟩ := h₂.steps
  exact
    { steps := ⟨k + j, (cpuSteps_add j hk).trans hj⟩
      fault := h₂.fault
      cfg := h₂.cfg.trans h₁.cfg
      rx := by rw [h₁.rx, h₂.rx, List.append_assoc]
      tx := by rw [h₂.tx, h₁.tx, List.append_assoc] }

section Calls

variable {s t : State} {f : Frame} {fs : List Frame}

/-- A line that changes nothing but the continuation comes before an exchange. -/
theorem Exchange.after_line {l : Line} {c : List Frame} {got sent : List Byte}
    (hc : fetchLine s.cont = fetchLine (f :: fs)) (hl : f.code[f.pos]? = some l)
    (hr : runLine l (s.withCont (f.atLine (f.pos + 1) :: fs)) = .next (s.withCont c))
    (h : Exchange (s.withCont c) got sent t) : Exchange s got sent t := by
  obtain ⟨k, hk⟩ := h.steps
  exact ⟨⟨k + 1, (cpuSteps_line k hc hl hr).trans hk⟩, h.fault, h.cfg, h.rx, h.tx⟩

/-- A call of `put_byte` with room sends its byte, and the caller's next line follows. -/
theorem Exchange.call_putByte {e : Expr} {b : Byte} (hf : s.fault = none)
    (hc : fetchLine s.cont = fetchLine (f :: fs)) (hl : f.code[f.pos]? = some (.call (.putByte e)))
    (he : e.eval (s.withCont (f.atLine (f.pos + 1) :: fs)) = .known (zextByte b))
    (hroom : s.txFifo.length ≠ s.cfg.txDepth) :
    ∃ t, Exchange s [] [b] t ∧ fetchLine t.cont = fetchLine (f.atLine (f.pos + 1) :: fs) := by
  have hframe : (Call.putByte e).frame (s.withCont (f.atLine (f.pos + 1) :: fs)) = .known (putByteFrame b) := by
    rw [Call.frame, he, Computed.map, Computed.known, lowByte_zextByte]
    rfl
  obtain ⟨t, hsteps, hnext, ht⟩ :=
    putByte_room (s := s.withCont (putByteFrame b :: f.atLine (f.pos + 1) :: fs)) hf rfl hroom
  exact ⟨t, .after_line hc hl (runLine_call hframe)
    { steps := ⟨3, hsteps⟩
      fault := (congrArg State.fault ht).trans hf
      cfg := (congrArg State.cfg ht :)
      rx := (congrArg State.rxFifo ht).symm
      tx := congrArg State.txFifo ht }, hnext⟩

/-- A call of `get_byte` with a byte waiting binds the oldest one for the caller, whose next line follows. -/
theorem Exchange.call_getByte {dst : Name} {b : Byte} {rest : List Byte} (hf : s.fault = none)
    (hc : fetchLine s.cont = fetchLine (f :: fs)) (hl : f.code[f.pos]? = some (.call (.getByte dst)))
    (hrx : s.rxFifo = b :: rest) :
    ∃ t, Exchange s [b] [] t ∧
      t.cont = { f with pos := f.pos + 1, words := bindName dst (zextByte b) f.words } :: fs := by
  obtain ⟨t, v, hsteps, -, ht⟩ := getByte_waiting
    (s := s.withCont (Frame.call getByteLines [] [] (some dst) none :: f.atLine (f.pos + 1) :: fs)) hf rfl hrx
  exact ⟨t, .after_line hc hl (runLine_call rfl)
    { steps := ⟨5, hsteps⟩
      fault := (congrArg State.fault ht).trans hf
      cfg := (congrArg State.cfg ht :)
      rx := hrx.trans (congrArg (b :: State.rxFifo ·) ht).symm
      tx := (congrArg State.txFifo ht).trans (List.append_nil _).symm }, congrArg State.cont ht⟩

end Calls

/-! `put_string` (41_uart_driver.md R70). -/

/-- The frame of `put_string`, with `txt` still to go. -/
def putStringFrame (txt : List Byte) : Frame := Frame.call putStringLines [] [(nS, txt)] none none

/-- With room for the whole string it sends it, and the caller's next line follows. -/
theorem Exchange.putString {txt : List Byte} {s : State} {fs : List Frame} (hf : s.fault = none)
    (hc : fetchLine s.cont = fetchLine (putStringFrame txt :: fs))
    (hroom : s.txFifo.length + txt.length ≤ s.cfg.txDepth) :
    ∃ t, Exchange s [] txt t ∧ fetchLine t.cont = fetchLine fs := by
  induction txt generalizing s with
  | nil => exact ⟨_, .after_line hc rfl (runLine_ifGoto_true rfl 4) (.refl hf), rfl⟩
  | cons b rest ih =>
    rw [List.length_cons] at hroom
    obtain ⟨t, hsent, hnext⟩ := Exchange.call_putByte (b := b)
      (s := s.withCont ((putStringFrame (b :: rest)).atLine 1 :: fs)) hf rfl rfl rfl
      (show s.txFifo.length ≠ s.cfg.txDepth by omega)
    have hlength : t.txFifo.length + rest.length ≤ t.cfg.txDepth := by
      rw [hsent.tx, hsent.cfg, List.length_append, List.length_singleton]
      exact (Nat.add_right_comm ..).trans_le hroom
    obtain ⟨u, hrest, hdone⟩ := ih (s := t.withCont (putStringFrame rest :: fs)) hsent.fault rfl hlength
    refine ⟨u, .after_line hc rfl (runLine_ifGoto_false rfl 4) (hsent.trans ?_), hdone⟩
    exact .after_line hnext rfl (runLine_assignStr rfl nS) (.after_line rfl rfl (runLine_goto 0) hrest)

/-! `read_line` (41_uart_driver.md R71). -/

/-- The frame of `read_line` at line `pos`: `acc` is in the buffer, which holds `m` bytes and a terminator. -/
def readLineFrame (c : Config) (m : Nat) (n : Option Name) (dst : Name) (pos : Nat) (words : List (Name × Word))
    (acc : List Byte) : Frame :=
  ⟨readLineLines c (m + 1), pos, words, [(nRest, acc)], n, some dst⟩

/-- With capacity 0 its only line raises the fault. -/
theorem readLine_zero {s : State} {g : Frame} {fs : List Frame} (hc : s.cont = g :: fs)
    (hcode : g.code = readLineLines s.cfg 0) (hpos : g.pos = 0) :
    cpuSteps 1 s = .next ((s.withCont (g.atLine 1 :: fs)).raise .driverArg .readLine) := by
  rw [cpuSteps_line 0 (congrArg fetchLine hc) (l := .driverArg) (by rw [hcode, hpos]; rfl) rfl, hpos]
  rfl

/-- The caller's frame with what `read_line` gives back: the line, and its length where the caller takes it. -/
def lineReturned (n : Option Name) (dst : Name) (txt : List Byte) (f : Frame) : Frame :=
  { f with
    words := n.elim f.words fun n => bindName n (BitVec.ofNat 32 txt.length) f.words
    strs := bindName dst txt f.strs }

theorem zextByte_eq_iff {a b : Byte} : zextByte a = zextByte b ↔ a = b :=
  (Function.LeftInverse.injective lowByte_zextByte).eq_iff

/-- The test for a terminator, on the byte received. -/
theorem terminator_eval {s : State} {b : Byte} (h : s.frame.words.lookup nC = some (zextByte b)) :
    (Cond.either (.eq (.var nC) (.lit 0x0A#32)) (.eq (.var nC) (.lit 0x0D#32))).eval s =
      .known (decide (b = 0x0A#8 ∨ b = 0x0D#8)) := by
  have hlf : zextByte b = 0x0A#32 ↔ b = 0x0A#8 := zextByte_eq_iff (b := 0x0A#8)
  have hcr : zextByte b = 0x0D#32 ↔ b = 0x0D#8 := zextByte_eq_iff (b := 0x0D#8)
  simp only [Cond.eval, Expr.eval, h, Computed.orFree, Computed.both, Computed.known, hlf, hcr, Bool.decide_or,
    Bool.or_false]

/-- The test for a full buffer. -/
theorem lenIs_eval {s : State} {e : StrExpr} {txt : List Byte} (h : e.eval s = .known txt) (k : Nat) :
    (Cond.lenIs e k).eval s = .known (decide (txt.length = k)) := by
  rw [Cond.eval, h]
  rfl

/-- A byte put behind a string. -/
theorem snoc_eval {s : State} {e : StrExpr} {txt : List Byte} {x : Name} {b : Byte} (h : e.eval s = .known txt)
    (hx : s.frame.words.lookup x = some (zextByte b)) : (StrExpr.snoc e x).eval s = .known (txt ++ [b]) := by
  rw [StrExpr.eval, h, hx, Computed.orFree, Computed.both, Computed.known, lowByte_zextByte]
  rfl

section ReadLine

variable {c : Config} {m : Nat} {n : Option Name} {dst : Name} {s : State} {f : Frame} {fs : List Frame}
  {words : List (Name × Word)} {acc : List Byte}

/-- Its first line empties the buffer. -/
theorem cpuSteps_readLine_enter (k : Nat)
    (hc : s.cont = Frame.call (readLineLines c (m + 1)) [] [] n (some dst) :: fs) :
    cpuSteps (k + 1) s = cpuSteps k (s.withCont (readLineFrame c m n dst 1 [] [] :: fs)) :=
  cpuSteps_line k (congrArg fetchLine hc) rfl (runLine_assignStr rfl nRest)

/-- Its last line returns the buffer. -/
theorem cpuSteps_readLine_return
    (hc : fetchLine s.cont = fetchLine (readLineFrame c m n dst 8 words acc :: f :: fs)) :
    cpuSteps 1 s = .next (s.withCont (lineReturned n dst acc f :: fs)) :=
  cpuSteps_line 0 hc rfl (runLine_ret_both rfl rfl rfl)

/-- A full buffer is returned at once (90_conflicts.md C5). -/
theorem cpuSteps_readLine_full
    (hc : fetchLine s.cont = fetchLine (readLineFrame c m n dst 1 words acc :: f :: fs)) (hlen : acc.length = m) :
    cpuSteps 2 s = .next (s.withCont (lineReturned n dst acc f :: fs)) := by
  refine (cpuSteps_line 1 hc rfl (runLine_ifGoto_true ?_ 8)).trans (cpuSteps_readLine_return rfl)
  exact (lenIs_eval rfl m).trans (congrArg Computed.known (decide_eq_true hlen))

/-- With room in the buffer the next byte is received. -/
theorem Exchange.readLine_receive {b : Byte} {rest : List Byte} (hf : s.fault = none)
    (hc : fetchLine s.cont = fetchLine (readLineFrame c m n dst 1 words acc :: fs)) (hlen : acc.length ≠ m)
    (hrx : s.rxFifo = b :: rest) :
    ∃ t, Exchange s [b] [] t ∧ t.cont = readLineFrame c m n dst 3 (bindName nC (zextByte b) words) acc :: fs := by
  obtain ⟨t, hgot, ht⟩ := Exchange.call_getByte (s := s.withCont (readLineFrame c m n dst 2 words acc :: fs))
    hf rfl rfl hrx
  refine ⟨t, .after_line hc rfl (runLine_ifGoto_false ?_ 8) hgot, ht⟩
  exact (lenIs_eval rfl m).trans (congrArg Computed.known (decide_eq_false hlen))

/-- A byte that ends no line is received, echoed and put in the buffer. -/
theorem Exchange.readLine_byte {b : Byte} {rest : List Byte} (hf : s.fault = none)
    (hc : fetchLine s.cont = fetchLine (readLineFrame c m n dst 1 words acc :: fs)) (hlen : acc.length ≠ m)
    (hrx : s.rxFifo = b :: rest) (hb : b ≠ 0x0A#8 ∧ b ≠ 0x0D#8) (hroom : s.txFifo.length ≠ s.cfg.txDepth) :
    ∃ t, Exchange s [b] [b] t ∧
      t.cont = readLineFrame c m n dst 1 (bindName nC (zextByte b) words) (acc ++ [b]) :: fs := by
  obtain ⟨t, hgot, ht⟩ := Exchange.readLine_receive hf hc hlen hrx
  have hlookup := lookup_bindName_self nC (zextByte b) words
  have hecho : t.txFifo.length ≠ t.cfg.txDepth := by simpa [hgot.tx, hgot.cfg] using hroom
  obtain ⟨u, hsent, hnext⟩ := Exchange.call_putByte
    (s := t.withCont (readLineFrame c m n dst 4 (bindName nC (zextByte b) words) acc :: fs))
    hgot.fault rfl rfl (Expr.eval_var hlookup) hecho
  have hback : Exchange u [] []
      (u.withCont (readLineFrame c m n dst 1 (bindName nC (zextByte b) words) (acc ++ [b]) :: fs)) :=
    .after_line hnext rfl (runLine_assignStr (snoc_eval rfl hlookup) nRest)
      (.after_line rfl rfl (runLine_goto 1) (.refl hsent.fault))
  refine ⟨_, hgot.trans (.after_line (congrArg fetchLine ht) rfl (runLine_ifGoto_false ?_ 7)
    (hsent.trans hback)), rfl⟩
  refine (terminator_eval (b := b) ?_).trans (congrArg Computed.known (decide_eq_false (not_or.2 hb)))
  exact hlookup

/-- A terminator is received and the newline echoed, and the buffer is returned. -/
theorem Exchange.readLine_terminator {b : Byte} {rest : List Byte} (hf : s.fault = none)
    (hc : fetchLine s.cont = fetchLine (readLineFrame c m n dst 1 words acc :: f :: fs)) (hlen : acc.length ≠ m)
    (hrx : s.rxFifo = b :: rest) (hb : b = 0x0A#8 ∨ b = 0x0D#8)
    (hroom : s.txFifo.length + c.echoNl.length ≤ s.cfg.txDepth) :
    ∃ t, Exchange s [b] c.echoNl t ∧ t.cont = lineReturned n dst acc f :: fs := by
  obtain ⟨t, hgot, ht⟩ := Exchange.readLine_receive hf hc hlen hrx
  have hlookup := lookup_bindName_self nC (zextByte b) words
  have hecho : t.txFifo.length + c.echoNl.length ≤ t.cfg.txDepth := by simpa [hgot.tx, hgot.cfg] using hroom
  obtain ⟨u, hsent, hnext⟩ := Exchange.putString
    (s := t.withCont
      (putStringFrame c.echoNl :: readLineFrame c m n dst 8 (bindName nC (zextByte b) words) acc :: f :: fs))
    hgot.fault rfl hecho
  have hsend : Exchange t [] (c.echoNl ++ []) (u.withCont (lineReturned n dst acc f :: fs)) := by
    refine .after_line (congrArg fetchLine ht) rfl (runLine_ifGoto_true ?_ 7)
      (.after_line rfl rfl (runLine_call rfl) (hsent.trans (.of_cont hsent.fault (cpuSteps_readLine_return hnext))))
    refine (terminator_eval (b := b) ?_).trans (congrArg Computed.known (decide_eq_true hb))
    exact hlookup
  rw [List.append_nil] at hsend
  exact ⟨_, hgot.trans hsend, rfl⟩

/-- Bytes that end no line are received, echoed and put in the buffer, where buffer and FIFO have room for them. -/
theorem Exchange.readLine_bytes {txt rest : List Byte} (hf : s.fault = none)
    (hc : fetchLine s.cont = fetchLine (readLineFrame c m n dst 1 words acc :: fs))
    (hlen : acc.length + txt.length ≤ m) (hrx : s.rxFifo = txt ++ rest) (htxt : ∀ b ∈ txt, b ≠ 0x0A#8 ∧ b ≠ 0x0D#8)
    (hroom : s.txFifo.length + txt.length ≤ s.cfg.txDepth) :
    ∃ t words', Exchange s txt txt t ∧
      fetchLine t.cont = fetchLine (readLineFrame c m n dst 1 words' (acc ++ txt) :: fs) := by
  induction txt generalizing s words acc with
  | nil => exact ⟨s, words, .refl hf, by rw [hc, List.append_nil]⟩
  | cons b txt ih =>
    obtain ⟨hb, htxt⟩ := List.forall_mem_cons.1 htxt
    rw [List.length_cons] at hlen hroom
    obtain ⟨t, hbyte, ht⟩ := Exchange.readLine_byte hf hc (by omega) hrx hb (by omega)
    have hrx' : t.rxFifo = txt ++ rest := by simpa [hrx] using hbyte.rx.symm
    have hlen' : (acc ++ [b]).length + txt.length ≤ m := by
      rw [List.length_append, List.length_singleton]
      omega
    have hroom' : t.txFifo.length + txt.length ≤ t.cfg.txDepth := by
      rw [hbyte.tx, hbyte.cfg, List.length_append, List.length_singleton]
      omega
    obtain ⟨u, words', hbytes, hu⟩ := ih hbyte.fault (congrArg fetchLine ht) hlen' hrx' htxt hroom'
    refine ⟨u, words', hbyte.trans hbytes, ?_⟩
    rw [hu, List.append_assoc, List.singleton_append]

/-- A whole line: its bytes, then a terminator. -/
theorem Exchange.readLine_whole {txt rest : List Byte} {e : Byte} (hf : s.fault = none)
    (hc : fetchLine s.cont = fetchLine (readLineFrame c m n dst 1 words [] :: f :: fs)) (hlen : txt.length < m)
    (hrx : s.rxFifo = txt ++ e :: rest) (htxt : ∀ b ∈ txt, b ≠ 0x0A#8 ∧ b ≠ 0x0D#8) (he : e = 0x0A#8 ∨ e = 0x0D#8)
    (hroom : s.txFifo.length + txt.length + c.echoNl.length ≤ s.cfg.txDepth) :
    ∃ t, Exchange s (txt ++ [e]) (txt ++ c.echoNl) t ∧ t.cont = lineReturned n dst txt f :: fs := by
  obtain ⟨t, words', hbytes, ht⟩ := Exchange.readLine_bytes hf hc (by simpa using hlen.le) hrx htxt (by omega)
  have hrx' : t.rxFifo = e :: rest := List.append_cancel_left (hbytes.rx.symm.trans hrx)
  have hroom' : t.txFifo.length + c.echoNl.length ≤ t.cfg.txDepth := by
    rwa [hbytes.tx, hbytes.cfg, List.length_append]
  obtain ⟨u, hend, hu⟩ := Exchange.readLine_terminator hbytes.fault ht hlen.ne hrx' he hroom'
  exact ⟨u, hbytes.trans hend, hu⟩

/-- A truncated line: the bytes that fill the buffer (90_conflicts.md C5). -/
theorem Exchange.readLine_truncated {txt rest : List Byte} (hf : s.fault = none)
    (hc : fetchLine s.cont = fetchLine (readLineFrame c m n dst 1 words [] :: f :: fs)) (hlen : txt.length = m)
    (hrx : s.rxFifo = txt ++ rest) (htxt : ∀ b ∈ txt, b ≠ 0x0A#8 ∧ b ≠ 0x0D#8)
    (hroom : s.txFifo.length + txt.length ≤ s.cfg.txDepth) :
    ∃ t, Exchange s txt txt t ∧ t.cont = lineReturned n dst txt f :: fs := by
  obtain ⟨t, words', hbytes, ht⟩ := Exchange.readLine_bytes hf hc (by simpa using hlen.le) hrx htxt hroom
  have hend := Exchange.of_cont hbytes.fault (cpuSteps_readLine_full ht hlen)
  exact ⟨_, by simpa using hbytes.trans hend, rfl⟩

end ReadLine

end Sys2Proof.Machine
end

section
/-! CERTIFICATE. The statements of 41_uart_driver.md settled: a byte sent and a byte received, and a line read, at its
limits and in between. -/

namespace Sys2Proof.Machine

/-- Settles O52: the poll, on the flag of the FIFO it read, and the write behind it. -/
theorem putBytePolls : Obligations.PutBytePolls := by
  unfold Obligations.PutBytePolls
  intro s fs b hf
  refine ⟨fun hc => ⟨putByte_room hf hc, fun hfull => ?_⟩, fun f hcode hpos hb hc hfull => ?_⟩
  · have hset : s.ustat &&& 0x1#32 ≠ 0#32 := fun h => s.ustat_room_iff.1 h hfull
    exact ⟨_, cpuSteps_poll_set hf hc rfl rfl hset, rfl, rfl, rfl⟩
  · exact ⟨_, cpuSteps_succ 0 (putByte_write_full hc hcode hpos hb hfull), rfl⟩

/-- Settles O53: the poll, on the flag of the FIFO it read, and the read behind it. -/
theorem getByteMasks : Obligations.GetByteMasks := by
  unfold Obligations.GetByteMasks
  intro s f fs dst hf hc
  refine ⟨fun b rest hrx => getByte_waiting hf hc hrx, fun hempty => ?_⟩
  have hset : s.ustat &&& 0x2#32 ≠ 0#32 := fun h => s.ustat_waiting_iff.1 h hempty
  exact ⟨_, cpuSteps_poll_set hf hc rfl rfl hset, rfl, rfl, rfl⟩

/-- Settles O54: capacity 0 has one line, which faults; at capacity 1 the empty buffer is full at once. -/
theorem readLineLimits : Obligations.ReadLineLimits := by
  unfold Obligations.ReadLineLimits
  intro s f fs dst n maxLen hf hc
  constructor
  · rintro rfl
    exact ⟨_, readLine_zero hc rfl rfl, rfl⟩
  · rintro rfl
    exact ⟨_, (cpuSteps_readLine_enter 2 hc).trans (cpuSteps_readLine_full rfl rfl), rfl⟩

/-- Settles O55: the bytes of the line one by one, then its terminator or the full buffer. -/
theorem readLineReturnsLine : Obligations.ReadLineReturnsLine := by
  unfold Obligations.ReadLineReturnsLine
  intro s f fs dst n maxLen txt rest hf hc htxt
  refine ⟨fun e hlen he hrx hroom => ?_, fun hlen hrx hroom => ?_⟩
  all_goals obtain ⟨m, rfl⟩ : ∃ m, maxLen = m + 1 := ⟨maxLen - 1, by omega⟩
  all_goals have henter := Exchange.of_cont hf (cpuSteps_readLine_enter 0 hc)
  · obtain ⟨t, hline, ht⟩ :=
      Exchange.readLine_whole henter.fault rfl (Nat.lt_of_succ_lt_succ hlen) hrx htxt he hroom
    obtain ⟨⟨k, hk⟩, hfault, -, hgot, hsent⟩ := henter.trans hline
    have hrest : t.rxFifo = rest := by simpa [hrx] using hgot.symm
    exact ⟨k, t, hk, hfault, hrest, by simpa using hsent, ht⟩
  · obtain ⟨t, hline, ht⟩ :=
      Exchange.readLine_truncated henter.fault rfl (Nat.succ.inj hlen) hrx htxt hroom
    obtain ⟨⟨k, hk⟩, hfault, -, hgot, hsent⟩ := henter.trans hline
    have hrest : t.rxFifo = rest := by simpa [hrx] using hgot.symm
    exact ⟨k, t, hk, hfault, hrest, hsent, ht⟩

end Sys2Proof.Machine
end

section
/-! SUPPORT. For the statements of 42_timer.md: the data word of `TCTRL` and the bit that a written 1 clears; when the
tick has a step and what that step is; where the counter stands after some ticks, and the ticks of a period. -/

namespace Sys2Proof.Machine

/-! The accesses. -/

/-- `TCTRL`'s data word, bit by bit (42_timer.md R75). -/
theorem tctrlWord_getLsbD (ar st : Bool) (k : Nat) :
    (tctrlWord ar st).getLsbD k = ((decide (k = 0) && st) || (decide (k = 1) && ar)) := by
  rw [tctrlWord, BitVec.getLsbD_or, zextBit_shiftLeft_getLsbD ar (show 1 < 32 by decide), zextBit_getLsbD, Bool.or_comm]

/-- A bit that a written 1 clears and a written 0 leaves. -/
theorem clearedBy_eq (clear bit : Bool) : (if clear then false else bit) = (bit && !clear) := by
  cases clear with
  | false => exact (Bool.and_true bit).symm
  | true => exact (Bool.and_false bit).symm

/-! The tick. -/

/-- The tick has a step where the gate is on and the counter started (42_timer.md R85). -/
theorem State.tickEnabled_iff {s : State} : s.tickEnabled = true ↔ s.clkEn = true ∧ s.tSt = true := by
  rw [State.tickEnabled, Bool.and_eq_true]

theorem step_tick {s : State} (hf : s.fault = none) (hm : s.mover = .tick) (he : s.enabled .tick = true) :
    step s = .next s.chosen.tick := by
  rw [← State.chosen_enabled, State.enabled] at he
  rw [step_of_no_fault hf, hm, stepAgent, if_pos he]

/-- The count `n` ticks on from the count `c`, where no period completes. -/
def countAfter (d : TimerDir) (c : Word) (n : Nat) : Word :=
  match d with
  | .down => c - BitVec.ofNat 32 n
  | .up => c + BitVec.ofNat 32 n

@[simp] theorem countAfter_zero (d : TimerDir) (c : Word) : countAfter d c 0 = c := by
  cases d <;> simp [countAfter]

theorem countAfter_add (d : TimerDir) (c : Word) (m n : Nat) :
    countAfter d c (m + n) = countAfter d (countAfter d c m) n := by
  cases d with
  | down => simp only [countAfter, BitVec.ofNat_add, BitVec.sub_sub]
  | up => simp only [countAfter, BitVec.ofNat_add, BitVec.add_assoc]

theorem countOn_eq_countAfter (d : TimerDir) (c : Word) : countOn d c = countAfter d c 1 := by
  cases d <;> rfl

theorem State.tick_on {s : State} (h : s.tCount ≠ lastCount s.cfg.timerDir) :
    s.tick = { s with tCount := countAfter s.cfg.timerDir s.tCount 1 } := by
  rw [State.tick, if_neg h, countOn_eq_countAfter]

theorem State.tick_reload {s : State} (h : s.tCount = lastCount s.cfg.timerDir) (har : s.tAr = true) :
    s.tick = { s with tOvf := true, tCount := s.tLoad, trace := s.trace ++ [.evt] } := by
  rw [State.tick, if_pos h, if_pos har, State.emit]

theorem State.tick_stop {s : State} (h : s.tCount = lastCount s.cfg.timerDir) (har : s.tAr = false) :
    s.tick = { s with tOvf := true, tCount := 0#32, tSt := false, trace := s.trace ++ [.evt] } := by
  rw [State.tick, if_pos h, if_neg (by simp [har]), State.emit]

/-- The state after the event of a started counter: it goes on from the reload value, or stands still at 0. -/
def State.overflowed (s : State) : State :=
  { s with tOvf := true, tCount := if s.tAr then s.tLoad else 0#32, tSt := s.tAr, trace := s.trace ++ [.evt] }

theorem State.tick_overflowed {s : State} (hst : s.tSt = true) (h : s.tCount = lastCount s.cfg.timerDir) :
    s.tick = s.overflowed := by
  cases har : s.tAr with
  | true => simp [State.tick_reload h har, State.overflowed, har, hst]
  | false => simp [State.tick_stop h har, State.overflowed, har]

/-! Ticks in a row. -/

/-- The last of some ticks, where it has a step. -/
theorem ticks_succ {n : Nat} {s t : State} (h : ticks n s = t) (ht : t.tickEnabled = true) :
    ticks (n + 1) s = t.tick := by
  rw [ticks_add, h, ticks, ticks, if_pos ht]

theorem ticksToEvent_pos (d : TimerDir) (c : Word) : 0 < ticksToEvent d c := by
  cases d with
  | down =>
    rw [ticksToEvent]
    split
    · decide
    · bv_omega
  | up =>
    rw [ticksToEvent]
    omega

/-- Within a period the counter is at its last count exactly before the last tick (42_timer.md R86). -/
theorem countAfter_eq_lastCount_iff {d : TimerDir} {c : Word} {n : Nat} (h : n < ticksToEvent d c) :
    countAfter d c n = lastCount d ↔ n + 1 = ticksToEvent d c := by
  cases d with
  | down =>
    rw [ticksToEvent] at h ⊢
    rw [countAfter, lastCount]
    split_ifs at h ⊢ <;> bv_omega
  | up =>
    rw [ticksToEvent] at h ⊢
    rw [countAfter, lastCount]
    bv_omega

section Period

variable {s : State} (hen : s.clkEn = true) (hst : s.tSt = true)
include hen hst

/-- Before the end of its period the counter counts, and nothing else changes. -/
theorem ticks_of_lt {n : Nat} (hn : n < ticksToEvent s.cfg.timerDir s.tCount) :
    ticks n s = { s with tCount := countAfter s.cfg.timerDir s.tCount n } := by
  induction n with
  | zero => rw [ticks, countAfter_zero]
  | succ n ih =>
    have hlast : countAfter s.cfg.timerDir s.tCount n ≠ lastCount s.cfg.timerDir := fun h =>
      hn.ne ((countAfter_eq_lastCount_iff (Nat.lt_of_succ_lt hn)).1 h)
    rw [ticks_succ (ih (Nat.lt_of_succ_lt hn)) (State.tickEnabled_iff.2 ⟨hen, hst⟩), State.tick_on hlast,
      countAfter_add]

/-- The last tick of the period is the event. -/
theorem ticks_period : ticks (ticksToEvent s.cfg.timerDir s.tCount) s = s.overflowed := by
  obtain ⟨n, hn⟩ := Nat.exists_eq_add_one.2 (ticksToEvent_pos s.cfg.timerDir s.tCount)
  have hlt : n < ticksToEvent s.cfg.timerDir s.tCount := by omega
  have hlast : countAfter s.cfg.timerDir s.tCount n = lastCount s.cfg.timerDir :=
    (countAfter_eq_lastCount_iff hlt).2 hn.symm
  rw [hn, ticks_succ (ticks_of_lt hen hst hlt) (State.tickEnabled_iff.2 ⟨hen, hst⟩)]
  exact State.tick_overflowed (s := { s with tCount := countAfter s.cfg.timerDir s.tCount n }) hst hlast

end Period

theorem evtCount_snoc_evt (t : List Event) : evtCount (t ++ [.evt]) = evtCount t + 1 := by
  simp [evtCount]

/-- From a freshly loaded counter that reloads itself: a period leads to such a counter again, with one event more, and
less than a period records none. -/
theorem evtCount_ticks {s : State} {p : Nat} (hp : p = ticksToEvent s.cfg.timerDir s.tLoad) (hen : s.clkEn = true)
    (hst : s.tSt = true) (har : s.tAr = true) (hload : s.tCount = s.tLoad) (n : Nat) :
    evtCount (ticks n s).trace = evtCount s.trace + n / p := by
  have hpos : 0 < p := hp ▸ ticksToEvent_pos _ _
  have hcount : ticksToEvent s.cfg.timerDir s.tCount = p := by rw [hload, hp]
  induction n using Nat.strong_induction_on generalizing s with
  | _ n ih =>
    by_cases hn : n < p
    · rw [ticks_of_lt hen hst (hcount ▸ hn), Nat.div_eq_of_lt hn, Nat.add_zero]
    · obtain ⟨m, rfl⟩ := Nat.exists_eq_add_of_le (Nat.not_lt.1 hn)
      have hfresh : s.overflowed.tCount = s.tLoad := if_pos har
      have hrest := ih m (by omega) (s := s.overflowed) hp hen har har hfresh (by rw [hfresh, hp]; rfl)
      have hperiod : ticks p s = s.overflowed := hcount ▸ ticks_period hen hst
      have htrace : s.overflowed.trace = s.trace ++ [.evt] := rfl
      rw [ticks_add, hperiod, hrest, htrace, evtCount_snoc_evt, Nat.add_div_left m hpos]
      omega

end Sys2Proof.Machine
end

section
/-! CERTIFICATE. The statements of 42_timer.md settled: the accesses of the clock gate and of the timer, the tick, and
the law of its period. -/

namespace Sys2Proof.Machine

/-- Settles O26: the counter within its period, and the tick at the period's last count. -/
theorem periodLaw : Obligations.PeriodLaw := by
  unfold Obligations.PeriodLaw
  intro s hen hst
  exact ⟨fun n hn => ticks_of_lt hen hst hn, ticks_period hen hst⟩

/-- Settles O27: by the period, one event at a time. -/
theorem autoReloadEvents : Obligations.AutoReloadEvents := by
  unfold Obligations.AutoReloadEvents
  intro s n hen hst har hload
  exact evtCount_ticks rfl hen hst har hload n

/-- Settles O8: the gate's own accesses, which the gate does not check. -/
theorem clockGateAccess : Obligations.ClockGateAccess := by
  unfold Obligations.ClockGateAccess
  intro s val
  exact ⟨decode_ldClkTimer val, decode_stClkTimer val, ⟨zextBit s.clkEn, zextBit_getLsbD s.clkEn, rfl⟩, rfl⟩

/-- Settles O9: the access behind the gate, the data word read bit by bit. -/
theorem timerControlAccess : Obligations.TimerControlAccess := by
  unfold Obligations.TimerControlAccess
  intro s val
  refine ⟨decode_ldTctrl val, decode_stTctrl val, fun hon => ⟨?_, gated_on hon⟩,
    fun hoff => ⟨gated_off hoff, gated_off hoff⟩⟩
  exact ⟨tctrlWord s.tAr s.tSt, tctrlWord_getLsbD s.tAr s.tSt, gated_on hon⟩

/-- Settles O10: the access behind the gate. -/
theorem counterAccess : Obligations.CounterAccess := by
  unfold Obligations.CounterAccess
  intro s val
  exact ⟨decode_ldTcount val, decode_stTcount val, fun hon => ⟨gated_on hon, gated_on hon⟩,
    fun hoff => ⟨gated_off hoff, gated_off hoff⟩⟩

/-- Settles O11: the access behind the gate. -/
theorem reloadAccess : Obligations.ReloadAccess := by
  unfold Obligations.ReloadAccess
  intro s val
  exact ⟨decode_ldTload val, decode_stTload val, fun hon => ⟨gated_on hon, gated_on hon⟩,
    fun hoff => ⟨gated_off hoff, gated_off hoff⟩⟩

/-- Settles O12: the access behind the gate; a written 1 clears. -/
theorem overflowStatusAccess : Obligations.OverflowStatusAccess := by
  unfold Obligations.OverflowStatusAccess
  intro s val
  refine ⟨decode_ldTisr val, decode_stTisr val, fun hon => ⟨?_, ?_⟩,
    fun hoff => ⟨gated_off hoff, gated_off hoff⟩⟩
  · exact ⟨zextBit s.tOvf, zextBit_getLsbD s.tOvf, gated_on hon⟩
  · rw [← clearedBy_eq]
    exact gated_on hon

/-- Settles O13: the access behind the gate. -/
theorem overflowEnableAccess : Obligations.OverflowEnableAccess := by
  unfold Obligations.OverflowEnableAccess
  intro s val
  refine ⟨decode_ldTier val, decode_stTier val, fun hon => ⟨?_, gated_on hon⟩,
    fun hoff => ⟨gated_off hoff, gated_off hoff⟩⟩
  exact ⟨zextBit s.tIe, zextBit_getLsbD s.tIe, gated_on hon⟩

/-- Settles O25: a turn without a step, and the three steps of a started counter. -/
theorem tickStep : Obligations.TickStep := by
  unfold Obligations.TickStep
  intro s hf hm
  constructor
  · intro hoff
    have hidle : s.enabled .tick = false := by
      simpa only [State.enabled, State.tickEnabled, Bool.and_eq_false_iff] using hoff
    exact ⟨hidle, step_disabled hf hm hidle⟩
  · intro hen hst last hlast
    subst hlast
    obtain ⟨l, n, hchosen⟩ := s.chosen_cases
    rw [step_tick hf hm (State.tickEnabled_iff.2 ⟨hen, hst⟩), hchosen]
    exact ⟨fun h har => congrArg _ (State.tick_reload h har), fun h har => congrArg _ (State.tick_stop h har),
      fun h => congrArg _ (State.tick_on h)⟩

end Sys2Proof.Machine
end

section
/-! SUPPORT. For the statements of 43_intc.md: an acknowledge in each of its cases, and what a step does to an interrupt
in service and to the deliveries recorded. -/

namespace Sys2Proof.Machine

/-! The acknowledge (43_intc.md R92). -/

theorem exec_stIcAck (v : Word) (s : State) : exec (.stIcAck v) s = .next (s.acknowledge.writeDone 0x9008#16 v) := rfl

/-- An acknowledge with nothing in service. -/
theorem State.acknowledge_idle {s : State} (h : s.icActive = false) : s.acknowledge = s := by
  simp [State.acknowledge, h]

/-- An acknowledge that finds the line low. -/
theorem State.acknowledge_low {s : State} (h : s.icActive = true) (hline : s.line = false) :
    s.acknowledge = { s with icActive := false } := by
  simp [State.acknowledge, h, hline]

/-- An acknowledge that finds the line still high. -/
theorem State.acknowledge_high {s : State} (h : s.icActive = true) (hline : s.line = true) :
    s.acknowledge = { s with icActive := false, icRearm := Config.drawRearm s.draws, draws := s.draws + 1 } := by
  simp [State.acknowledge, h, hline]

/-! The service (10_state.md R26, R34). -/

/-- The controller makes no request while an interrupt is in service, so none can be delivered. -/
theorem State.deliverable_of_active {s : State} (h : s.icActive = true) : s.deliverable = false := by
  simp [State.deliverable, State.pending, h]

/-- What a change that is no delivery does to the service and to the trace: neither moves; one event is recorded, not a
delivery, and the service is as it was; or the event is an acknowledge write, whatever becomes of the service. -/
inductive ServiceEffect (s t : State) : Prop
  | kept (hact : t.icActive = s.icActive) (htrace : t.trace = s.trace)
  | recorded (e : Event) (he : e ≠ .deliver) (hact : t.icActive = s.icActive) (htrace : t.trace = s.trace ++ [e])
  | acknowledged (v : Word) (htrace : t.trace = s.trace ++ [.acc s.ctx 0x9008#16 v])

/-- Of the operations only the acknowledge writes the service, and none records a delivery. -/
theorem Change.serviceEffect {i : Instr} {s t : State} (h : Change s i t) : ServiceEffect s t := by
  cases h with
  | fault | accept => exact .kept rfl rfl
  | ack v =>
    obtain ⟨_, _, _, h⟩ := s.acknowledge_fields
    rw [h]
    exact .acknowledged v rfl
  | leave =>
    obtain ⟨-, h⟩ | ⟨-, h⟩ := s.returnFromInterrupt_cases
    · rw [h]
      exact .kept rfl rfl
    · rw [h]
      exact .recorded .iret nofun rfl rfl
  | _ => exact .recorded (.acc ..) nofun rfl rfl

/-- Of the other agents only the delivery writes the service or records one, and it has no step during a service. -/
theorem BlockChange.serviceEffect {a : Agent} {s t : State} (h : BlockChange s a t) (hact : s.icActive = true) :
    ServiceEffect s t := by
  cases h with
  | operation i h => exact h.serviceEffect
  | delivery he =>
    rw [State.deliverable_of_active hact] at he
    cases he
  | tick =>
    obtain ⟨-, h⟩ | ⟨-, -, h⟩ | ⟨-, -, h⟩ := s.tick_cases
    · rw [h]
      exact .kept rfl rfl
    all_goals
      rw [h]
      exact .recorded .evt nofun rfl rfl
  | drain =>
    obtain ⟨-, h⟩ | ⟨b, _, -, h⟩ := s.drain_cases
    · rw [h]
      exact .kept rfl rfl
    · rw [h]
      exact .recorded (.tx b) nofun rfl rfl
  | arrival =>
    obtain ⟨-, h⟩ | ⟨b, _, -, -, h⟩ | ⟨b, _, -, -, h⟩ := s.arrive_cases
    · rw [h]
      exact .kept rfl rfl
    · rw [h]
      exact .recorded (.rx b) nofun rfl rfl
    · rw [h]
      exact .recorded (.rxDrop b) nofun rfl rfl

/-- Bookkeeping touches neither the service nor the trace, so a step has the effect of its change of the block. -/
theorem step_serviceEffect {s t : State} (h : step s = .next t) (hact : s.icActive = true) : ServiceEffect s t := by
  obtain hst | ⟨u, w, ⟨⟩, hc, ⟨⟩⟩ := step_same_or_change h
  · cases hst
    exact .kept rfl rfl
  · obtain ⟨ha, htrace⟩ | ⟨e, he, ha, htrace⟩ | ⟨v, htrace⟩ := hc.serviceEffect hact
    · exact .kept ha htrace
    · exact .recorded e he ha htrace
    · exact .acknowledged v htrace

theorem ServiceEffect.count_deliver {s t : State} (h : ServiceEffect s t) :
    t.trace.count .deliver = s.trace.count .deliver := by
  cases h with
  | kept _ htrace => rw [htrace]
  | recorded e he _ htrace => simp [htrace, he]
  | acknowledged v htrace => simp [htrace]

/-- A service that is over was acknowledged. -/
theorem ServiceEffect.acknowledged_of_ended {s t : State} (h : ServiceEffect s t) (hs : s.icActive = true)
    (ht : t.icActive = false) : ∃ v, t.trace = s.trace ++ [.acc s.ctx 0x9008#16 v] := by
  cases h with
  | kept hact | recorded _ _ hact => simp [hact, hs] at ht
  | acknowledged v htrace => exact ⟨v, htrace⟩

end Sys2Proof.Machine
end

section
/-! CERTIFICATE. The statements of 43_intc.md settled: what holds while an interrupt is in service, and the accesses of
the controller. -/

namespace Sys2Proof.Machine

/-- Settles O51: during a service no request stands, and of all changes only the acknowledge writes the service. -/
theorem serviceBlocksDelivery : Obligations.ServiceBlocksDelivery := by
  unfold Obligations.ServiceBlocksDelivery
  intro s t hact h
  have heffect := step_serviceEffect h hact
  exact ⟨State.deliverable_of_active hact, heffect.count_deliver, heffect.acknowledged_of_ended hact⟩

/-- Settles O14: the mask is a bit that a written 1 clears. -/
theorem unmaskWrite : Obligations.UnmaskWrite := by
  unfold Obligations.UnmaskWrite
  intro s val
  refine ⟨decode_stIcMaskClr val, ?_⟩
  rw [← clearedBy_eq]
  rfl

/-- Settles O15: both accesses go through the priority's field, which is known bit by bit. -/
theorem priorityAccess : Obligations.PriorityAccess := by
  unfold Obligations.PriorityAccess
  intro s val
  refine ⟨decode_ldIcPrio val, decode_stIcPrio val, ?_, ?_⟩
  · exact ⟨prioField s.cfg s.icPrio, prioField_getLsbD s.cfg s.icPrio, rfl⟩
  · exact ⟨prioField s.cfg val, prioField_getLsbD s.cfg val, rfl⟩

/-- Settles O16: the three cases of an acknowledge, with its access at the end of the trace. -/
theorem acknowledgeWrite : Obligations.AcknowledgeWrite := by
  unfold Obligations.AcknowledgeWrite
  intro s val
  rw [exec_stIcAck]
  refine ⟨decode_stIcAck val, fun hidle => ?_, fun hact hlow => ?_, fun hact hhigh => ?_⟩
  · rw [State.acknowledge_idle hidle]
    rfl
  · rw [State.acknowledge_low hact hlow]
    rfl
  · rw [State.acknowledge_high hact hhigh]
    rfl

end Sys2Proof.Machine
end

section
/-! SUPPORT. For the statements of 44_timer_driver.md: the reload value as a number and its period; lines that each run
one operation, against the operations run one after the other; and what the accesses of `init()` and of the handler
do. -/

namespace Sys2Proof.Machine

/-! The reload value (44_timer_driver.md R96). -/

theorem reload_down_toNat (f num den : Nat) : (reload .down f num den).toNat = f * num / den % 2 ^ 32 := by
  rw [reload, periodTicks, BitVec.toNat_ofNat, Nat.mod_mod]

theorem reload_up_toNat (f num den : Nat) :
    (reload .up f num den).toNat = (2 ^ 32 - f * num / den % 2 ^ 32) % 2 ^ 32 := by
  rw [reload, periodTicks, BitVec.toNat_ofNat, Nat.mod_mod]

/-- From the reload value to the next event (42_timer.md R86) it takes the product, where that fits. -/
theorem ticksToEvent_reload (dir : TimerDir) {f num den : Nat} (hpos : 1 ≤ f * num / den)
    (hlt : f * num / den < 2 ^ 32) : ticksToEvent dir (reload dir f num den) = f * num / den := by
  cases dir with
  | down =>
    have hval : (reload .down f num den).toNat = f * num / den := by
      rw [reload_down_toNat, Nat.mod_eq_of_lt hlt]
    have hne : reload .down f num den ≠ 0#32 := by
      intro h
      rw [← hval, h] at hpos
      exact absurd hpos (by decide)
    rw [ticksToEvent, if_neg hne, hval]
  | up =>
    have hval : (reload .up f num den).toNat = 2 ^ 32 - f * num / den := by
      rw [reload_up_toNat, Nat.mod_eq_of_lt hlt, Nat.mod_eq_of_lt (by omega)]
    rw [ticksToEvent, hval, Nat.sub_sub_self hlt.le]

/-! Operations one after the other, and lines that run them. -/

/-- One operation of a sequence that goes on without a fault, then the others. -/
theorem execAll_cons {i : Instr} {is : List Instr} {s t : State} (h : exec i s = .next t) (hf : t.fault = none) :
    execAll (i :: is) s = execAll is t := by
  simp only [execAll, h, hf]

/-- A sequence that ends without a fault had none after its first operation. -/
theorem execAll_cons_cases {i : Instr} {is : List Instr} {s t : State} (h : execAll (i :: is) s = .next t)
    (hf : t.fault = none) : ∃ u, exec i s = .next u ∧ execAll is u = .next t := by
  obtain ⟨u, hu, -⟩ := exec_change i s
  refine ⟨u, hu, ?_⟩
  cases huf : u.fault with
  | none => rwa [execAll_cons hu huf] at h
  | some r =>
    simp only [execAll, hu, huf] at h
    cases h
    rw [hf] at huf
    cases huf

theorem gated_withCont {ad : AdWord} {w : Option Word} {s t u : State} (h : gated ad w u s = .next t)
    (c : List Frame) : gated ad w (u.withCont c) (s.withCont c) = .next (t.withCont c) := by
  obtain ⟨hon, rfl⟩ | ⟨hoff, rfl⟩ := gated_cases h
  · exact gated_on hon
  · exact gated_off hoff

theorem State.acknowledge_withCont (s : State) (c : List Frame) :
    (s.withCont c).acknowledge = s.acknowledge.withCont c := by
  obtain ⟨hact, h⟩ | ⟨hact, hline, h⟩ | ⟨hact, hline, h⟩ := s.acknowledge_cases
  · rw [h, State.acknowledge_idle (s := s.withCont c) hact]
  · rw [h, State.acknowledge_low (s := s.withCont c) hact hline]
    rfl
  · rw [h, State.acknowledge_high (s := s.withCont c) hact hline]
    rfl

/-- No operation but `IRET` reads or writes the continuation. -/
theorem exec_withCont {i : Instr} {s t : State} (hi : i ≠ .iret) (h : exec i s = .next t) (c : List Frame) :
    exec i (s.withCont c) = .next (t.withCont c) := by
  cases i with
  | iret => exact absurd rfl hi
  | ldTctrl | stTctrl | ldTcount | stTcount | ldTload | stTload | ldTisr | stTisr | ldTier | stTier =>
    exact gated_withCont h c
  | stIcAck v =>
    cases h
    rw [exec_stIcAck, State.acknowledge_withCont]
    rfl
  | ldUdata =>
    cases hrx : s.rxFifo with
    | nil =>
      cases (exec_ldUdata_nil hrx).symm.trans h
      exact exec_ldUdata_nil hrx
    | cons b rest =>
      cases (exec_ldUdata_cons hrx).symm.trans h
      exact exec_ldUdata_cons hrx
  | stUdata v =>
    by_cases hfull : s.txFifo.length = s.cfg.txDepth
    · cases (exec_stUdata_full hfull v).symm.trans h
      exact exec_stUdata_full (s := s.withCont c) hfull v
    · cases (exec_stUdata_room hfull v).symm.trans h
      exact exec_stUdata_room (s := s.withCont c) hfull v
  | _ =>
    cases h
    rfl

/-- The line of an operation: its word and its data word, a read's data word going nowhere. -/
def opLine (i : Instr) : Line := stImm (encode i).ad (encode i).wdata

theorem runLine_opLine (i : Instr) (s : State) : runLine (opLine i) s = exec i s := by
  have heval : (Expr.lit (encode i).wdata).eval s = ⟨(encode i).wdata, false⟩ := rfl
  rw [opLine, stImm, stLine, runLine_op heval, State.took_false, runOp_none, runWord_instr (decode_encode i)]

/-- Lines of some operations, none of them `IRET`, under the frame they stand in: the operations run in their order, the
continuation moves on behind the lines. -/
theorem cpuSteps_opLines_withCont {is : List Instr} {s t : State} {f : Frame} {fs : List Frame} {ls : List Line}
    (his : .iret ∉ is) (hcode : f.code.drop f.pos = is.map opLine ++ ls) (hrun : execAll is s = .next t)
    (hf : t.fault = none) :
    cpuSteps is.length (s.withCont (f :: fs)) = .next (t.withCont (f.atLine (f.pos + is.length) :: fs)) := by
  induction is generalizing s f with
  | nil =>
    cases hrun
    rfl
  | cons i is ih =>
    obtain ⟨hi, his⟩ := not_or.1 (mt List.mem_cons.2 his)
    obtain ⟨u, hu, hrest⟩ := execAll_cons_cases hrun hf
    have hl : f.code[f.pos]? = some (opLine i) := by
      rw [← List.head?_drop, hcode]
      rfl
    have hcode' : f.code.drop (f.pos + 1) = is.map opLine ++ ls := by
      rw [← List.tail_drop, hcode]
      rfl
    have hstep : runLine (opLine i) (s.withCont (f.atLine (f.pos + 1) :: fs)) =
        .next (u.withCont (f.atLine (f.pos + 1) :: fs)) := by
      rw [runLine_opLine, exec_withCont (Ne.symm hi) hu]
    calc
      cpuSteps (is.length + 1) (s.withCont (f :: fs)) = cpuSteps is.length (u.withCont (f.atLine (f.pos + 1) :: fs)) :=
        cpuSteps_line is.length rfl hl hstep
      _ = .next (t.withCont (f.atLine (f.pos + 1 + is.length) :: fs)) := ih his hcode' hrest
      _ = .next (t.withCont (f.atLine (f.pos + (is.length + 1)) :: fs)) := by
        rw [Nat.add_assoc, Nat.add_comm 1]

/-- The processor at such lines runs the operations and stands behind the lines. -/
theorem cpuSteps_opLines {is : List Instr} {s t : State} {f : Frame} {fs : List Frame} {ls : List Line}
    (hc : s.cont = f :: fs) (his : .iret ∉ is) (hcode : f.code.drop f.pos = is.map opLine ++ ls)
    (hrun : execAll is s = .next t) (hf : t.fault = none) :
    cpuSteps is.length s = .next (t.withCont (f.atLine (f.pos + is.length) :: fs)) := by
  have hs : s.withCont (f :: fs) = s := by
    rw [← hc]
    rfl
  simpa only [hs] using cpuSteps_opLines_withCont (fs := fs) his hcode hrun hf

/-! `init()` (44_timer_driver.md R98). -/

/-- Its nine accesses. -/
def initAccesses (c : Config) : List Instr :=
  [.stClkTimer 1#32, .stIcMaskClr 1#32, .stIcPrio (BitVec.ofNat 32 c.prioValue), .stTctrl 0#32, .stTisr 0xFFFFFFFF#32,
   .stTload (reloadValue c), .stTcount (reloadValue c), .stTier 1#32, .stTctrl 3#32]

theorem initLines_eq (c : Config) : initLines c = (initAccesses c).map opLine := rfl

/-- The state they leave. -/
def State.initialised (s : State) : State :=
  { s with
    clkEn := true, icMasked := false, icPrio := prioField s.cfg (BitVec.ofNat 32 s.cfg.prioValue), icPrioValid := true
    tSt := true, tAr := true, tOvf := false, tLoad := reloadValue s.cfg, tCount := reloadValue s.cfg, tIe := true
    trace := s.trace ++
      [.acc s.ctx 0xB000#16 1#32, .acc s.ctx 0x9000#16 1#32,
       .acc s.ctx 0x9004#16 (BitVec.ofNat 32 s.cfg.prioValue),
       .acc s.ctx 0x8000#16 0#32, .acc s.ctx 0x800C#16 0xFFFFFFFF#32, .acc s.ctx 0x8008#16 (reloadValue s.cfg),
       .acc s.ctx 0x8004#16 (reloadValue s.cfg), .acc s.ctx 0x8010#16 1#32, .acc s.ctx 0x8000#16 3#32] }

/-- The first access turns the gate on, so that the timer's accesses are admitted. -/
theorem execAll_initAccesses {s : State} (hf : s.fault = none) :
    execAll (initAccesses s.cfg) s = .next s.initialised := by
  rw [initAccesses]
  iterate 3 refine .trans (execAll_cons rfl hf) ?_
  iterate 6 refine .trans (execAll_cons (gated_on rfl) hf) ?_
  simp only [execAll, State.initialised, State.writeDone, List.append_assoc, List.cons_append, List.nil_append]
  rfl

/-! `handle_interrupt()` (44_timer_driver.md R99). -/

/-- An acknowledge that finds the line low ends a service and latches nothing. -/
theorem State.acknowledge_of_line_low {s : State} (hline : s.line = false) :
    s.acknowledge = { s with icActive := false } := by
  cases hact : s.icActive with
  | false => rw [State.acknowledge_idle hact, ← hact]
  | true => exact State.acknowledge_low hact hline

theorem handlerLines_eq (c : Config) :
    handlerLines c = [.stTisr 1#32, .stIcAck 1#32].map opLine ++ [payloadLine c] := rfl

/-- The state that the handler's two accesses leave. -/
def State.handled (s : State) : State :=
  { s with
    tOvf := false, icActive := false
    trace := s.trace ++ [.acc s.ctx 0x800C#16 1#32, .acc s.ctx 0x9008#16 1#32] }

/-- The clear comes first (70_reset_and_hazards.md R137), so the acknowledge finds the line low. -/
theorem execAll_clear_acknowledge {s : State} (hf : s.fault = none) (hon : s.clkEn = true) :
    execAll [.stTisr 1#32, .stIcAck 1#32] s = .next s.handled := by
  have hline : ({ s with tOvf := false }.writeDone 0x800C#16 1#32).line = false := rfl
  have hack : exec (.stIcAck 1#32) ({ s with tOvf := false }.writeDone 0x800C#16 1#32) = .next s.handled := by
    rw [exec_stIcAck, State.acknowledge_of_line_low hline]
    simp only [State.writeDone, State.handled, List.append_assoc, List.cons_append, List.nil_append]
  exact .trans (execAll_cons (gated_on hon) hf) (execAll_cons hack hf)

theorem State.handled_ackCount (s : State) : ackCount s.handled.trace = ackCount s.trace + 1 :=
  List.countP_append

end Sys2Proof.Machine
end

section
/-! CERTIFICATE. The statements of 44_timer_driver.md settled: the reload value, `init()` and the handler. -/

namespace Sys2Proof.Machine

/-- Settles O46: the nine accesses run behind one another, the gate on from the first. -/
theorem initSequence : Obligations.InitSequence := by
  unfold Obligations.InitSequence
  intro s fs r p hf hc hr hp
  subst hr hp
  have hcode : initLines s.cfg = (initAccesses s.cfg).map opLine ++ [] := by
    rw [initLines_eq, List.append_nil]
  have hsteps := cpuSteps_opLines hc (by simp [initAccesses]) hcode (execAll_initAccesses hf) hf
  exact ⟨_, hsteps, fetchLine_none rfl, rfl⟩

/-- Settles O47: the clear lowers the line before the acknowledge, and the payload's line is the third. -/
theorem handlerSequence : Obligations.HandlerSequence := by
  unfold Obligations.HandlerSequence
  intro s fs hf hon hc
  have hsteps := cpuSteps_opLines hc (by simp) (handlerLines_eq s.cfg) (execAll_clear_acknowledge hf hon) hf
  exact ⟨_, hsteps, s.handled_ackCount, rfl, (Frame.start (handlerLines s.cfg)).atLine 3 :: fs, fetchLine_none rfl,
    fetchLine_some rfl⟩

/-- Settles O45: the value modulo the counter's range, and its period where the product lies in that range. The
name `reloadValue` is the model's own. -/
theorem reloadValueLaw : Obligations.ReloadValue := by
  unfold Obligations.ReloadValue
  intro f num den
  exact ⟨reload_down_toNat f num den, reload_up_toNat f num den, fun dir => ticksToEvent_reload dir⟩

end Sys2Proof.Machine
end

section
/-! SUPPORT. For the statements of 45_core_ops.md: what each of the three operations of the glue does. -/

namespace Sys2Proof.Machine

theorem exec_ie (s : State) : exec .ie s = .next { s with cpuIe := true } := rfl

theorem exec_id (s : State) : exec .id s = .next { s with cpuIe := false } := rfl

theorem exec_iret (s : State) : exec .iret s = .next s.returnFromInterrupt := rfl

/-- `IRET` in normal context has nothing to return from. -/
theorem exec_iret_normal {s : State} (hctx : s.ctx = .normal) :
    exec .iret s = .next (s.raise .iretOutside (.core 0xF008#16)) := by
  obtain ⟨-, hret⟩ | ⟨hhandler, -⟩ := s.returnFromInterrupt_cases
  · rw [exec_iret, hret]
  · cases hctx.symm.trans hhandler

/-- `IRET` in the handler continues at the continuation that the delivery saved. -/
theorem exec_iret_handler {s : State} {k : List Frame} (hctx : s.ctx = .handler) (hsaved : s.saved = some k) :
    exec .iret s = .next { s with ctx := .normal, cont := k, saved := none, trace := s.trace ++ [.iret] } := by
  obtain ⟨hnormal, -⟩ | ⟨-, hret⟩ := s.returnFromInterrupt_cases
  · cases hctx.symm.trans hnormal
  · rw [exec_iret, hret, hsaved, Option.getD_some]

end Sys2Proof.Machine
end

section
/-! CERTIFICATE. The statements of 45_core_ops.md settled: the acceptance flag, and the return from the handler. -/

namespace Sys2Proof.Machine

/-- Settles O22: neither operation looks at the context, and each writes the one flag. -/
theorem acceptanceFlag : Obligations.AcceptanceFlag := by
  unfold Obligations.AcceptanceFlag
  intro s w
  exact ⟨decode_ie w, decode_id w, exec_ie s, exec_id s⟩

/-- Settles O23: the context decides between the return and the fault. -/
theorem handlerReturn : Obligations.HandlerReturn := by
  unfold Obligations.HandlerReturn
  intro s
  exact ⟨decode_iret, fun _ hctx hsaved => exec_iret_handler hctx hsaved, fun hctx => exec_iret_normal hctx⟩

end Sys2Proof.Machine
end

section
/-! SUPPORT. For the statements of 46_sync_wrapper.md: the slots of the ring in RAM, bytes stored there, and the lines
of `ring_push`, `ring_drain` and the critical section. -/

namespace Sys2Proof.Machine

/-! The names of a frame, and the lines of these operations. -/

theorem lookup_bindName_other {α : Type} {m n : Name} (h : m ≠ n) (v : α) (l : List (Name × α)) :
    (bindName n v l).lookup m = l.lookup m := by
  suffices hrest : (l.filter fun p => decide (p.1 ≠ n)).lookup m = l.lookup m by
    rw [bindName, List.lookup_cons, beq_false_of_ne h]
    exact hrest
  induction l with
  | nil => rfl
  | cons p l ih =>
    obtain ⟨k, w⟩ := p
    by_cases hk : k = n
    · subst hk
      rw [List.filter_cons_of_neg (by simp), ih, List.lookup_cons, beq_false_of_ne h]
    · rw [List.filter_cons_of_pos (by simpa using hk), List.lookup_cons, List.lookup_cons, ih]

/-- A test that holds. -/
theorem runLine_ifGoto_of {s : State} {f : Frame} {fs : List Frame} {c : Cond} {p : Prop} [Decidable p]
    (h : c.eval (s.withCont (f :: fs)) = .known (decide p)) (hp : p) (n : Nat) :
    runLine (.ifGoto c n) (s.withCont (f :: fs)) = .next (s.withCont (f.atLine n :: fs)) :=
  runLine_ifGoto_true (h.trans (congrArg Computed.known (decide_eq_true hp))) n

/-- A test that fails. -/
theorem runLine_ifGoto_of_not {s : State} {c : Cond} {p : Prop} [Decidable p] (h : c.eval s = .known (decide p))
    (hp : ¬ p) (n : Nat) : runLine (.ifGoto c n) s = .next s :=
  runLine_ifGoto_false (h.trans (congrArg Computed.known (decide_eq_false hp))) n

theorem Cond.eval_eq {s : State} {a b : Expr} {v w : Word} (ha : a.eval s = .known v) (hb : b.eval s = .known w) :
    (Cond.eq a b).eval s = .known (decide (v = w)) := by
  rw [Cond.eval, ha, hb]
  rfl

theorem runLine_setCount {s : State} {e : Expr} {v : Word} (h : e.eval s = .known v) (c : Count) :
    runLine (.setCount c e) s = .next (s.putCount c v) := by
  rw [runLine, h, withValue_known]

/-- A return of nothing. -/
theorem runLine_ret_nothing {s : State} {f : Frame} {fs : List Frame} :
    runLine (.ret none none) (s.withCont (f :: fs)) = .next (s.withCont fs) := rfl

/-! The slots of the ring (10_state.md R30). -/

/-- What a legal configuration says of the ring: its size divides the range of the counts, and it lies in RAM, outside
the windows. -/
theorem Config.ring_of_wf {c : Config} (h : c.wf = true) :
    (0 < c.rbCap ∧ c.rbCap < 2 ^ 32 ∧ c.rbCap ∣ 2 ^ 32) ∧ c.rbBase.toNat + c.rbCap ≤ 2 ^ 32 ∧
      ∀ w, c.rbBase.toNat + c.rbCap ≤ (c.base w).toNat ∨ (c.base w).toNat + 0x1000 ≤ c.rbBase.toNat := by
  simp only [Config.wf, Config.ringOutside, Bool.and_eq_true, Bool.or_eq_true, decide_eq_true_eq] at h
  obtain ⟨⟨⟨⟨⟨⟨⟨⟨-, hcap⟩, -⟩, -⟩, hend⟩, htimer⟩, hintc⟩, huart⟩, hclk⟩ := h
  simp only [Config.ringCapOk, List.any_eq_true, List.mem_range, beq_iff_eq] at hcap
  obtain ⟨k, hk, hcap⟩ := hcap
  refine ⟨?_, hend, fun w => ?_⟩
  · rw [hcap]
    exact ⟨Nat.two_pow_pos k, Nat.pow_lt_pow_right (by decide) hk, Nat.pow_dvd_pow 2 hk.le⟩
  · cases w with
    | timer => exact htimer
    | intc => exact hintc
    | uart => exact huart
    | clk => exact hclk

section Ring

variable {c : Config} (hwf : c.wf = true)
include hwf

theorem ringAddr_toNat (i : Word) : (ringAddr c i).toNat = c.rbBase.toNat + i.toNat % c.rbCap := by
  obtain ⟨⟨hpos, hlt, -⟩, hend, -⟩ := Config.ring_of_wf hwf
  have hslot : i.toNat % c.rbCap < c.rbCap := Nat.mod_lt _ hpos
  rw [ringAddr, BitVec.toNat_add, BitVec.toNat_ofNat, Nat.mod_eq_of_lt (hslot.trans hlt), Nat.mod_eq_of_lt (by omega)]

/-- A slot is a byte of RAM (20_memory.md R39). -/
theorem windowAt_ringAddr (i : Word) : windowAt c (ringAddr c i) = none := by
  obtain ⟨⟨hpos, -⟩, -, hout⟩ := Config.ring_of_wf hwf
  cases hw : windowAt c (ringAddr c i) with
  | none => rfl
  | some w =>
    obtain ⟨hlow, hhigh⟩ := inWindow_iff.1 (inWindow_of_windowAt hw)
    rw [ringAddr_toNat hwf] at hlow hhigh
    have hslot : i.toNat % c.rbCap < c.rbCap := Nat.mod_lt _ hpos
    have hwindow := hout w
    omega

/-- Counts less than the ring's size apart have slots of their own. -/
theorem ringAddr_add_ne (i : Word) {k : Nat} (hpos : 0 < k) (hk : k < c.rbCap) :
    ringAddr c (i + BitVec.ofNat 32 k) ≠ ringAddr c i := by
  obtain ⟨⟨-, hlt, hdvd⟩, -⟩ := Config.ring_of_wf hwf
  intro h
  have hslot : (i.toNat + k) % c.rbCap = i.toNat % c.rbCap := by
    have haddr := congrArg BitVec.toNat h
    rwa [ringAddr_toNat hwf, ringAddr_toNat hwf, Nat.add_left_cancel_iff, BitVec.toNat_add, BitVec.toNat_ofNat,
      Nat.mod_eq_of_lt (hk.trans hlt), Nat.mod_mod_of_dvd _ hdvd] at haddr
  have hzero : k % c.rbCap = 0 := Nat.ModEq.add_left_cancel' (a := k) (b := 0) i.toNat hslot
  rw [Nat.mod_eq_of_lt hk] at hzero
  omega

theorem slotExpr_eval {s : State} {e : Expr} {i : Word} (he : e.eval s = .known i) :
    (slotExpr c e).eval s = .known (ringAddr c i) := by
  obtain ⟨⟨hpos, hlt, -⟩, -⟩ := Config.ring_of_wf hwf
  have hcap : (BitVec.ofNat 32 c.rbCap).toNat = c.rbCap := by
    rw [BitVec.toNat_ofNat, Nat.mod_eq_of_lt hlt]
  have hne : BitVec.ofNat 32 c.rbCap ≠ 0#32 := fun h => by
    rw [h] at hcap
    exact hpos.ne hcap
  have hmod : modulo i (BitVec.ofNat 32 c.rbCap) = BitVec.ofNat 32 (i.toNat % c.rbCap) := by
    rw [modulo, if_neg hne, ← hcap, ← BitVec.toNat_umod, hcap, BitVec.ofNat_toNat, BitVec.setWidth_eq]
  simp only [slotExpr, Expr.eval, he, Computed.both, Computed.known, hmod]
  rfl

end Ring

/-! Bytes stored in the ring. -/

/-- The bytes `bs` in the slots from count `i` on. -/
def State.ringStore (s : State) (i : Word) : List Byte → State
  | [] => s
  | b :: bs => (s.writeByte (ringAddr s.cfg i) b).ringStore (i + 1#32) bs

/-- They change nothing but RAM. -/
theorem State.ringStore_eq (s : State) (i : Word) (bs : List Byte) :
    s.ringStore i bs = { s with mem := (s.ringStore i bs).mem } := by
  induction bs generalizing s i with
  | nil => rfl
  | cons b bs ih => exact ih ..

theorem State.ringStore_cfg (s : State) (i : Word) (bs : List Byte) : (s.ringStore i bs).cfg = s.cfg := by
  rw [State.ringStore_eq]

theorem State.ringStore_rbHead (s : State) (i : Word) (bs : List Byte) : (s.ringStore i bs).rbHead = s.rbHead := by
  rw [State.ringStore_eq]

theorem add_one_add_ofNat (i : Word) (j : Nat) : i + 1#32 + BitVec.ofNat 32 j = i + BitVec.ofNat 32 (j + 1) := by
  rw [BitVec.add_assoc, Nat.add_comm, BitVec.ofNat_add]

theorem State.readByte_ringStore_other {s : State} {i a : Word} {bs : List Byte}
    (h : ∀ j, j < bs.length → a ≠ ringAddr s.cfg (i + BitVec.ofNat 32 j)) :
    (s.ringStore i bs).readByte a = s.readByte a := by
  induction bs generalizing s i with
  | nil => rfl
  | cons b bs ih =>
    have hhead : a ≠ ringAddr s.cfg i := by simpa using h 0 (Nat.succ_pos _)
    refine (ih (s := s.writeByte _ b) fun j hj => ?_).trans (s.readByte_writeByte_other b hhead)
    rw [add_one_add_ofNat]
    exact h (j + 1) (Nat.succ_lt_succ hj)

/-- At most a ring's size of bytes: each is in its slot, as those behind it are stored elsewhere. -/
theorem State.readByte_ringStore {s : State} {i : Word} {bs : List Byte} {j : Nat} {b : Byte}
    (hwf : s.cfg.wf = true) (hmem : Memory.wf s.mem = true) (hlen : bs.length ≤ s.cfg.rbCap) (hj : bs[j]? = some b) :
    (s.ringStore i bs).readByte (ringAddr s.cfg (i + BitVec.ofNat 32 j)) = b := by
  induction bs generalizing s i j with
  | nil => cases hj
  | cons e bs ih =>
    rw [List.length_cons] at hlen
    cases j with
    | zero =>
      obtain rfl : e = b := Option.some.inj hj
      rw [BitVec.add_zero]
      refine .trans (State.readByte_ringStore_other (s := s.writeByte _ e) fun k hk => ?_)
        (State.readByte_writeByte_same hmem _ e)
      rw [add_one_add_ofNat]
      exact (ringAddr_add_ne hwf i (Nat.succ_pos k) (by omega)).symm
    | succ j =>
      rw [← add_one_add_ofNat]
      exact ih (s := s.writeByte _ e) hwf (Memory.wf_write _ _ hmem) (Nat.le_of_succ_le hlen) hj

theorem State.rbByte_ringStore {s : State} {i : Word} {bs : List Byte} {j : Nat} {b : Byte}
    (hwf : s.cfg.wf = true) (hmem : Memory.wf s.mem = true) (hlen : bs.length ≤ s.cfg.rbCap) (hj : bs[j]? = some b) :
    (s.ringStore i bs).rbByte (i + BitVec.ofNat 32 j) = b := by
  rw [State.rbByte, State.ringStore_cfg]
  exact State.readByte_ringStore hwf hmem hlen hj

/-! `ring_push` (46_sync_wrapper.md R107). -/

/-- The frame of `ring_push(txt)` before its loop, at line `pos`. -/
def ringPushTest (c : Config) (txt : List Byte) (occ : Word) (pos : Nat) : Frame :=
  ⟨ringPushLines c, pos, [(nOcc, occ)], [(nS, txt)], none, none⟩

/-- The frame of `ring_push(txt)` in its loop, at line `pos`: `rest` is still to be stored, at index `i`. -/
def ringPushFrame (c : Config) (txt : List Byte) (occ : Word) (pos : Nat) (i : Word) (rest : List Byte) : Frame :=
  ⟨ringPushLines c, pos, [(nI, i), (nOcc, occ)], [(nRest, rest), (nS, txt)], none, none⟩

section Push

variable {s : State} {fs : List Frame} {txt : List Byte}

/-- The test for room, on the occupancy it computed. -/
theorem room_eval {occ : Word} (hs : s.frame.strs.lookup nS = some txt) (ho : s.frame.words.lookup nOcc = some occ) :
    (Cond.negate (.noRoom (.var nS) (.var nOcc))).eval s =
      .known (decide (txt.length + occ.toNat ≤ s.cfg.rbCap)) := by
  rw [Cond.eval, Cond.eval, StrExpr.eval_var hs, Expr.eval_var ho, decide_eq_decide.2 Nat.not_lt.symm, decide_not]
  rfl

/-- Its first line computes the occupancy. -/
theorem cpuSteps_ringPush_enter (n : Nat)
    (hc : s.cont = Frame.call (ringPushLines s.cfg) [] [(nS, txt)] none none :: fs) :
    cpuSteps (n + 1) s = cpuSteps n (s.withCont (ringPushTest s.cfg txt s.rbOcc 1 :: fs)) :=
  cpuSteps_line n (congrArg fetchLine hc) rfl (runLine_assign rfl nOcc)

/-- With room the loop begins, with the whole line to store. -/
theorem cpuSteps_ringPush_room (n : Nat)
    (hc : s.cont = Frame.call (ringPushLines s.cfg) [] [(nS, txt)] none none :: fs)
    (hroom : txt.length + s.rbOcc.toNat ≤ s.cfg.rbCap) :
    cpuSteps (n + 4) s = cpuSteps n (s.withCont (ringPushFrame s.cfg txt s.rbOcc 6 0#32 txt :: fs)) := by
  have htest := runLine_ifGoto_of (s := s) (f := ringPushTest s.cfg txt s.rbOcc 2) (fs := fs)
    (room_eval rfl rfl) hroom 4
  calc
    cpuSteps (n + 4) s = cpuSteps (n + 3) (s.withCont (ringPushTest s.cfg txt s.rbOcc 1 :: fs)) :=
      cpuSteps_ringPush_enter (n + 3) hc
    _ = cpuSteps (n + 2) (s.withCont (ringPushTest s.cfg txt s.rbOcc 4 :: fs)) := cpuSteps_line (n + 2) rfl rfl htest
    _ = cpuSteps (n + 1) _ := cpuSteps_line (n + 1) rfl rfl (runLine_assign rfl nI)
    _ = cpuSteps n _ := cpuSteps_line n rfl rfl (runLine_assignStr rfl nRest)

/-- Without room one more drop is counted, and the operation returns. -/
theorem cpuSteps_ringPush_drop (hc : s.cont = Frame.call (ringPushLines s.cfg) [] [(nS, txt)] none none :: fs)
    (hfull : s.cfg.rbCap < txt.length + s.rbOcc.toNat) :
    cpuSteps 4 s = .next ((s.putCount .drops (s.rbDrops + 1#32)).withCont fs) := by
  have htest := runLine_ifGoto_of_not (s := s.withCont (ringPushTest s.cfg txt s.rbOcc 2 :: fs))
    (room_eval rfl rfl) (Nat.not_le.2 hfull) 4
  calc
    cpuSteps 4 s = cpuSteps 3 (s.withCont (ringPushTest s.cfg txt s.rbOcc 1 :: fs)) := cpuSteps_ringPush_enter 3 hc
    _ = cpuSteps 2 (s.withCont (ringPushTest s.cfg txt s.rbOcc 2 :: fs)) := cpuSteps_line 2 rfl rfl htest
    _ = cpuSteps 1 ((s.putCount .drops (s.rbDrops + 1#32)).withCont (ringPushTest s.cfg txt s.rbOcc 3 :: fs)) :=
      cpuSteps_line 1 rfl rfl (runLine_setCount rfl .drops)
    _ = .next ((s.putCount .drops (s.rbDrops + 1#32)).withCont fs) := cpuSteps_line 0 rfl rfl runLine_ret_nothing

/-- A turn of its loop stores one byte. -/
theorem cpuSteps_ringPush_byte (n : Nat) (hwf : s.cfg.wf = true) (occ i : Word) (b : Byte) (rest : List Byte) :
    cpuSteps (n + 5) (s.withCont (ringPushFrame s.cfg txt occ 6 i (b :: rest) :: fs)) =
      cpuSteps n ((s.writeByte (ringAddr s.cfg (s.rbHead + i)) b).withCont
        (ringPushFrame s.cfg txt occ 6 (i + 1#32) rest :: fs)) := by
  have hslot : (slotExpr s.cfg (.add (.count .head) (.var nI))).eval
      (s.withCont (ringPushFrame s.cfg txt occ 8 i (b :: rest) :: fs)) = .known (ringAddr s.cfg (s.rbHead + i)) :=
    slotExpr_eval hwf rfl
  have hwrite := runLine_writeAt_ram hslot (Expr.eval_first (t := .var nRest) rfl) (windowAt_ringAddr hwf _)
  rw [lowByte_zextByte] at hwrite
  calc
    cpuSteps (n + 5) _ = cpuSteps (n + 4) (s.withCont (ringPushFrame s.cfg txt occ 7 i (b :: rest) :: fs)) :=
      cpuSteps_line (n + 4) rfl rfl (runLine_ifGoto_false rfl 11)
    _ = cpuSteps (n + 3) ((s.writeByte (ringAddr s.cfg (s.rbHead + i)) b).withCont
        (ringPushFrame s.cfg txt occ 8 i (b :: rest) :: fs)) := cpuSteps_line (n + 3) rfl rfl hwrite
    _ = cpuSteps (n + 2) _ := cpuSteps_line (n + 2) rfl rfl (runLine_assignStr rfl nRest)
    _ = cpuSteps (n + 1) _ := cpuSteps_line (n + 1) rfl rfl (runLine_assign rfl nI)
    _ = cpuSteps n _ := cpuSteps_line n rfl rfl (runLine_goto 6)

/-- The loop stores all bytes, and stops behind itself. -/
theorem cpuSteps_ringPush_loop (hwf : s.cfg.wf = true) (occ i : Word) (rest : List Byte) :
    ∃ k j, cpuSteps k (s.withCont (ringPushFrame s.cfg txt occ 6 i rest :: fs)) =
      .next ((s.ringStore (s.rbHead + i) rest).withCont (ringPushFrame s.cfg txt occ 11 j [] :: fs)) := by
  induction rest generalizing s i with
  | nil => exact ⟨1, i, cpuSteps_line 0 rfl rfl (runLine_ifGoto_true rfl 11)⟩
  | cons b rest ih =>
    obtain ⟨k, j, hrest⟩ := ih (s := s.writeByte (ringAddr s.cfg (s.rbHead + i)) b) hwf (i + 1#32)
    rw [← BitVec.add_assoc] at hrest
    exact ⟨k + 5, j, (cpuSteps_ringPush_byte k hwf occ i b rest).trans hrest⟩

/-- With room the line is stored behind the head, and the head moves past it. -/
theorem ringPush_room (hwf : s.cfg.wf = true)
    (hc : s.cont = Frame.call (ringPushLines s.cfg) [] [(nS, txt)] none none :: fs)
    (hroom : txt.length + s.rbOcc.toNat ≤ s.cfg.rbCap) :
    ∃ (k : Nat) (c : List Frame), fetchLine c = fetchLine fs ∧
      cpuSteps k s = .next
        (((s.ringStore s.rbHead txt).putCount .head (s.rbHead + BitVec.ofNat 32 txt.length)).withCont c) := by
  obtain ⟨k, j, hloop⟩ := cpuSteps_ringPush_loop (txt := txt) (fs := fs) hwf s.rbOcc 0#32 txt
  have hrun := (cpuSteps_ringPush_room k hc hroom).trans hloop
  rw [BitVec.add_zero] at hrun
  refine ⟨k + 4 + 1, (ringPushFrame s.cfg txt s.rbOcc 12 j [] :: fs), fetchLine_none rfl,
    (cpuSteps_add 1 hrun).trans (cpuSteps_line 0 rfl rfl ?_)⟩
  refine (runLine_setCount (v := s.rbHead + BitVec.ofNat 32 txt.length) ?_ .head).trans rfl
  exact congrArg (fun h => Computed.known (h + BitVec.ofNat 32 txt.length)) (s.ringStore_rbHead ..)

end Push

/-! `ring_drain` (46_sync_wrapper.md R108). -/

/-- Some number of steps of the processor alone lead from `s` to `t`; along them the bytes `sent` leave the ring for the
transmit FIFO. Beside these two only the last data word read, the trace and the continuation may differ. -/
structure Drain (s : State) (sent : List Byte) (t : State) : Prop where
  steps : ∃ k, cpuSteps k s = .next t
  block : t = { s with
    txFifo := s.txFifo ++ sent, rbTail := s.rbTail + BitVec.ofNat 32 sent.length
    rdata := t.rdata, trace := t.trace, cont := t.cont }

/-- A run that changes nothing but the continuation. -/
theorem Drain.of_cont {s : State} {c : List Frame} {k : Nat} (h : cpuSteps k s = .next (s.withCont c)) :
    Drain s [] (s.withCont c) :=
  ⟨⟨k, h⟩, by rw [List.append_nil, List.length_nil, BitVec.add_zero]; rfl⟩

theorem Drain.trans {s t u : State} {o₁ o₂ : List Byte} (h₁ : Drain s o₁ t) (h₂ : Drain t o₂ u) :
    Drain s (o₁ ++ o₂) u := by
  obtain ⟨⟨k, hk⟩, ht⟩ := h₁
  obtain ⟨⟨j, hj⟩, hu⟩ := h₂
  refine ⟨⟨k + j, (cpuSteps_add j hk).trans hj⟩, ?_⟩
  rw [List.length_append, BitVec.ofNat_add, ← BitVec.add_assoc, ← List.append_assoc]
  rw [ht] at hu
  exact hu

section Fields

variable {s t : State} {sent : List Byte} (h : Drain s sent t)
include h

theorem Drain.tx : t.txFifo = s.txFifo ++ sent :=
  (congrArg State.txFifo h.block :)

theorem Drain.tail : t.rbTail = s.rbTail + BitVec.ofNat 32 sent.length :=
  (congrArg State.rbTail h.block :)

theorem Drain.head : t.rbHead = s.rbHead := (congrArg State.rbHead h.block :)

theorem Drain.drops : t.rbDrops = s.rbDrops := (congrArg State.rbDrops h.block :)

theorem Drain.mem : t.mem = s.mem := (congrArg State.mem h.block :)

theorem Drain.cfg : t.cfg = s.cfg := (congrArg State.cfg h.block :)

theorem Drain.fault : t.fault = s.fault := (congrArg State.fault h.block :)

theorem Drain.rbByte (i : Word) : t.rbByte i = s.rbByte i := by
  rw [State.rbByte, State.readByte, h.mem, h.cfg]
  rfl

end Fields

/-- After as many bytes as the ring holds the tail is at the head. -/
theorem Drain.tail_eq_head {s t : State} {sent : List Byte} (h : Drain s sent t)
    (hlen : sent.length = s.rbOcc.toNat) : t.rbTail = s.rbHead := by
  rw [h.tail, hlen, BitVec.ofNat_toNat, BitVec.setWidth_eq]
  exact add_sub_cancel s.rbTail s.rbHead

/-- The frame of `ring_drain` at line `pos`. -/
def ringDrainFrame (c : Config) (pos : Nat) (words : List (Name × Word)) : Frame :=
  ⟨ringDrainLines c, pos, words, [], none, none⟩

section Lines

variable {s : State} {f : Frame} {fs : List Frame}

/-- The byte at the tail, read into a name. -/
theorem runLine_readTail (hf : s.fault = none) (hwf : s.cfg.wf = true) (n : Name) :
    runLine (.readAt .w8 (slotExpr s.cfg (.count .tail)) (some n)) (s.withCont (f :: fs)) =
      .next ({ s with rdata := zextByte (s.rbByte s.rbTail) }.withCont
        ({ f with words := bindName n (zextByte (s.rbByte s.rbTail)) f.words } :: fs)) := by
  have hslot : (slotExpr s.cfg (.count .tail)).eval (s.withCont (f :: fs)) = .known (ringAddr s.cfg s.rbTail) :=
    slotExpr_eval hwf rfl
  rw [runLine_readAt_ram hslot (windowAt_ringAddr hwf _)]
  exact received_name (t := { s with rdata := zextByte (s.rbByte s.rbTail) }.withCont (f :: fs)) hf rfl n

/-- A call of `put_byte` with room: what `Exchange.call_putByte` says, and that nothing else of the block changes. -/
theorem cpuSteps_call_putByte {e : Expr} {b : Byte} (hf : s.fault = none)
    (hl : f.code[f.pos]? = some (.call (.putByte e)))
    (he : e.eval (s.withCont (f.atLine (f.pos + 1) :: fs)) = .known (zextByte b))
    (hroom : s.txFifo.length ≠ s.cfg.txDepth) :
    ∃ t : State, cpuSteps 4 (s.withCont (f :: fs)) = .next t ∧
      fetchLine t.cont = fetchLine (f.atLine (f.pos + 1) :: fs) ∧
      t = { s with txFifo := s.txFifo ++ [b], rdata := t.rdata, trace := t.trace, cont := t.cont } := by
  have hframe : (Call.putByte e).frame (s.withCont (f.atLine (f.pos + 1) :: fs)) = .known (putByteFrame b) := by
    rw [Call.frame, he, Computed.map, Computed.known, lowByte_zextByte]
    rfl
  obtain ⟨t, hsteps, hnext, ht⟩ :=
    putByte_room (s := s.withCont (putByteFrame b :: f.atLine (f.pos + 1) :: fs)) hf rfl hroom
  refine ⟨t, (cpuSteps_line (s := s.withCont (f :: fs)) 3 rfl hl (runLine_call hframe)).trans hsteps, hnext, ?_⟩
  rw [ht]
  rfl

end Lines

section Loop

variable {s : State} {c : Config} {v : Word} {fs : List Frame} {words : List (Name × Word)}

/-- A turn of its loop sends the oldest byte, where the ring is not empty. -/
theorem Drain.byte (hf : s.fault = none) (hwf : s.cfg.wf = true) (hroom : s.txFifo.length ≠ s.cfg.txDepth)
    (hc : s.cont = ringDrainFrame s.cfg 2 words :: fs) (hh : words.lookup nH = some s.rbHead)
    (hne : s.rbTail ≠ s.rbHead) :
    ∃ t, Drain s [s.rbByte s.rbTail] t ∧
      t.cont = ringDrainFrame s.cfg 2 (bindName nB (zextByte (s.rbByte s.rbTail)) words) :: fs := by
  have htest := runLine_ifGoto_of_not (s := s.withCont (ringDrainFrame s.cfg 3 words :: fs))
    (Cond.eval_eq (a := .count .tail) rfl (Expr.eval_var hh)) hne 0
  have hread := (cpuSteps_line 1 (congrArg fetchLine hc) rfl htest).trans
    (cpuSteps_line 0 rfl rfl (runLine_readTail hf hwf nB))
  obtain ⟨t, hput, hnext, ht⟩ := cpuSteps_call_putByte (s := { s with rdata := zextByte (s.rbByte s.rbTail) })
    (f := ringDrainFrame s.cfg 4 (bindName nB (zextByte (s.rbByte s.rbTail)) words)) (fs := fs) hf rfl
    (Expr.eval_var (lookup_bindName_self ..)) hroom
  have hmove := (cpuSteps_line 1 hnext rfl (runLine_setCount rfl .tail)).trans
    (cpuSteps_line (s := (t.putCount .tail (t.rbTail + 1#32)).withCont _) 0 rfl rfl (runLine_goto 2))
  refine ⟨_, ⟨⟨2 + 4 + 2, (cpuSteps_add 2 ((cpuSteps_add 4 hread).trans hput)).trans hmove⟩, ?_⟩, rfl⟩
  rw [ht]
  rfl

/-- With room for the ring's occupancy its loop sends the ring's bytes, oldest first. -/
theorem Drain.bytes {n : Nat} (hf : s.fault = none) (hcfg : s.cfg = c) (hwf : c.wf = true) (hhead : s.rbHead = v)
    (hocc : s.rbOcc.toNat = n) (hroom : s.txFifo.length + n ≤ c.txDepth)
    (hc : s.cont = ringDrainFrame c 2 words :: fs) (hh : words.lookup nH = some v) :
    ∃ t words', Drain s ((List.range n).map fun i => s.rbByte (s.rbTail + BitVec.ofNat 32 i)) t ∧
      t.cont = ringDrainFrame c 2 words' :: fs ∧ words'.lookup nH = some v := by
  induction n generalizing s words with
  | zero => exact ⟨s, words, .of_cont (c := s.cont) (k := 0) rfl, hc, hh⟩
  | succ n ih =>
    subst hcfg hhead
    have hne : s.rbTail ≠ s.rbHead := fun h => by
      rw [State.rbOcc, h, BitVec.sub_self] at hocc
      cases hocc
    obtain ⟨t, hbyte, ht⟩ := Drain.byte hf hwf (by omega) hc hh hne
    have hocc' : t.rbOcc.toNat = n := by
      rw [State.rbOcc] at hocc ⊢
      rw [hbyte.head, hbyte.tail, List.length_singleton]
      bv_omega
    have hroom' : t.txFifo.length + n ≤ s.cfg.txDepth := by
      rw [hbyte.tx, List.length_append, List.length_singleton]
      omega
    obtain ⟨u, words', hbytes, hu, hh'⟩ := ih (hbyte.fault.trans hf) hbyte.cfg hbyte.head hocc' hroom' ht
      ((lookup_bindName_other (by decide) ..).trans hh)
    have hrest : ∀ i, t.rbByte (t.rbTail + BitVec.ofNat 32 i) = s.rbByte (s.rbTail + BitVec.ofNat 32 (i + 1)) :=
      fun i => by rw [hbyte.rbByte, hbyte.tail, ← add_one_add_ofNat]; rfl
    refine ⟨u, words', ?_, hu, hh'⟩
    simpa only [hrest, List.singleton_append, List.range_succ_eq_map, List.map_cons, List.map_map, Function.comp_def,
      BitVec.add_zero] using hbyte.trans hbytes

/-- Its first line reads the head. -/
theorem cpuSteps_ringDrain_enter (n : Nat) (hc : fetchLine s.cont = fetchLine (ringDrainFrame c 0 words :: fs)) :
    cpuSteps (n + 1) s = cpuSteps n (s.withCont (ringDrainFrame c 1 (bindName nH s.rbHead words) :: fs)) :=
  cpuSteps_line n hc rfl (runLine_assign rfl nH)

/-- With bytes in the ring its loop begins. -/
theorem Drain.enter (hc : fetchLine s.cont = fetchLine (ringDrainFrame c 0 words :: fs)) (hne : s.rbHead ≠ s.rbTail) :
    Drain s [] (s.withCont (ringDrainFrame c 2 (bindName nH s.rbHead words) :: fs)) := by
  have htest := runLine_ifGoto_of_not (s := s.withCont (ringDrainFrame c 2 (bindName nH s.rbHead words) :: fs))
    (Cond.eval_eq (b := .count .tail) (Expr.eval_var (lookup_bindName_self ..)) rfl) hne 8
  exact .of_cont ((cpuSteps_ringDrain_enter 1 hc).trans (cpuSteps_line 0 rfl rfl htest))

/-- On an empty ring it ends. -/
theorem Drain.empty (hc : fetchLine s.cont = fetchLine (ringDrainFrame c 0 words :: fs))
    (hempty : s.rbHead = s.rbTail) : ∃ t, Drain s [] t ∧ fetchLine t.cont = fetchLine fs := by
  have htest := runLine_ifGoto_of (s := s) (f := ringDrainFrame c 2 (bindName nH s.rbHead words)) (fs := fs)
    (Cond.eval_eq (b := .count .tail) (Expr.eval_var (lookup_bindName_self ..)) rfl) hempty 8
  exact ⟨_, .of_cont ((cpuSteps_ringDrain_enter 1 hc).trans (cpuSteps_line 0 rfl rfl htest)), fetchLine_none rfl⟩

/-- With room for the ring's occupancy it sends the ring's bytes, oldest first, and ends. -/
theorem Drain.all (hf : s.fault = none) (hwf : s.cfg.wf = true)
    (hc : s.cont = Frame.call (ringDrainLines s.cfg) [] [] none none :: fs)
    (hroom : s.txFifo.length + s.rbOcc.toNat ≤ s.cfg.txDepth) :
    ∃ t, Drain s ((List.range s.rbOcc.toNat).map fun i => s.rbByte (s.rbTail + BitVec.ofNat 32 i)) t ∧
      fetchLine t.cont = fetchLine fs := by
  by_cases hempty : s.rbHead = s.rbTail
  · rw [State.rbOcc, hempty, BitVec.sub_self]
    exact Drain.empty (words := []) (congrArg fetchLine hc) hempty
  have henter := Drain.enter (words := []) (congrArg fetchLine hc) hempty
  obtain ⟨t, words, hbytes, ht, hh⟩ :=
    Drain.bytes (s := s.withCont (ringDrainFrame s.cfg 2 (bindName nH s.rbHead []) :: fs)) hf rfl hwf rfl rfl hroom rfl
      (lookup_bindName_self ..)
  have hsent : Drain s ((List.range s.rbOcc.toNat).map fun i => s.rbByte (s.rbTail + BitVec.ofNat 32 i)) t :=
    henter.trans hbytes
  have htail : t.rbTail = s.rbHead := hsent.tail_eq_head (by rw [List.length_map, List.length_range])
  have hdone := runLine_ifGoto_of (s := t) (f := ringDrainFrame s.cfg 3 words) (fs := fs)
    (Cond.eval_eq (a := .count .tail) rfl (Expr.eval_var hh)) htail 0
  obtain ⟨u, hempty, hnext⟩ := Drain.empty (s := t.withCont (ringDrainFrame s.cfg 0 words :: fs)) rfl
    (hsent.head.trans htail.symm)
  have hend := (Drain.of_cont (cpuSteps_line 0 (congrArg fetchLine ht) rfl hdone)).trans hempty
  exact ⟨u, by simpa only [List.append_nil] using hsent.trans hend, hnext⟩

end Loop

/-! The critical section (46_sync_wrapper.md R110). -/

section Critical

variable {s : State} {f : Frame} {fs : List Frame}

/-- The frame of `CSENTER` at line `pos`, the flag read. -/
def csEnterFrame (k : Name) (flag : Bool) (pos : Nat) : Frame :=
  ⟨csEnterLines, pos, [(nK, zextBit flag)], [], some k, none⟩

/-- `CSENTER` binds the acceptance flag for the caller and clears it. -/
theorem cpuSteps_csEnter {k : Name} (hc : s.cont = Frame.call csEnterLines [] [] (some k) none :: f :: fs) :
    cpuSteps 3 s = .next ({ s with cpuIe := false }.withCont
      ({ f with words := bindName k (zextBit s.cpuIe) f.words } :: fs)) := by
  have hclear := (runLine_stImm rfl (decode_id 0#32)).trans (exec_id (s.withCont (csEnterFrame k s.cpuIe 2 :: f :: fs)))
  refine (cpuSteps_line 2 (congrArg fetchLine hc) rfl (runLine_assign rfl nK)).trans ?_
  exact (cpuSteps_line 1 rfl rfl hclear).trans
    (cpuSteps_line (s := { s with cpuIe := false }.withCont _) 0 rfl rfl (runLine_ret_word rfl rfl))

/-- The frame of `CSEXIT` with the value of the flag `flag`. -/
def csExitFrame (flag : Bool) : Frame := Frame.call csExitLines [(nK, zextBit flag)] [] none none

/-- `CSEXIT` with the value of a flag that was set sets it. -/
theorem cpuSteps_csExit_set (hc : s.cont = csExitFrame true :: fs) :
    cpuSteps 2 s = .next ({ s with cpuIe := true }.withCont ((csExitFrame true).atLine 2 :: fs)) := by
  have hset := (runLine_stImm rfl (decode_ie 0#32)).trans (exec_ie (s.withCont ((csExitFrame true).atLine 2 :: fs)))
  exact (cpuSteps_line 1 (congrArg fetchLine hc) rfl (runLine_ifGoto_false rfl 2)).trans
    (cpuSteps_line (s := s.withCont _) 0 rfl rfl hset)

/-- With the value of one that was clear it leaves the flag alone. -/
theorem cpuSteps_csExit_clear (hc : s.cont = csExitFrame false :: fs) :
    cpuSteps 1 s = .next (s.withCont ((csExitFrame false).atLine 2 :: fs)) :=
  cpuSteps_line 0 (congrArg fetchLine hc) rfl (runLine_ifGoto_true rfl 2)

end Critical

end Sys2Proof.Machine
end

section
/-! CERTIFICATE. The statements of 46_sync_wrapper.md settled: a line pushed into the ring, the ring drained, and the
critical section. -/

namespace Sys2Proof.Machine

/-- Settles O56: the test for room decides; the bytes of a line that fits have slots of their own. -/
theorem ringPushWholeOrDropped : Obligations.RingPushWholeOrDropped := by
  unfold Obligations.RingPushWholeOrDropped
  intro s fs txt _ hwf hmem hc
  refine ⟨fun hroom => ?_, fun hfull => ⟨_, cpuSteps_ringPush_drop hc hfull, rfl⟩⟩
  obtain ⟨k, c, hnext, hsteps⟩ := ringPush_room hwf hc hroom
  refine ⟨k, _, hsteps, rfl, fun i b hb => ?_, fun a ha => State.readByte_ringStore_other ha, ?_, hnext⟩
  · exact State.rbByte_ringStore hwf hmem (by omega) hb
  · rw [State.ringStore_eq]
    rfl

/-- Settles O57: the loop sends a byte a turn, until the tail is at the head. -/
theorem ringDrainSends : Obligations.RingDrainSends := by
  unfold Obligations.RingDrainSends
  intro s fs hf hwf hc hroom
  obtain ⟨t, hsent, hnext⟩ := Drain.all hf hwf hc hroom
  obtain ⟨k, hk⟩ := hsent.steps
  have htail : t.rbTail = s.rbHead := hsent.tail_eq_head (by rw [List.length_map, List.length_range])
  exact ⟨k, t, hk, hsent.fault.trans hf, hsent.tx, htail, hsent.head, hsent.drops, hsent.mem, hnext⟩

/-- Settles O58: what entering binds tells leaving whether the flag was set. -/
theorem criticalSectionRestores : Obligations.CriticalSectionRestores := by
  unfold Obligations.CriticalSectionRestores
  intro s f fs k _ hc
  refine ⟨_, cpuSteps_csEnter hc, rfl, fun gs => ?_⟩
  cases hflag : s.cpuIe with
  | true => exact ⟨2, _, cpuSteps_csExit_set rfl, rfl, fetchLine_none rfl⟩
  | false => exact ⟨1, _, cpuSteps_csExit_clear rfl, rfl, fetchLine_none rfl⟩

end Sys2Proof.Machine
end

section
/-! SUPPORT. For the statements of 60_exceptions.md and 70_reset_and_hazards.md: when a request stands and when it is
delivered, and the delivery's step; what a step does to the context and to the deliveries recorded; a status left set,
and one cleared after its acknowledge; and the first state in which a run ends. -/

namespace Sys2Proof.Machine

/-! The request and its delivery (10_state.md R34, 60_exceptions.md R117, R119). -/

theorem State.pending_iff {s : State} :
    s.pending = true ↔ (s.line || s.icRearm) = true ∧ s.icMasked = false ∧ s.icActive = false := by
  simp only [State.pending, Bool.and_eq_true, Bool.not_eq_true', and_assoc]

/-- With the line low, unmasked and nothing in service, a request stands where a re-arm is latched. -/
theorem State.pending_eq_rearm {s : State} (hline : s.line = false) (hmask : s.icMasked = false)
    (hact : s.icActive = false) : s.pending = s.icRearm := by
  simp [State.pending, hline, hmask, hact]

theorem State.deliverable_iff {s : State} :
    s.deliverable = true ↔ s.ctx = .normal ∧ s.cpuIe = true ∧ s.pending = true := by
  simp only [State.deliverable, Bool.and_eq_true, decide_eq_true_eq, and_assoc]

theorem State.deliverable_of_handler {s : State} (h : s.ctx = .handler) : s.deliverable = false := by
  simp [State.deliverable, h]

theorem State.deliverable_of_closed {s : State} (h : s.cpuIe = false) : s.deliverable = false := by
  simp [State.deliverable, h]

/-- The state in which the handler starts (60_exceptions.md R118). -/
def State.entered (s : State) : State :=
  { s with
    icActive := true, icRearm := false, saved := some s.cont, cont := [Frame.start s.isr], ctx := .handler
    trace := s.trace ++ [.deliver] }

theorem State.takeInterrupt_routed {s : State} (h : s.icPrioValid = true) : s.takeInterrupt = s.entered := by
  simp [State.takeInterrupt, h, State.emit, State.entered]

/-- Without a priority ever written there is nowhere to route it to (60_exceptions.md R117). -/
theorem State.takeInterrupt_unrouted {s : State} (h : s.icPrioValid = false) :
    s.takeInterrupt = s.raise .unrouted .delivery := by
  simp [State.takeInterrupt, h]

theorem step_delivery {s : State} (hf : s.fault = none) (hm : s.mover = .delivery) (hd : s.deliverable = true) :
    step s = .next s.chosen.takeInterrupt := by
  have he : s.chosen.deliverable = true := (s.chosen_enabled .delivery).trans hd
  rw [step_of_no_fault hf, hm, stepAgent, if_pos he]

theorem step_delivery_routed {s : State} (hf : s.fault = none) (hm : s.mover = .delivery)
    (hd : s.deliverable = true) (hv : s.icPrioValid = true) :
    step s = .next { s.chosen with
      icActive := true, icRearm := false, saved := some s.cont, cont := [Frame.start s.isr], ctx := .handler
      trace := s.trace ++ [.deliver] } := by
  obtain ⟨l, n, hchosen⟩ := s.chosen_cases
  rw [step_delivery hf hm hd, hchosen]
  exact congrArg _ (State.takeInterrupt_routed hv)

theorem step_delivery_unrouted {s : State} (hf : s.fault = none) (hm : s.mover = .delivery)
    (hd : s.deliverable = true) (hv : s.icPrioValid = false) :
    step s = .next (s.chosen.raise .unrouted .delivery) := by
  obtain ⟨l, n, hchosen⟩ := s.chosen_cases
  rw [step_delivery hf hm hd, hchosen]
  exact congrArg _ (State.takeInterrupt_unrouted hv)

/-! The context (10_state.md R29). -/

/-- What an agent's change does to the context and to the deliveries recorded: neither moves; the handler is entered,
by an enabled and routed delivery; or it is left, by a return. -/
inductive ContextEffect (s : State) (a : Agent) (t : State) : Prop
  | kept (hctx : t.ctx = s.ctx) (hcount : t.trace.count .deliver = s.trace.count .deliver)
  | entered (ha : a = .delivery) (hd : s.deliverable = true) (hv : s.icPrioValid = true)
  | left (hctx : t.ctx = .normal) (htrace : t.trace = s.trace ++ [.iret])

theorem count_deliver_snoc (tr : List Event) {e : Event} (he : e ≠ .deliver) :
    (tr ++ [e]).count .deliver = tr.count .deliver := by
  simp [he]

/-- One event recorded that is no delivery, the context as it was. -/
theorem ContextEffect.of_recorded {s t : State} {a : Agent} (e : Event) (he : e ≠ .deliver)
    (hctx : t.ctx = s.ctx) (htrace : t.trace = s.trace ++ [e]) : ContextEffect s a t :=
  .kept hctx (htrace ▸ count_deliver_snoc s.trace he)

/-- Of the operations only `IRET` writes the context (45_core_ops.md R103). -/
theorem Change.contextEffect {i : Instr} {s t : State} (h : Change s i t) : ContextEffect s .processor t := by
  have hcount := h.serviceEffect.count_deliver
  cases h with
  | ack v =>
    refine .kept ?_ hcount
    obtain ⟨_, _, _, h⟩ := s.acknowledge_fields
    rw [h]
    rfl
  | leave =>
    obtain ⟨-, h⟩ | ⟨-, h⟩ := s.returnFromInterrupt_cases
    · rw [h]
      exact .kept rfl rfl
    · rw [h]
      exact .left rfl rfl
  | _ => exact .kept rfl hcount

/-- Of the other agents only the delivery does, and one that is not routed faults instead. -/
theorem BlockChange.contextEffect {a : Agent} {s t : State} (h : BlockChange s a t) : ContextEffect s a t := by
  cases h with
  | operation i h => exact h.contextEffect
  | delivery hd =>
    obtain ⟨-, h⟩ | ⟨hv, -⟩ := s.takeInterrupt_cases
    · rw [h]
      exact .kept rfl rfl
    · exact .entered rfl hd hv
  | tick =>
    obtain ⟨-, h⟩ | ⟨-, -, h⟩ | ⟨-, -, h⟩ := s.tick_cases
    · rw [h]
      exact .kept rfl rfl
    all_goals
      rw [h]
      exact .of_recorded .evt nofun rfl rfl
  | drain =>
    obtain ⟨-, h⟩ | ⟨b, _, -, h⟩ := s.drain_cases
    · rw [h]
      exact .kept rfl rfl
    · rw [h]
      exact .of_recorded (.tx b) nofun rfl rfl
  | arrival =>
    obtain ⟨-, h⟩ | ⟨b, _, -, -, h⟩ | ⟨b, _, -, -, h⟩ := s.arrive_cases
    · rw [h]
      exact .kept rfl rfl
    · rw [h]
      exact .of_recorded (.rx b) nofun rfl rfl
    · rw [h]
      exact .of_recorded (.rxDrop b) nofun rfl rfl

/-- Bookkeeping touches nothing these effects speak of, so a step has the effect of its change of the block. -/
theorem step_contextEffect {s t : State} (h : step s = .next t) : ContextEffect s s.mover t := by
  obtain hst | ⟨u, w, ⟨⟩, hc, ⟨⟩⟩ := step_same_or_change h
  · cases hst
    exact .kept rfl rfl
  · obtain ⟨hctx, hcount⟩ | ⟨ha, hd, hv⟩ | ⟨hctx, htrace⟩ := hc.contextEffect
    · exact .kept hctx hcount
    · exact .entered ha hd hv
    · exact .left hctx htrace

/-! A status left set (60_exceptions.md R121), and one cleared after its acknowledge (70_reset_and_hazards.md R137). -/

theorem exec_stIcAck_high {s : State} (hact : s.icActive = true) (hline : s.line = true) (v : Word) :
    exec (.stIcAck v) s = .next ({ s with
      icActive := false, icRearm := Config.drawRearm s.draws, draws := s.draws + 1 }.writeDone 0x9008#16 v) := by
  rw [exec_stIcAck, State.acknowledge_high hact hline]

/-- The state after a delivery, an acknowledge with data word `v` that finds the line high, and a return. -/
def State.stormed (s : State) (v : Word) : State :=
  { s with
    icActive := false, icRearm := Config.drawRearm s.draws, draws := s.draws + 1, ctx := .normal, saved := none
    trace := s.trace ++ [.deliver] ++ [.acc .handler 0x9008#16 v] ++ [.iret] }

theorem execAll_acknowledge_return {s : State} (hf : s.fault = none) (hline : s.line = true)
    (hv : s.icPrioValid = true) (v : Word) :
    execAll [.stIcAck v, .iret] s.takeInterrupt = .next (s.stormed v) := by
  rw [State.takeInterrupt_routed hv]
  refine .trans (execAll_cons (exec_stIcAck_high (s := s.entered) rfl hline v) hf) ?_
  exact execAll_cons (t := s.stormed v) (exec_iret_handler rfl rfl) hf

/-- The line is as high as before and the service is over, so the request stands again. -/
theorem State.deliverable_stormed {s : State} (hd : s.deliverable = true) (hline : s.line = true) (v : Word) :
    (s.stormed v).deliverable = true := by
  obtain ⟨-, hie, hpending⟩ := State.deliverable_iff.1 hd
  obtain ⟨-, hmask, -⟩ := State.pending_iff.1 hpending
  have hhigh : ((s.stormed v).line || (s.stormed v).icRearm) = true := Bool.or_eq_true_iff.2 (.inl hline)
  exact State.deliverable_iff.2 ⟨rfl, hie, State.pending_iff.2 ⟨hhigh, hmask, rfl⟩⟩

/-- The state after an acknowledge with data word `v` that finds the line high, then a clear of `OVF`. -/
def State.clearedLate (s : State) (v : Word) : State :=
  { s with
    tOvf := false, icActive := false, icRearm := Config.drawRearm s.draws, draws := s.draws + 1
    trace := s.trace ++ [.acc s.ctx 0x9008#16 v] ++ [.acc s.ctx 0x800C#16 1#32] }

theorem execAll_acknowledge_clear {s : State} (hf : s.fault = none) (hon : s.clkEn = true) (hact : s.icActive = true)
    (hline : s.line = true) (v : Word) : execAll [.stIcAck v, .stTisr 1#32] s = .next (s.clearedLate v) := by
  refine .trans (execAll_cons (exec_stIcAck_high hact hline v) hf) ?_
  exact execAll_cons (t := s.clearedLate v) (gated_on hon) hf

/-! The end of a run (60_exceptions.md R129). -/

theorem endWithin_of_ended {s : State} (h : Ended s) (n : Nat) : State.endWithin n s = some s := by
  cases n <;> exact if_pos h

theorem endWithin_zero {s : State} (h : ¬ Ended s) : State.endWithin 0 s = none := if_neg h

theorem endWithin_next {s u : State} (h : ¬ Ended s) (hs : step s = .next u) (n : Nat) :
    State.endWithin (n + 1) s = State.endWithin n u := by
  have hne : ¬ s.ended = true := h
  rw [endWithin_succ, if_neg hne, hs]

theorem endWithin_stop {s : State} (h : ¬ Ended s) (hs : ∀ u, step s ≠ .next u) (n : Nat) :
    State.endWithin (n + 1) s = none := by
  have hne : ¬ s.ended = true := h
  rw [endWithin_succ, if_neg hne]
  cases hstep : step s with
  | next u => exact absurd hstep (hs u)
  | fault r => rfl
  | refused r => rfl

/-- The `k`th state along the machine's own steps from `s` is `t`, the run may end there, and at none before it. -/
def FirstEnd (k : Nat) (s t : State) : Prop :=
  Host.Core.run Sys2Proof.core k s = .next t ∧ Ended t ∧
    ∀ (m : Nat) (u : State), m < k → Host.Core.run Sys2Proof.core m s = .next u → ¬ Ended u

/-- A run that may end at once ends nowhere later. -/
theorem firstEnd_of_ended {s : State} (h : Ended s) {k : Nat} {t : State} :
    FirstEnd k s t ↔ k = 0 ∧ s = t := by
  constructor
  · rintro ⟨hrun, -, hbefore⟩
    obtain rfl : k = 0 := Nat.eq_zero_of_not_pos fun hpos => hbefore 0 s hpos rfl h
    cases hrun
    exact ⟨rfl, rfl⟩
  · rintro ⟨rfl, rfl⟩
    exact ⟨rfl, h, fun m _ hm => absurd hm (Nat.not_lt_zero m)⟩

theorem not_firstEnd_zero {s t : State} (h : ¬ Ended s) : ¬ FirstEnd 0 s t := by
  rintro ⟨⟨⟩, hend, -⟩
  exact h hend

/-- A run that does not end at its start ends where it does from the next state. -/
theorem firstEnd_succ {s u t : State} (h : ¬ Ended s) (hs : step s = .next u) (k : Nat) :
    FirstEnd (k + 1) s t ↔ FirstEnd k u t := by
  simp only [FirstEnd, core_run_next k hs]
  refine and_congr_right fun _ => and_congr_right fun _ => ⟨fun hb m w hm hw => ?_, fun hb m w hm hw => ?_⟩
  · exact hb (m + 1) w (Nat.succ_lt_succ hm) ((core_run_next m hs).trans hw)
  · cases m with
    | zero =>
      cases hw
      exact h
    | succ m => exact hb m w (Nat.lt_of_succ_lt_succ hm) ((core_run_next m hs).symm.trans hw)

theorem not_firstEnd_stop {s t : State} (h : ¬ Ended s) (hs : ∀ u, step s ≠ .next u) (k : Nat) :
    ¬ FirstEnd k s t := by
  cases k with
  | zero => exact not_firstEnd_zero h
  | succ k => exact fun hfirst => core_run_stop k hs hfirst.1

/-- The bounded search finds the first end within its bound, and nothing else. -/
theorem endWithin_iff (n : Nat) (s t : State) : State.endWithin n s = some t ↔ ∃ k, k ≤ n ∧ FirstEnd k s t := by
  induction n generalizing s with
  | zero =>
    by_cases hend : Ended s
    · simp [endWithin_of_ended hend, firstEnd_of_ended hend]
    · simp [endWithin_zero hend, not_firstEnd_zero hend]
  | succ n ih =>
    by_cases hend : Ended s
    · simp [endWithin_of_ended hend, firstEnd_of_ended hend]
    by_cases hnext : ∃ u, step s = .next u
    · obtain ⟨u, hs⟩ := hnext
      rw [endWithin_next hend hs, ih]
      constructor
      · rintro ⟨k, hk, hfirst⟩
        exact ⟨k + 1, Nat.succ_le_succ hk, (firstEnd_succ hend hs k).2 hfirst⟩
      · rintro ⟨_ | k, hk, hfirst⟩
        · exact absurd hfirst (not_firstEnd_zero hend)
        · exact ⟨k, Nat.le_of_succ_le_succ hk, (firstEnd_succ hend hs k).1 hfirst⟩
    · have hstop := not_exists.1 hnext
      simp [endWithin_stop hend hstop, not_firstEnd_stop hend hstop]

end Sys2Proof.Machine
end

section
/-! CERTIFICATE. The statements of 60_exceptions.md settled: the handler entered and left, the storm, the fault and the
end of a run. -/

namespace Sys2Proof.Machine

/-- Settles O33: in handler context no change enters the handler, and the one that leaves it is the return. -/
theorem noNesting : Obligations.NoNesting := by
  unfold Obligations.NoNesting
  intro s t hs h
  have hoff := State.deliverable_of_handler hs
  refine ⟨hoff, ?_⟩
  obtain ⟨hctx, hcount⟩ | ⟨-, hd, -⟩ | ⟨hctx, htrace⟩ := step_contextEffect h
  · exact ⟨hcount, .inl (hctx.trans hs)⟩
  · rw [hoff] at hd
    cases hd
  · exact ⟨htrace ▸ count_deliver_snoc s.trace (e := .iret) nofun, .inr ⟨hctx, htrace⟩⟩

/-- Settles O34: of all changes only the delivery leads into the handler, and its step is known. -/
theorem entryIsDelivery : Obligations.EntryIsDelivery := by
  unfold Obligations.EntryIsDelivery
  intro s t h hs ht
  obtain ⟨hctx, -⟩ | ⟨hm, hd, hv⟩ | ⟨hctx, -⟩ := step_contextEffect h
  · cases hs.symm.trans (hctx.symm.trans ht)
  · obtain ⟨hf, -⟩ := step_cases h
    obtain ⟨-, hie, hpending⟩ := State.deliverable_iff.1 hd
    cases (step_delivery_routed hf hm hd hv).symm.trans h
    exact ⟨hm, hie, hpending, hv, rfl, rfl, rfl, rfl⟩
  · cases hctx.symm.trans ht

/-- Settles O50: the acknowledge ends the service and leaves the line, the return leads back. -/
theorem unclearedStatusRedelivers : Obligations.UnclearedStatusRedelivers := by
  unfold Obligations.UnclearedStatusRedelivers
  intro s v hf hd hline hv
  exact ⟨s.stormed v, execAll_acknowledge_return hf hline hv v, rfl, hline, State.deliverable_stormed hd hline v, hf⟩

/-- Settles O59: by induction on the bound, a step at a time. -/
theorem runEndsAtFirst : Obligations.RunEndsAtFirst := by
  unfold Obligations.RunEndsAtFirst
  intro n s t
  simp only [← ended_iff]
  exact endWithin_iff n s t

/-- Settles O7: a step looks at the fault first, and so do an agent that would move and the end of a run. -/
theorem faultEndsRun : Obligations.FaultEndsRun := by
  unfold Obligations.FaultEndsRun
  intro s r hr
  have hne : s.fault ≠ none := by simp [hr]
  refine ⟨fun l n => step_of_fault hr, fun a ⟨hf, _⟩ => hne hf, fun hend => ?_⟩
  obtain ⟨-, -, hf, -⟩ := (ended_iff s).1 hend
  exact hne hf

/-- Settles O32: the premises are those under which a delivery has a step, and the routing decides what it does. -/
theorem deliveryStep : Obligations.DeliveryStep := by
  unfold Obligations.DeliveryStep
  intro s hf hm hctx hie hreq hmask hact
  have hd : s.deliverable = true := State.deliverable_iff.2 ⟨hctx, hie, State.pending_iff.2 ⟨hreq, hmask, hact⟩⟩
  exact ⟨step_delivery_routed hf hm hd, step_delivery_unrouted hf hm hd⟩

end Sys2Proof.Machine
end

section
/-! CERTIFICATE. The statements of 70_reset_and_hazards.md settled: the acknowledge before the clear, and the section
that `OVF_IE` does not guard. -/

namespace Sys2Proof.Machine

/-- Settles O48: the clear lowers the line, so the request left is the re-arm that the acknowledge drew. -/
theorem acknowledgeBeforeClear : Obligations.AcknowledgeBeforeClear := by
  unfold Obligations.AcknowledgeBeforeClear
  intro s v hf hon hact hmask hovf hie
  have hline : s.line = true := Bool.and_eq_true_iff.2 ⟨hovf, hie⟩
  exact ⟨s.clearedLate v, execAll_acknowledge_clear hf hon hact hline v, rfl, rfl,
    State.pending_eq_rearm (s := s.clearedLate v) rfl hmask rfl, hf⟩

/-- Settles O49: a request is the line or the re-arm, and the write reaches the line only; the acceptance flag stands
before both. -/
theorem enableIsNoCriticalSection : Obligations.EnableIsNoCriticalSection := by
  unfold Obligations.EnableIsNoCriticalSection
  intro s
  refine ⟨fun hon => ?_, _, exec_id s, State.deliverable_of_closed rfl⟩
  have hlow : ({ s with tIe := false }.writeDone 0x8010#16 0#32).line = false := Bool.and_false s.tOvf
  refine ⟨_, gated_on hon, hlow, fun hrearm hmask hact => ?_⟩
  have hpending := (State.pending_eq_rearm hlow hmask hact).trans hrearm
  exact ⟨hpending, fun hctx hie => State.deliverable_iff.2 ⟨hctx, hie, hpending⟩⟩

end Sys2Proof.Machine
end
